-- ==== Sys2Proof/Word.lean ====
section
/-! DEFINITION. The one word of this hardware: the byte (00_scope.md R7, 20_memory.md R52: nothing on a buffer or a
stream is wider, and every cursor is a natural number that never wraps). -/

namespace Sys2Proof

/-- A byte: bit 7 is its most significant bit, bit 0 its least significant (R7). -/
abbrev Byte := BitVec 8

end Sys2Proof
end

