-- ==== Sys2Proof/Config.lean ====
section
/-! DEFINITION. What an instance of the block fixes (00_scope.md R4, R6), and the free values: constants without a
body, of which no proof can know anything. -/

namespace Sys2Proof

/-- The five parameters of an instance (R4, R6); the configuration registers CFG_WINDOW to CFG_BATCH of R23 hold them. -/
structure Params where
  /-- WINDOW_SIZE, the largest back-reference distance. -/
  windowSize : Nat
  /-- LOOKAHEAD_SIZE; MAX_MATCH is one less. -/
  lookaheadSize : Nat
  /-- CHUNK_CAP: bytes of one input chunk of the compressor. -/
  chunkCap : Nat
  /-- RING_CAP: bytes of the decompressor's RingBuffer. -/
  ringCap : Nat
  /-- BATCH_CAP: Codes of one decode batch. -/
  batchCap : Nat
deriving DecidableEq, Repr

/-- The instance State.reset holds: WINDOW_SIZE and LOOKAHEAD_SIZE are the reference configuration of R4.
The three capacities are OPEN in the spec (R6, D2 to D4): DESIGN CHOICE (log entry 1), unsafe only for a claim that
rests on their values. -/
def Config.reference : Params :=
  { windowSize := 8192, lookaheadSize := 8, chunkCap := 65536, ringCap := 16384, batchCap := 4 }

/-- A free byte: what ACC and C_LIT hold after an error (60_exceptions.md R197; log entry 9). -/
opaque Config.freeByte : Nat → Byte

/-- A free natural number: what FILL, C_OFF, C_LEN, CLEN, POS, WSTART, WP, FBASE and BCNT hold after an error (R197;
log entry 9). -/
opaque Config.freeNat : Nat → Nat

/-- A free bit: what IN_EOF and EOS hold after an error (R197; log entry 9). -/
opaque Config.freeBit : Nat → Bool

end Sys2Proof
end

