-- ==== Sys2Proof/Machine/Format.lean ====
section
/-! DEFINITION. The derived constants of the wire format (00_scope.md R5), which parameter sets are legal (R4, R6),
and bit strings: a field is a list of bits, most significant first (R7, 20_memory.md R51, R52). -/

namespace Sys2Proof

/-- `ceil(log2(n))` for n ≥ 1: the least k with 2^k ≥ n (R7). -/
def ceilLog2 (n : Nat) : Nat := if n ≤ 1 then 0 else Nat.log2 (n - 1) + 1

/-- Whether `n` is a power of two. -/
def isPowerOfTwo (n : Nat) : Bool := 2 ^ Nat.log2 n == n

/-- MAX_MATCH = LOOKAHEAD_SIZE − 1 (R5). -/
def Params.maxMatch (p : Params) : Nat := p.lookaheadSize - 1

/-- LEN_BITS, the width of the length field (R5). -/
def Params.lenBits (p : Params) : Nat := ceilLog2 p.lookaheadSize

/-- OFF_BITS, the width of the offset field (R5). -/
def Params.offBits (p : Params) : Nat := ceilLog2 p.windowSize

/-- LIT_BITS, the width of the literal field (R5). -/
def litBits : Nat := 8

/-- The longest Code in bits: a copy Code (R86). -/
def Params.maxCodeBits (p : Params) : Nat := p.lenBits + p.offBits + litBits

/-- The legal parameter sets: W and L powers of two, at least 2 (R4), and the bounds of R6. -/
abbrev Params.Legal (p : Params) : Prop :=
  isPowerOfTwo p.windowSize = true ∧ 2 ≤ p.windowSize ∧
  isPowerOfTwo p.lookaheadSize = true ∧ 2 ≤ p.lookaheadSize ∧
  1 ≤ p.chunkCap ∧ 2 * p.windowSize ≤ p.ringCap ∧ 1 ≤ p.batchCap

/-- The `n` low bits of `v`, most significant first: the bits ENCODE_BITS(v, n) puts, in their order (R101). -/
def bitsOf : Nat → Nat → List Bool
  | 0, _ => []
  | n + 1, v => v.testBit n :: bitsOf n v

/-- The bits of a byte in the order of the stream: bit 7 first (R51). -/
def byteBits (b : Byte) : List Bool := bitsOf 8 b.toNat

/-- The bits of a byte sequence in the order of the stream (R51). -/
def streamBits (bytes : List Byte) : List Bool := bytes.flatMap byteBits

end Sys2Proof
end

