-- ==== Sys2Proof/Syntax.lean ====
section
/-! DEFINITION. The Code value object (00_scope.md R9) and the instructions: one constructor of `Instr` per row of
spec/opcode_table.json (30_encoding.md R87). -/

namespace Sys2Proof

/-- A Code: the triple (offset, length, literal) of R9. -/
structure Code where
  /-- Distance behind the current position, 1..WINDOW_SIZE, or 0 when there is no match. -/
  off : Nat
  /-- Number of bytes copied, 0..MAX_MATCH. -/
  len : Nat
  /-- The byte that follows the copied bytes. -/
  lit : Byte
deriving DecidableEq, Repr

/-- The commands the block accepts (R87): eight Code rows of the compressed stream and the two writes of CTRL.
An offset operand is the distance itself, 1..WINDOW_SIZE; on the wire it is `off − 1` (R84). -/
inductive Instr where
  /-- LIT c (43_decompress.md R164). -/
  | lit (c : Byte)
  /-- COPY off, 1, c (R165). -/
  | copy1 (off : Nat) (c : Byte)
  /-- COPY off, 2, c (R165). -/
  | copy2 (off : Nat) (c : Byte)
  /-- COPY off, 3, c (R165). -/
  | copy3 (off : Nat) (c : Byte)
  /-- COPY off, 4, c (R165). -/
  | copy4 (off : Nat) (c : Byte)
  /-- COPY off, 5, c (R165). -/
  | copy5 (off : Nat) (c : Byte)
  /-- COPY off, 6, c (R165). -/
  | copy6 (off : Nat) (c : Byte)
  /-- COPY off, 7, c (R165). -/
  | copy7 (off : Nat) (c : Byte)
  /-- START with MODE_SEL = 0 (60_exceptions.md R205). -/
  | startCompress
  /-- START with MODE_SEL = 1 (R205). -/
  | startDecompress
deriving DecidableEq, Repr

end Sys2Proof
end

