-- ==== Sys2Proof/WellFormed.lean ====
section
/-! DEFINITION. Which Codes and instructions are well formed under a parameter set (00_scope.md R9, 30_encoding.md
R83 to R85, R88). -/

namespace Sys2Proof

/-- The invariant of a Code (R9): `length = 0 ⇔ offset = 0`, offset at most WINDOW_SIZE, length at most MAX_MATCH. -/
abbrev Code.Valid (p : Params) (c : Code) : Prop :=
  (c.len = 0 ↔ c.off = 0) ∧ c.off ≤ p.windowSize ∧ c.len ≤ p.maxMatch

/-- The operands of a copy Code (R165): 1 ≤ off ≤ WINDOW_SIZE and 1 ≤ n ≤ MAX_MATCH. -/
abbrev CopyOperands (p : Params) (off n : Nat) : Prop :=
  1 ≤ off ∧ off ≤ p.windowSize ∧ 1 ≤ n ∧ n ≤ p.maxMatch

/-- An instruction is well formed when its operands are in their domains; the literal takes every byte (R85). -/
def Instr.wellFormed (p : Params) : Instr → Bool
  | .lit _ => true
  | .copy1 off _ => decide (CopyOperands p off 1)
  | .copy2 off _ => decide (CopyOperands p off 2)
  | .copy3 off _ => decide (CopyOperands p off 3)
  | .copy4 off _ => decide (CopyOperands p off 4)
  | .copy5 off _ => decide (CopyOperands p off 5)
  | .copy6 off _ => decide (CopyOperands p off 6)
  | .copy7 off _ => decide (CopyOperands p off 7)
  | .startCompress => true
  | .startDecompress => true

end Sys2Proof
end

