-- ==== Sys2Proof/Decode.lean ====
section
/-! DEFINITION. Decoding, total on any bits, and after it the encoder: the wire format of 30_encoding.md (R80 to R89)
and the CTRL byte of 10_state.md R23. -/

namespace Sys2Proof

/-- The answer of DECODE_BITS (40_bitcodec.md R104): a whole field and the bits after it, or `Short(k, p)`: the source
ran out after `k` bits of the field, whose value is `p`. -/
inductive Field where
  | ok (v : Nat) (rest : List Bool)
  | short (k p : Nat)
deriving DecidableEq, Repr

/-- The loop of DECODE_BITS (R104): `k` bits taken so far with value `v`, then `n` more to take. -/
def takeFieldFrom : Nat → Nat → Nat → List Bool → Field
  | 0, _, v, bits => .ok v bits
  | _ + 1, k, v, [] => .short k v
  | n + 1, k, v, b :: bits => takeFieldFrom n (k + 1) (2 * v + b.toNat) bits

/-- DECODE_BITS(n) on a finite bit string (R104). -/
def takeField (n : Nat) (bits : List Bool) : Field := takeFieldFrom n 0 0 bits

/-- The answer of DECODE_CODE (43_decompress.md R161) on a finite bit string. -/
inductive Decoded where
  /-- A whole Code, and the bits after it. -/
  | code (c : Code) (rest : List Bool)
  /-- The clean end of the stream: no bit left, or zero padding. -/
  | endOfStream
  /-- The error TruncatedStream (60_exceptions.md R191). -/
  | truncated
deriving DecidableEq, Repr

/-- STREAM_END(c, nonzero) of R161: `c` bits of this Code were consumed before the source ran out. -/
def streamEnd (c : Nat) (nonzero : Bool) : Decoded :=
  if c = 0 then .endOfStream
  else if c ≤ 7 ∧ nonzero = false then .endOfStream
  else .truncated

/-- DECODE_CODE (R161): length first, then the offset when the length is not zero, then the literal; the end of the
bits is judged over the whole Code (90_conflicts.md C2). -/
def decodeCode (p : Params) (bits : List Bool) : Decoded :=
  match takeField p.lenBits bits with
  | .short k v => streamEnd k (v != 0)
  | .ok len rest =>
    if 0 < len then
      match takeField p.offBits rest with
      | .short _ _ => .truncated
      | .ok o rest' =>
        match takeField litBits rest' with
        | .short _ _ => .truncated
        | .ok c rest'' => .code { off := o + 1, len := len, lit := BitVec.ofNat 8 c } rest''
    else
      match takeField litBits rest with
      | .short k v => streamEnd (p.lenBits + k) (v != 0)
      | .ok c rest' => .code { off := 0, len := 0, lit := BitVec.ofNat 8 c } rest'

/-- The row of the opcode table a Code belongs to (R87): length 0 is LIT, length n is COPYn. A Code longer than 7
exists only for LOOKAHEAD_SIZE > 8 and has no row (log entry 16). -/
def Instr.ofCode (c : Code) : Option Instr :=
  match c.len with
  | 0 => some (.lit c.lit)
  | 1 => some (.copy1 c.off c.lit)
  | 2 => some (.copy2 c.off c.lit)
  | 3 => some (.copy3 c.off c.lit)
  | 4 => some (.copy4 c.off c.lit)
  | 5 => some (.copy5 c.off c.lit)
  | 6 => some (.copy6 c.off c.lit)
  | 7 => some (.copy7 c.off c.lit)
  | _ => none

/-- The Code an instruction of the stream stands for (R94); none for the two CTRL writes, which are no Codes (R87). -/
def Instr.toCode : Instr → Option Code
  | .lit c => some ⟨0, 0, c⟩
  | .copy1 off c => some ⟨off, 1, c⟩
  | .copy2 off c => some ⟨off, 2, c⟩
  | .copy3 off c => some ⟨off, 3, c⟩
  | .copy4 off c => some ⟨off, 4, c⟩
  | .copy5 off c => some ⟨off, 5, c⟩
  | .copy6 off c => some ⟨off, 6, c⟩
  | .copy7 off c => some ⟨off, 7, c⟩
  | .startCompress => none
  | .startDecompress => none

/-- Decode one instruction of the compressed stream, with the bits after it. -/
def decodeWire (p : Params) (bits : List Bool) : Option (Instr × List Bool) :=
  match decodeCode p bits with
  | .code c rest => (Instr.ofCode c).map fun i => (i, rest)
  | .endOfStream => none
  | .truncated => none

/-- Decode a write of CTRL (R23, R205): bit 0 START, bit 1 MODE_SEL, bits 7:2 ignored. None: bit 0 is 0, and the write
is ignored. -/
def decodeCtrl (v : Byte) : Option Instr :=
  if v.getLsbD 0 = false then none
  else if v.getLsbD 1 = false then some .startCompress
  else some .startDecompress

/-- The bits of a Code on the wire (R81, R82, 42_compress.md R144): length, then `offset − 1` if the length is not
zero, then the literal. -/
def encodeCode (p : Params) (c : Code) : List Bool :=
  bitsOf p.lenBits c.len
    ++ ((if 0 < c.len then bitsOf p.offBits (c.off - 1) else []) ++ bitsOf litBits c.lit.toNat)

/-- The bits of an instruction: of its Code on the wire, or of the byte the host writes to CTRL with its ignored bits
zero (R23). -/
def encode (p : Params) : Instr → List Bool
  | .lit c => encodeCode p ⟨0, 0, c⟩
  | .copy1 off c => encodeCode p ⟨off, 1, c⟩
  | .copy2 off c => encodeCode p ⟨off, 2, c⟩
  | .copy3 off c => encodeCode p ⟨off, 3, c⟩
  | .copy4 off c => encodeCode p ⟨off, 4, c⟩
  | .copy5 off c => encodeCode p ⟨off, 5, c⟩
  | .copy6 off c => encodeCode p ⟨off, 6, c⟩
  | .copy7 off c => encodeCode p ⟨off, 7, c⟩
  | .startCompress => byteBits 1#8
  | .startDecompress => byteBits 3#8

/-- A decoded instruction that left no bit over. -/
def wholeInstr : Option (Instr × List Bool) → Option Instr
  | some (i, []) => some i
  | _ => none

/-- The instruction of a word of spec/opcode_table.json in the reference configuration, numbered as the table numbers
it: of a Code the highest bit is the first on the wire (R81, R82), so the bits of the word are laid out from bit 10
(LIT) or bit 23 (COPY) down to bit 0. `nbits` is the row's width in whole bytes: 8 for a CTRL byte, 16 for the 11 bits
of LIT (bits 15:11 are no bits of the row and must be 0), 24 for a COPY (log entry 7). -/
def decodeTableWord (nbits w : Nat) : Option Instr :=
  if nbits ≤ 8 then decodeCtrl (BitVec.ofNat 8 w)
  else if nbits ≤ 16 then
    if w < 2 ^ 11 then wholeInstr (decodeWire Config.reference (bitsOf 11 w)) else none
  else wholeInstr (decodeWire Config.reference (bitsOf 24 w))

end Sys2Proof
end

