-- ==== Sys2Proof/Machine/State.lean ====
section
/-! DEFINITION. The state of the block as plain data: every register and buffer of 10_state.md R20, the two streams of
R32, the host's turns still to come, and the control points of the two pipelines (R27); the faults and refusals; the
state after reset. -/

namespace Sys2Proof.Machine

/-- MODE (R21): which pipeline is active. The value 3 is never taken. -/
inductive Mode where
  | idle
  | comp
  | decomp
deriving DecidableEq, Repr

/-- ERR (R22, 60_exceptions.md R190): the error that ended the last operation. -/
inductive ErrCode where
  | none
  | truncatedStream
  | corruptStream
  | capacityExceeded
  | ioFailure
deriving DecidableEq, Repr

/-- One answer of the host to `SrcRead()` (00_scope.md R8). -/
inductive SrcAnswer where
  | byte (b : Byte)
  | eof
  | fail
deriving DecidableEq, Repr

/-- One answer of the host to `SnkWrite(b)` (R8). -/
inductive SnkAnswer where
  | ok
  | fail
deriving DecidableEq, Repr

/-- The host-visible registers (R23), by their numbers 0 to 6. -/
inductive Reg where
  | ctrl
  | status
  | cfgWindow
  | cfgLookahead
  | cfgChunk
  | cfgRing
  | cfgBatch
deriving DecidableEq, Repr

/-- What the host may do (60_exceptions.md R207, R203): reset, access a register, answer a stream port, connect a
source and a sink. It has no other move: a giveSrc or a connect that would supply an answer after the end mark is refused
(93_implementation_defined.md U19). -/
inductive HostEvent where
  /-- The reset event, at any time (70_reset_and_hazards.md R220). -/
  | reset
  /-- A write of a register (R23). -/
  | write (r : Reg) (v : Byte)
  /-- A read of a register (R23). -/
  | read (r : Reg)
  /-- The next answer of the input port: it stands behind those already given. After the end mark there is none (U19). -/
  | giveSrc (a : SrcAnswer)
  /-- The next answer of the output port. -/
  | giveSnk (a : SnkAnswer)
  /-- Connect a source and a sink (R223, R200): their answers replace those not yet taken. In a source the end mark stands
  last or not at all (R207, U19). While BUSY = 1 too: DESIGN CHOICE (log entry 10). -/
  | connect (src : List SrcAnswer) (snk : List SnkAnswer)
deriving DecidableEq, Repr

/-- Whose turn it is: the block's, or the host's with what it does (log entry 3). -/
inductive Turn where
  | block
  | host (e : HostEvent)
deriving DecidableEq, Repr

/-- Where the compressor's loops stand (42_compress.md R140). -/
inductive CPhase where
  /-- Inside LOAD_CHUNK (R141). -/
  | load
  /-- At the test of the inner loop (R143). -/
  | scan
  /-- Inside EMIT_CODE (R144), blocked in the SnkWrite of PUT_BIT with these bits still to put. -/
  | emit (rest : List Bool)
  /-- At FLUSH_BITS (R146). -/
  | flush
deriving DecidableEq, Repr

/-- One byte still to be appended by the Code being applied (43_decompress.md R164, R165). -/
inductive Act where
  /-- APPEND_BYTE(RING[WP − off]). -/
  | copy (off : Nat)
  /-- APPEND_BYTE(c). -/
  | lit (c : Byte)
deriving DecidableEq, Repr

/-- Where the decompressor's loops stand (R160). -/
inductive DPhase where
  /-- Inside DECODE_BATCH (R162): these bits of the next Code have been taken from the source. -/
  | decode (got : List Bool)
  /-- At the head of the loop of APPLY_BATCH (R163). -/
  | apply
  /-- Inside RING_FLUSH (R167), blocked in the SnkWrite of RING[i]; the Code being applied has `acts` left. -/
  | ringFlush (i : Nat) (acts : List Act)
  /-- Inside FINAL_FLUSH (R168), before the SnkWrite of RING[i]. -/
  | final (i : Nat)
deriving DecidableEq, Repr

/-- The state of the block, the streams and the host's turns. -/
structure State where
  /-- CFG_WINDOW, CFG_LOOKAHEAD, CFG_CHUNK, CFG_RING, CFG_BATCH (R23): read-only constants of the instance. -/
  cfg : Params
  /-- MODE (R21). -/
  mode : Mode
  /-- BUSY (R22). -/
  busy : Bool
  /-- DONE (R22). -/
  done : Bool
  /-- ERR (R22). -/
  err : ErrCode
  /-- ACC, the pending bits of the BitAccumulator (R24). -/
  acc : Byte
  /-- FILL, its fill count, 0..8 (R24). -/
  fill : Nat
  /-- C_OFF, C_LEN, C_LIT, the Code register (R25). -/
  creg : Code
  /-- CLEN, the number of valid bytes in CHUNK (R26). -/
  clen : Nat
  /-- POS, the index of the first byte of the Lookahead (R26). -/
  pos : Nat
  /-- WSTART, the index of the first byte of the Window (R26). -/
  wstart : Nat
  /-- IN_EOF: SrcRead has answered Eof (R26). -/
  inEof : Bool
  /-- WP, the write position of RING (R28). -/
  wp : Nat
  /-- FBASE, the index of the first byte of RING not yet sent (R28). -/
  fbase : Nat
  /-- BCNT, the number of Codes in BATCH (R28). -/
  bcnt : Nat
  /-- EOS: a decode has answered end-of-stream (R28). -/
  eos : Bool
  /-- CHUNK (R29): the entries that hold a value, by rising index. -/
  chunk : List Host.Cell
  /-- RING (R30): the entries that hold a value, by rising index. -/
  ring : List Host.Cell
  /-- BATCH (R31): the entries that hold a Code, by rising index. -/
  batch : List (Nat × Code)
  /-- SRC (R32): the answers the host will give to SrcRead, the next one first. -/
  src : List SrcAnswer
  /-- SNK (R32): the bytes SnkWrite has delivered so far, the first one first. -/
  snk : List Byte
  /-- The answers the host will give to SnkWrite, the next one first (R8, R235; the model's own, log entry 3). -/
  snkAns : List SnkAnswer
  /-- The host has given the end mark of the source it has connected (R207, U19; the model's own, log entry 26). -/
  endGiven : Bool
  /-- The turns still to come; when none is listed the block has every turn (the model's own, log entry 3). -/
  script : List Turn
  /-- The values register reads have given the host, the first one first (R23; the model's own, log entry 19). -/
  reads : List Nat
  /-- The compressor's control point (R27, R140; the model's own, log entry 5). -/
  cphase : CPhase
  /-- The decompressor's control point (R27, R160; the model's own, log entry 5). -/
  dphase : DPhase
  /-- The loop variable i of APPLY_BATCH (R163; the model's own, log entry 5). -/
  aidx : Nat
  /-- The number n of bytes SrcRead has delivered to this operation (R27; the model's own, log entry 15). -/
  taken : Nat
  /-- The counter the free values of Config are applied to (R197; the model's own, log entry 9). -/
  freeCtr : Nat
deriving DecidableEq, Repr

/-- Where the machine stops as a model: a read of a buffer entry that holds no value. The rules never make one
(R34: a read of one is a defect of the model); that it is unreachable is an obligation. SAFE. -/
inductive Fault where
  /-- Raised by the match scan: a CHUNK entry below CHUNK_CAP that nothing has written. Safe. -/
  | unwrittenChunk
  /-- Raised by a copy or a flush: a RING entry below RING_CAP that nothing has written. Safe. -/
  | unwrittenRing
  /-- Raised by the apply phase: a BATCH entry below BATCH_CAP that nothing has written. Safe. -/
  | unwrittenBatch
deriving DecidableEq, Repr

/-- What the model gives no meaning. -/
inductive Refusal where
  /-- An instruction without a meaning; raised by an arm of exec only. Safe. No arm raises it. -/
  | notModelled (mnemonic : String)
  /-- A parameter set outside R4 and R6 (93_implementation_defined.md U1, U2: refuse); raised by START and by a
  running pipeline. Safe. -/
  | illegalParameters
  /-- ENCODE_BITS(v, n) with v ≥ 2^n (40_bitcodec.md R101, U9: refuse); raised by EMIT_CODE. Unreachable. Safe. -/
  | valueTooWide
  /-- An offset or a length that no Code has (R9, R88: no bit pattern decodes to it); raised by the COPY meanings.
  Unreachable. Safe. -/
  | notACode
  /-- An answer to SrcRead supplied after the end mark (60_exceptions.md R207, U19: refuse); raised by the host's moves giveSrc
  and connect only. Safe. -/
  | afterEndMark
deriving DecidableEq, Repr

/-- The Code register, cleared. -/
def clearedCode : Code := { off := 0, len := 0, lit := 0#8 }

/-- The state right after reset of an instance with parameters `p` (R35, 70_reset_and_hazards.md R220): every scalar 0,
MODE IDLE, no buffer entry holds a value. The fields that are the model's own, and the host's streams, are empty:
DESIGN CHOICE (log entries 3, 5, 9, 10, 15, 19, 26). -/
def State.resetWith (p : Params) : State where
  cfg := p
  mode := .idle
  busy := false
  done := false
  err := .none
  acc := 0#8
  fill := 0
  creg := clearedCode
  clen := 0
  pos := 0
  wstart := 0
  inEof := false
  wp := 0
  fbase := 0
  bcnt := 0
  eos := false
  chunk := []
  ring := []
  batch := []
  src := []
  snk := []
  snkAns := []
  endGiven := false
  script := []
  reads := []
  cphase := .load
  dphase := .decode []
  aidx := 0
  taken := 0
  freeCtr := 0

/-- The machine right after reset: the reference configuration (00_scope.md R4; capacities DESIGN CHOICE, log entry 1). -/
def State.reset : State := State.resetWith Config.reference

end Sys2Proof.Machine
end

