-- ==== Sys2Proof/Machine/Ops.lean ====
section
/-! DEFINITION. The named operations: buffers as lists of cells in one canonical form, the two stream ports, the answer
of an operation that may block or fail, the entry of an error (60_exceptions.md R196, R197), completion (R206), the
initialisation of START (10_state.md R36) and the reset event (70_reset_and_hazards.md R220). -/

namespace Sys2Proof.Machine

/-! ### Buffers -/

/-- The canonical form of a buffer: indices strictly rising. An entry that is not listed holds no value (R34). -/
abbrev Memory.wf {α : Type} (m : List (Nat × α)) : Prop := m.Pairwise fun x y => x.1 < y.1

/-- The value of entry `i`, if it holds one. -/
def memGet {α : Type} : List (Nat × α) → Nat → Option α
  | [], _ => none
  | (a, v) :: m, i => if i = a then some v else memGet m i

/-- Write entry `i`, keeping the canonical form. -/
def memSet {α : Type} : List (Nat × α) → Nat → α → List (Nat × α)
  | [], i, v => [(i, v)]
  | (a, w) :: m, i, v =>
    if i < a then (i, v) :: (a, w) :: m
    else if i = a then (i, v) :: m
    else (a, w) :: memSet m i v

/-! ### The answer of an operation -/

/-- What an operation of the block answers. -/
inductive Res (α : Type) where
  /-- It is finished. -/
  | ok (a : α)
  /-- A stream port has given no answer yet: the pipeline waits in this state (R235). -/
  | wait (s : State)
  /-- It raises the error `e`, having come as far as this state (R196). -/
  | raise (e : ErrCode) (s : State)
  /-- The model stops. -/
  | fault (f : Fault)
  /-- The model gives no meaning. -/
  | refuse (r : Refusal)

/-- Run `f` on what `r` answers, if it is finished. -/
def Res.andThen {α β : Type} (r : Res α) (f : α → Res β) : Res β :=
  match r with
  | .ok a => f a
  | .wait s => .wait s
  | .raise e s => .raise e s
  | .fault x => .fault x
  | .refuse x => .refuse x

/-- Where the operation has to wait, note in the waiting state what is left to do. -/
def Res.parkAt {α : Type} (r : Res α) (park : State → State) : Res α :=
  match r with
  | .ok a => .ok a
  | .wait s => .wait (park s)
  | .raise e s => .raise e s
  | .fault x => .fault x
  | .refuse x => .refuse x

/-! ### Errors, completion, start, reset -/

/-- The state after an error (R197 (b)): every register but ERR, BUSY, DONE and MODE holds an unspecified value, a free
value of Config applied to the counter `freeCtr`; every buffer entry is unspecified, so none holds a value a rule could
read (R34). The streams keep what they have (R197 (c), (d)). DESIGN CHOICE (log entry 9), safe. -/
def unspecified (s : State) : State :=
  { s with
    acc := Config.freeByte s.freeCtr
    fill := Config.freeNat s.freeCtr
    creg :=
      { off := Config.freeNat (s.freeCtr + 1)
        len := Config.freeNat (s.freeCtr + 2)
        lit := Config.freeByte (s.freeCtr + 1) }
    clen := Config.freeNat (s.freeCtr + 3)
    pos := Config.freeNat (s.freeCtr + 4)
    wstart := Config.freeNat (s.freeCtr + 5)
    inEof := Config.freeBit s.freeCtr
    wp := Config.freeNat (s.freeCtr + 6)
    fbase := Config.freeNat (s.freeCtr + 7)
    bcnt := Config.freeNat (s.freeCtr + 8)
    eos := Config.freeBit (s.freeCtr + 1)
    chunk := []
    ring := []
    batch := []
    cphase := .load
    dphase := .decode []
    aidx := 0
    freeCtr := s.freeCtr + 9 }

/-- `raise E`, the block's trap entry (R196): the operation ends, ERR <- the code of E, BUSY <- 0, DONE stays 0,
MODE <- IDLE; nothing is saved and there is no handler. What the host has answered and the block has not taken stays in src and
snkAns, where a later operation reads it unless the host connects anew: DESIGN CHOICE (U20; log entry 14). -/
def raiseError (e : ErrCode) (s : State) : State :=
  { unspecified s with mode := .idle, busy := false, done := false, err := e }

/-- Completion (R206): DONE <- 1, BUSY <- 0, MODE <- IDLE; the other registers keep the values the pipeline left. Answers not
taken stay: DESIGN CHOICE (U20; log entry 14). -/
def complete (s : State) : State :=
  { s with mode := .idle, busy := false, done := true }

/-- START with MODE_SEL = 0 (R36): the accumulator empty, the flags cleared, the compressor's cursors 0. CHUNK is treated
as unwritten (R222; log entry 8). The operation reads the answers that stand in src and snkAns, those an earlier operation left
included: DESIGN CHOICE (U20; log entry 14). -/
def initCompress (s : State) : State :=
  { s with
    mode := .comp, busy := true, done := false, err := .none
    acc := 0#8, fill := 0
    clen := 0, pos := 0, wstart := 0, inEof := false
    chunk := [], cphase := .load, taken := 0 }

/-- START with MODE_SEL = 1 (R36): the accumulator empty, the flags cleared, the decompressor's cursors 0. RING and BATCH
are treated as unwritten (R222; log entry 8). Answers an earlier operation left are read as in initCompress (U20; log entry 14). -/
def initDecompress (s : State) : State :=
  { s with
    mode := .decomp, busy := true, done := false, err := .none
    acc := 0#8, fill := 0
    wp := 0, fbase := 0, bcnt := 0, eos := false
    ring := [], batch := [], dphase := .decode [], aidx := 0, taken := 0 }

/-- The reset event (R220, R35): every scalar 0, MODE IDLE, the buffers unspecified, no access to a stream; the CFG
constants and what is the host's stay (R222). -/
def resetBlock (s : State) : State :=
  { State.resetWith s.cfg with
    src := s.src, snk := s.snk, snkAns := s.snkAns, endGiven := s.endGiven, script := s.script, reads := s.reads
    freeCtr := s.freeCtr }

/-- How an operation that ran on its own ends a step: finished or waiting is a next state, an error is the next state
its entry gives. -/
def Res.toOutcome (r : Res State) : Host.Outcome State Fault Refusal :=
  match r with
  | .ok s => .next s
  | .wait s => .next s
  | .raise e s => .next (raiseError e s)
  | .fault f => .fault f
  | .refuse x => .refused x

/-! ### Buffer accesses: one entry each, the index checked (20_memory.md R55, R58; 60_exceptions.md R193) -/

/-- CHUNK[i]. -/
def chunkRead (i : Nat) (s : State) : Res Byte :=
  if i < s.cfg.chunkCap then
    match memGet s.chunk i with
    | some b => .ok b
    | none => .fault .unwrittenChunk
  else .raise .capacityExceeded s

/-- CHUNK[i] <- b. -/
def chunkWrite (i : Nat) (b : Byte) (s : State) : Res State :=
  if i < s.cfg.chunkCap then .ok { s with chunk := memSet s.chunk i b }
  else .raise .capacityExceeded s

/-- RING[i]. -/
def ringRead (i : Nat) (s : State) : Res Byte :=
  if i < s.cfg.ringCap then
    match memGet s.ring i with
    | some b => .ok b
    | none => .fault .unwrittenRing
  else .raise .capacityExceeded s

/-- RING[i] <- b. -/
def ringWrite (i : Nat) (b : Byte) (s : State) : Res State :=
  if i < s.cfg.ringCap then .ok { s with ring := memSet s.ring i b }
  else .raise .capacityExceeded s

/-- BATCH[i]. -/
def batchRead (i : Nat) (s : State) : Res Code :=
  if i < s.cfg.batchCap then
    match memGet s.batch i with
    | some c => .ok c
    | none => .fault .unwrittenBatch
  else .raise .capacityExceeded s

/-- BATCH[i] <- c. -/
def batchWrite (i : Nat) (c : Code) (s : State) : Res State :=
  if i < s.cfg.batchCap then .ok { s with batch := memSet s.batch i c }
  else .raise .capacityExceeded s

/-! ### The stream ports (00_scope.md R8) -/

/-- SrcRead(): the next byte, or none for Eof; Fail raises IOFailure (R194); it blocks while the host has given no
answer. -/
def srcRead (s : State) : Res (Option Byte × State) :=
  match s.src with
  | [] => .wait s
  | .byte b :: rest => .ok (some b, { s with src := rest, taken := s.taken + 1 })
  | .eof :: rest => .ok (none, { s with src := rest })
  | .fail :: rest => .raise .ioFailure { s with src := rest }

/-- SnkWrite(b): append `b` to SNK; Fail raises IOFailure (R194), and the byte is then not in SNK (U16, log entry 11); it
blocks while the host has given no answer. -/
def snkWrite (b : Byte) (s : State) : Res State :=
  match s.snkAns with
  | [] => .wait s
  | .ok :: rest => .ok { s with snk := s.snk ++ [b], snkAns := rest }
  | .fail :: rest => .raise .ioFailure { s with snkAns := rest }

/-- The host gives the next answer of the input port (R207), behind those already given. After the end mark it has no such move:
refused (93_implementation_defined.md U19; log entry 26). -/
def giveSource (a : SrcAnswer) (s : State) : Host.Outcome State Fault Refusal :=
  if s.endGiven then .refused .afterEndMark else .next { s with src := s.src ++ [a], endGiven := decide (a = .eof) }

/-- The host connects a source and a sink (R223, R200): their answers replace those not yet taken. A source with an answer after
its end mark is refused (R207, U19; log entry 26). That it may connect while BUSY = 1, which R200, R207 and R223 leave unsaid, and
what that does is a DESIGN CHOICE (log entry 10): the operation goes on with the new answers. -/
def connectStreams (src : List SrcAnswer) (ans : List SnkAnswer) (s : State) : Host.Outcome State Fault Refusal :=
  if .eof ∈ src.dropLast then .refused .afterEndMark
  else .next { s with src := src, snkAns := ans, endGiven := decide (.eof ∈ src) }

/-- Write the Code register, its domains checked (R193, 42_compress.md R149). -/
def setCode (c : Code) (s : State) : Res State :=
  if c.off ≤ s.cfg.windowSize ∧ c.len ≤ s.cfg.maxMatch then .ok { s with creg := c }
  else .raise .capacityExceeded s

end Sys2Proof.Machine
end

