-- ==== Sys2Proof/Machine/BitCodec.lean ====
section
/-! DEFINITION. BitCodec (40_bitcodec.md): PUT_BIT, ENCODE_BITS, FLUSH_BITS, GET_BIT; and the bit loop of DECODE_CODE
over GET_BIT. A bit loop that has to wait notes what is left in the control point of its pipeline. -/

namespace Sys2Proof.Machine

/-- `x` with bit `i` set to `b`. -/
def writeBit (x : Byte) (i : Nat) (b : Bool) : Byte :=
  if b then x ||| BitVec.ofNat 8 (2 ^ i) else x &&& ~~~ BitVec.ofNat 8 (2 ^ i)

/-- The second half of PUT_BIT (R100): when the accumulator is full, send it and clear it. -/
def sendFull (s : State) : Res State :=
  if s.fill = 8 then
    (snkWrite s.acc s).andThen fun t => .ok { t with acc := 0#8, fill := 0 }
  else .ok s

/-- PUT_BIT(b) (R100). It requires FILL ≤ 7; otherwise FILL leaves its domain (R193). -/
def putBit (b : Bool) (s : State) : Res State :=
  if s.fill ≤ 7 then
    sendFull { s with acc := writeBit s.acc (7 - s.fill) b, fill := s.fill + 1 }
  else .raise .capacityExceeded s

/-- PUT_BIT of each bit in order: the loop of ENCODE_BITS (R101), over the bits of one field or of all fields of a Code. -/
def putBits : List Bool → State → Res State
  | [], s => .ok s
  | b :: rest, s =>
    ((putBit b s).parkAt fun t => { t with cphase := .emit rest }).andThen fun t => putBits rest t

/-- The bits ENCODE_BITS(v, n) puts; a value that does not fit is refused (R101, D6, U9). -/
def fieldBits (v n : Nat) : Res (List Bool) :=
  if v < 2 ^ n then .ok (bitsOf n v) else .refuse .valueTooWide

/-- ENCODE_BITS(v, n) (R101). -/
def encodeBits (v n : Nat) (s : State) : Res State :=
  (fieldBits v n).andThen fun bits => putBits bits s

/-- FLUSH_BITS() (R102). -/
def flushBits (s : State) : Res State :=
  if 0 < s.fill then
    (snkWrite s.acc s).andThen fun t => .ok { t with acc := 0#8, fill := 0 }
  else .ok s

/-- GET_BIT() (R103): a bit, or none for Exhausted. It requires FILL ≤ 8; otherwise FILL is outside its domain (R193). -/
def getBit (s : State) : Res (Option Bool × State) :=
  if s.fill = 0 then
    (srcRead s).andThen fun r =>
      match r.1 with
      | none => .ok (none, r.2)
      | some x => .ok (some (x.getLsbD 7), { r.2 with acc := x, fill := 7 })
  else if s.fill ≤ 8 then .ok (some (s.acc.getLsbD (s.fill - 1)), { s with fill := s.fill - 1 })
  else .raise .capacityExceeded s

/-- The bit loop of DECODE_CODE (43_decompress.md R161): `got` are the bits of this Code taken so far. It takes bits by
GET_BIT until they are a whole Code, or the source is exhausted and the end is judged over the whole Code. `n` bounds the
number of bits. -/
def takeCode : Nat → List Bool → State → Res (Decoded × State)
  | 0, got, s => .ok (decodeCode s.cfg got, s)
  | n + 1, got, s =>
    match decodeCode s.cfg got with
    | .code c rest => .ok (.code c rest, s)
    | d =>
      ((getBit s).parkAt fun t => { t with dphase := .decode got }).andThen fun r =>
        match r.1 with
        | none => .ok (d, r.2)
        | some b => takeCode n (got ++ [b]) r.2

end Sys2Proof.Machine
end

