-- ==== Sys2Proof/Machine/MatchFinder.lean ====
section
/-! DEFINITION. MatchFinder (41_matchfinder.md): MATCH_LEN, the scan, FIND_LONGEST_MATCH. It reads CHUNK, POS, WSTART
and CLEN, and touches no stream. -/

namespace Sys2Proof.Machine

/-- The loop of MATCH_LEN(d) (R121): `k` bytes agree so far, at most `n` more are compared. The comparison may run into
the Lookahead (D10). -/
def matchLenFrom (s : State) (d : Nat) : Nat → Nat → Res Nat
  | 0, k => .ok k
  | n + 1, k =>
    (chunkRead (s.pos - d + k) s).andThen fun a =>
      (chunkRead (s.pos + k) s).andThen fun b =>
        if a = b then matchLenFrom s d n (k + 1) else .ok k

/-- MATCH_LEN(d) (R121). -/
def matchLen (s : State) (d : Nat) : Res Nat := matchLenFrom s d s.cfg.maxMatch 0

/-- The scan (R122, R123): candidates d, d + 1, ..., `n` of them; a candidate of length at least 1 and at least the best
so far replaces it, so among equal lengths the largest distance wins. -/
def scanFrom (s : State) : Nat → Nat → Nat → Nat → Res (Nat × Nat)
  | 0, _, bestOff, bestLen => .ok (bestOff, bestLen)
  | n + 1, d, bestOff, bestLen =>
    (matchLen s d).andThen fun k =>
      if 1 ≤ k ∧ bestLen ≤ k then scanFrom s n (d + 1) d k else scanFrom s n (d + 1) bestOff bestLen

/-- FIND_LONGEST_MATCH() (R126), with the near-end rule (R125): the Code for the Code register. WSTART ≤ POS is checked
(42_compress.md R149). -/
def findLongestMatch (s : State) : Res Code :=
  if s.clen - s.pos < s.cfg.lookaheadSize + 1 then
    (chunkRead s.pos s).andThen fun c => .ok { off := 0, len := 0, lit := c }
  else if s.wstart ≤ s.pos then
    (scanFrom s (s.pos - s.wstart) 1 0 0).andThen fun best =>
      (chunkRead (s.pos + best.2) s).andThen fun c => .ok { off := best.1, len := best.2, lit := c }
  else .raise .capacityExceeded s

end Sys2Proof.Machine
end

