-- ==== Sys2Proof/Machine/Compress.lean ====
section
/-! DEFINITION. StreamCompressor (42_compress.md): LOAD_CHUNK, EMIT_CODE, ADVANCE and the loops of COMPRESS. One step of
the pipeline is one LOAD_CHUNK, one Code, one loop test that leaves the inner loop, or the end; a step ends early where a
port blocks. -/

namespace Sys2Proof.Machine

/-- The loop of LOAD_CHUNK (R141): at most `n` more bytes. -/
def fillChunk : Nat → State → Res State
  | 0, s => .ok s
  | n + 1, s =>
    if s.inEof then .ok s
    else
      (srcRead s).andThen fun r =>
        match r.1 with
        | none => .ok { r.2 with inEof := true }
        | some x =>
          (chunkWrite r.2.clen x r.2).andThen fun t => fillChunk n { t with clen := t.clen + 1 }

/-- LOAD_CHUNK, and what COMPRESS does with the chunk (R140, R142): an empty chunk ends the outer loop, any other
restarts Window and Lookahead at its beginning. -/
def loadStep (s : State) : Res State :=
  (fillChunk (s.cfg.chunkCap - s.clen) s).andThen fun t =>
    if t.clen = 0 then .ok { t with cphase := .flush }
    else .ok { t with pos := 0, wstart := 0, cphase := .scan }

/-- The bits EMIT_CODE puts for a Code (R144): length, then `offset − 1` if the length is not zero, then the literal. -/
def codeBits (p : Params) (c : Code) : Res (List Bool) :=
  (fieldBits c.len p.lenBits).andThen fun l =>
    (if 0 < c.len then fieldBits (c.off - 1) p.offBits else .ok []).andThen fun o =>
      (fieldBits c.lit.toNat litBits).andThen fun b => .ok (l ++ (o ++ b))

/-- ADVANCE (R145), POS ≤ CLEN checked (R149). -/
def advance (s : State) : Res State :=
  if s.pos + s.creg.len + 1 ≤ s.clen then
    .ok { s with
      pos := s.pos + s.creg.len + 1
      wstart := s.pos + s.creg.len + 1 - s.cfg.windowSize
      cphase := .scan }
  else .raise .capacityExceeded s

/-- One pass of the inner loop of COMPRESS (R140, R143): FIND_LONGEST_MATCH, EMIT_CODE, ADVANCE. -/
def codeStep (s : State) : Res State :=
  (findLongestMatch s).andThen fun c =>
    (setCode c s).andThen fun t =>
      (codeBits t.cfg c).andThen fun bits =>
        (putBits bits t).andThen advance

/-- The test of the inner loop (R143) and of the outer loop (R140). Going back for the next chunk, CLEN, POS and WSTART
become 0 (R141, 10_state.md R26: POS and WSTART are set to 0 by every chunk load; log entry 22). -/
def scanStep (s : State) : Res State :=
  if s.pos < s.clen then codeStep s
  else if s.inEof then .ok { s with cphase := .flush }
  else .ok { s with clen := 0, pos := 0, wstart := 0, cphase := .load }

/-- EMIT_CODE going on where it was blocked (R235): the full accumulator is sent, the other bits follow, then ADVANCE. -/
def emitStep (rest : List Bool) (s : State) : Res State :=
  ((sendFull s).parkAt fun t => { t with cphase := .emit rest }).andThen fun t =>
    (putBits rest t).andThen advance

/-- FLUSH_BITS and completion (R146). -/
def finishCompress (s : State) : Res State :=
  (flushBits s).andThen fun t => .ok (complete { t with cphase := .load })

/-- One step of COMPRESS (R140). -/
def compressStep (s : State) : Res State :=
  match s.cphase with
  | .load => loadStep s
  | .scan => scanStep s
  | .emit rest => emitStep rest s
  | .flush => finishCompress s

end Sys2Proof.Machine
end

