-- ==== Sys2Proof/Machine/Operands.lean ====
section
/-! DEFINITION. The operand forms of the Codes (43_decompress.md R164, R165): the literal, and the copy source
RING[WP − off]. -/

namespace Sys2Proof.Machine

/-- The index a copy reads (R165): WP − off. The distance is checked once, when the Code starts (R169); that the
subtraction cannot go below 0 afterwards is checked as a domain (R193, R91). -/
def copySource (off : Nat) (s : State) : Res Nat :=
  if off ≤ s.wp then .ok (s.wp - off) else .raise .capacityExceeded s

/-- The byte one APPEND_BYTE of a Code is given: read from RING, or the literal (R164, R165). -/
def actByte (a : Act) (s : State) : Res Byte :=
  match a with
  | .copy off => (copySource off s).andThen fun i => ringRead i s
  | .lit c => .ok c

/-- What a copy Code appends, in order (R165): `n` bytes from `off` behind, then the literal. -/
def copyActs (off n : Nat) (c : Byte) : List Act := List.replicate n (.copy off) ++ [.lit c]

end Sys2Proof.Machine
end

