-- ==== Sys2Proof/Machine/Decompress.lean ====
section
/-! DEFINITION. StreamDecompressor (43_decompress.md): RING_FLUSH, APPEND_BYTE, the meanings of LIT and COPY1 to COPY7,
DECODE_BATCH and FINAL_FLUSH. -/

namespace Sys2Proof.Machine

/-- SnkWrite of RING[i], RING[i + 1], ..., `n` bytes (R167, R168). Where a write has to wait, `park` notes its index. -/
def sendRing (park : Nat → DPhase) : Nat → Nat → State → Res State
  | 0, _, s => .ok s
  | n + 1, i, s =>
    (ringRead i s).andThen fun b =>
      ((snkWrite b s).parkAt fun t => { t with dphase := park i }).andThen fun t => sendRing park n (i + 1) t

/-- The reseed (R167): RING[j] <- RING[RING_CAP − WINDOW_SIZE + j] for `n` entries from `j` on. -/
def reseed : Nat → Nat → State → Res State
  | 0, _, s => .ok s
  | n + 1, j, s =>
    (ringRead (s.cfg.ringCap - s.cfg.windowSize + j) s).andThen fun b =>
      (ringWrite j b s).andThen fun t => reseed n (j + 1) t

/-- RING_FLUSH (R167) from the SnkWrite of RING[i] on; the Code being applied has `acts` left. -/
def ringFlushFrom (i : Nat) (acts : List Act) (s : State) : Res State :=
  (sendRing (fun j => .ringFlush j acts) (s.cfg.ringCap - i) i s).andThen fun t =>
    (reseed t.cfg.windowSize 0 t).andThen fun u =>
      .ok { u with wp := u.cfg.windowSize, fbase := u.cfg.windowSize }

/-- APPEND_BYTE(b) (R166); the Code being applied has `acts` left after it. -/
def appendByte (b : Byte) (acts : List Act) (s : State) : Res State :=
  (ringWrite s.wp b s).andThen fun t =>
    if t.wp + 1 = t.cfg.ringCap then ringFlushFrom t.fbase acts { t with wp := t.wp + 1 }
    else .ok { t with wp := t.wp + 1 }

/-- The bytes a Code still appends, one at a time, each read after the write before it (R165, R61). At its end the Code
is applied, and the loop of APPLY_BATCH goes on. -/
def runActs : List Act → State → Res State
  | [], s => .ok { s with dphase := .apply }
  | a :: acts, s =>
    (actByte a s).andThen fun b => (appendByte b acts s).andThen fun t => runActs acts t

/-- LIT(lit) (R164). -/
def applyLit (c : Byte) (s : State) : Res State := runActs [.lit c] s

/-- COPY(off, n, lit) (R165): the CorruptStream test first (R169), before any byte is written. Operands that no Code has
are refused (R9, R88). -/
def applyCopy (off n : Nat) (c : Byte) (s : State) : Res State :=
  if CopyOperands s.cfg off n then
    if s.wp < off then .raise .corruptStream s else runActs (copyActs off n c) s
  else .refuse .notACode

/-- LIT c (R164). -/
def execLit (c : Byte) (s : State) : Host.Outcome State Fault Refusal := (applyLit c s).toOutcome

/-- COPY off, 1, c (R165). -/
def execCopy1 (off : Nat) (c : Byte) (s : State) : Host.Outcome State Fault Refusal := (applyCopy off 1 c s).toOutcome

/-- COPY off, 2, c (R165). -/
def execCopy2 (off : Nat) (c : Byte) (s : State) : Host.Outcome State Fault Refusal := (applyCopy off 2 c s).toOutcome

/-- COPY off, 3, c (R165). -/
def execCopy3 (off : Nat) (c : Byte) (s : State) : Host.Outcome State Fault Refusal := (applyCopy off 3 c s).toOutcome

/-- COPY off, 4, c (R165). -/
def execCopy4 (off : Nat) (c : Byte) (s : State) : Host.Outcome State Fault Refusal := (applyCopy off 4 c s).toOutcome

/-- COPY off, 5, c (R165). -/
def execCopy5 (off : Nat) (c : Byte) (s : State) : Host.Outcome State Fault Refusal := (applyCopy off 5 c s).toOutcome

/-- COPY off, 6, c (R165). -/
def execCopy6 (off : Nat) (c : Byte) (s : State) : Host.Outcome State Fault Refusal := (applyCopy off 6 c s).toOutcome

/-- COPY off, 7, c (R165). -/
def execCopy7 (off : Nat) (c : Byte) (s : State) : Host.Outcome State Fault Refusal := (applyCopy off 7 c s).toOutcome

/-- DECODE_BATCH stores a Code (R162): the Code register, BATCH[BCNT], BCNT. A full batch ends the decode phase. -/
def storeCode (c : Code) (s : State) : Res State :=
  (setCode c s).andThen fun t =>
    (batchWrite t.bcnt c t).andThen fun u =>
      if u.bcnt + 1 < u.cfg.batchCap then .ok { u with bcnt := u.bcnt + 1, dphase := .decode [] }
      else .ok { u with bcnt := u.bcnt + 1, dphase := .apply, aidx := 0 }

/-- One pass of the loop of DECODE_BATCH (R162): DECODE_CODE (R161), of whose Code the bits `got` have been taken, then
the Code is stored, or EOS <- 1 ends the decode phase, or TruncatedStream is raised (R191). -/
def decodeStep (got : List Bool) (s : State) : Res State :=
  (takeCode (s.cfg.maxCodeBits + 1) got s).andThen fun r =>
    match r.1 with
    | .code c _ => storeCode c r.2
    | .endOfStream => .ok { r.2 with eos := true, dphase := .apply, aidx := 0 }
    | .truncated => .raise .truncatedStream r.2

/-- After the last Code of a batch (R160): the final flush when the stream has ended, else the next batch. -/
def batchEnd (s : State) : State :=
  if s.eos then { s with dphase := .final s.fbase } else { s with bcnt := 0, dphase := .decode [] }

/-- RING_FLUSH going on where it was blocked (R235), then the rest of the Code. -/
def flushStep (i : Nat) (acts : List Act) (s : State) : Res State :=
  (ringFlushFrom i acts s).andThen fun t => runActs acts t

/-- FINAL_FLUSH from RING[i] on, and completion (R168, R206). -/
def finalStep (i : Nat) (s : State) : Res State :=
  (sendRing DPhase.final (s.wp - i) i s).andThen fun t =>
    .ok (complete { t with fbase := t.wp, dphase := .decode [] })

end Sys2Proof.Machine
end

