-- ==== Sys2Proof/Machine/Start.lean ====
section
/-! DEFINITION. The meanings of START (60_exceptions.md R205), the host's two commands. -/

namespace Sys2Proof.Machine

/-- START (R205): when MODE = IDLE the initialisation `init` of R36; otherwise the write is ignored. An instance whose
parameters are not legal is refused (00_scope.md R4, R6; U1, U2). -/
def startWith (init : State → State) (s : State) : Host.Outcome State Fault Refusal :=
  if s.cfg.Legal then
    if s.mode = .idle then .next (init s) else .next s
  else .refused .illegalParameters

/-- START with MODE_SEL = 0: compress (R205). -/
def execStartCompress (s : State) : Host.Outcome State Fault Refusal := startWith initCompress s

/-- START with MODE_SEL = 1: decompress (R205). -/
def execStartDecompress (s : State) : Host.Outcome State Fault Refusal := startWith initDecompress s

end Sys2Proof.Machine
end

