-- ==== Sys2Proof/Machine/Dispatch.lean ====
section
/-! DEFINITION. One arm per instruction: the Codes of the compressed stream (43_decompress.md R163 to R165) and the two
host commands (60_exceptions.md R205). -/

namespace Sys2Proof.Machine

/-- The meaning of each instruction. -/
def exec (i : Instr) (s : State) : Host.Outcome State Fault Refusal :=
  match i with
  | .lit c => Sys2Proof.Machine.execLit c s
  | .copy1 off c => Sys2Proof.Machine.execCopy1 off c s
  | .copy2 off c => Sys2Proof.Machine.execCopy2 off c s
  | .copy3 off c => Sys2Proof.Machine.execCopy3 off c s
  | .copy4 off c => Sys2Proof.Machine.execCopy4 off c s
  | .copy5 off c => Sys2Proof.Machine.execCopy5 off c s
  | .copy6 off c => Sys2Proof.Machine.execCopy6 off c s
  | .copy7 off c => Sys2Proof.Machine.execCopy7 off c s
  | .startCompress => Sys2Proof.Machine.execStartCompress s
  | .startDecompress => Sys2Proof.Machine.execStartDecompress s

end Sys2Proof.Machine
end

