-- ==== Sys2Proof/Machine/Flags.lean ====
section
/-! DEFINITION. The flags of the block and the registers the host reads (10_state.md R22, R23). No operation on data sets
a condition code (R22): BUSY, DONE, ERR and MODE are written by START, completion, errors and reset only. -/

namespace Sys2Proof.Machine

/-- The code of an error in ERR (60_exceptions.md R190). -/
def ErrCode.number : ErrCode → Nat
  | .none => 0
  | .truncatedStream => 1
  | .corruptStream => 2
  | .capacityExceeded => 3
  | .ioFailure => 4

/-- The value of MODE (R21). -/
def Mode.number : Mode → Nat
  | .idle => 0
  | .comp => 1
  | .decomp => 2

/-- STATUS (R23): bit 0 BUSY, bit 1 DONE, bits 4:2 ERR, bits 6:5 MODE, bit 7 reads 0. -/
def statusByte (s : State) : Byte :=
  BitVec.ofNat 8 (s.busy.toNat + 2 * s.done.toNat + 4 * s.err.number + 32 * s.mode.number)

/-- What a read of a register answers (R23): CTRL reads as 0, the configuration registers are constants. -/
def readReg (r : Reg) (s : State) : Nat :=
  match r with
  | .ctrl => 0
  | .status => (statusByte s).toNat
  | .cfgWindow => s.cfg.windowSize
  | .cfgLookahead => s.cfg.lookaheadSize
  | .cfgChunk => s.cfg.chunkCap
  | .cfgRing => s.cfg.ringCap
  | .cfgBatch => s.cfg.batchCap

end Sys2Proof.Machine
end

