-- ==== Sys2Proof/Machine/Turns.lean ====
section
/-! DEFINITION. Whose turn it is and what it does: the host's moves (60_exceptions.md R207) and one step of the active
pipeline (42_compress.md R140, 43_decompress.md R160). -/

namespace Sys2Proof.Machine

/-- The meaning of a Code taken from BATCH (R163): that of its instruction; a Code longer than 7, which exists only for
LOOKAHEAD_SIZE > 8 and has no row in the opcode table, is the same copy (log entry 16). -/
def execCode (c : Code) (s : State) : Host.Outcome State Fault Refusal :=
  match Instr.ofCode c with
  | some i => exec i s
  | none => (applyCopy c.off c.len c.lit s).toOutcome

/-- One pass of the loop of APPLY_BATCH (R163): the Code BATCH[i] is executed, i moved on before it; after the last Code
the loop of DECOMPRESS goes on (R160). -/
def applyStep (s : State) : Host.Outcome State Fault Refusal :=
  if s.aidx < s.bcnt then
    match batchRead s.aidx s with
    | .ok c => execCode c { s with aidx := s.aidx + 1 }
    | .wait t => .next t
    | .raise e t => .next (raiseError e t)
    | .fault f => .fault f
    | .refuse r => .refused r
  else .next (batchEnd s)

/-- One step of DECOMPRESS (R160). -/
def decompressStep (s : State) : Host.Outcome State Fault Refusal :=
  match s.dphase with
  | .decode got => (decodeStep got s).toOutcome
  | .apply => applyStep s
  | .ringFlush i acts => (flushStep i acts s).toOutcome
  | .final i => (finalStep i s).toOutcome

/-- The block's turn: nothing while MODE = IDLE (10_state.md R38, R221), else one step of the active pipeline. A pipeline
under parameters that are not legal is refused (00_scope.md R4, R6; U1, U2). -/
def blockTurn (s : State) : Host.Outcome State Fault Refusal :=
  match s.mode with
  | .idle => .next s
  | .comp => if s.cfg.Legal then (compressStep s).toOutcome else .refused .illegalParameters
  | .decomp => if s.cfg.Legal then decompressStep s else .refused .illegalParameters

/-- A write of a register (R23): CTRL with bit 0 = 1 is a START; every other write is ignored. -/
def writeReg (r : Reg) (v : Byte) (s : State) : Host.Outcome State Fault Refusal :=
  match r with
  | .ctrl =>
    match decodeCtrl v with
    | some i => exec i s
    | none => .next s
  | .status => .next s
  | .cfgWindow => .next s
  | .cfgLookahead => .next s
  | .cfgChunk => .next s
  | .cfgRing => .next s
  | .cfgBatch => .next s

/-- The host's turn (R207). A move after the end mark is refused (U19; log entry 26); a connect in mid-operation is a DESIGN CHOICE
(log entry 10). -/
def hostTurn (e : HostEvent) (s : State) : Host.Outcome State Fault Refusal :=
  match e with
  | .reset => .next (resetBlock s)
  | .write r v => writeReg r v s
  | .read r => .next { s with reads := s.reads ++ [readReg r s] }
  | .giveSrc a => giveSource a s
  | .giveSnk a => .next { s with snkAns := s.snkAns ++ [a] }
  | .connect src ans => connectStreams src ans s

/-- One turn: the next one listed; when none is listed, the block's (log entry 3). -/
def takeTurn (s : State) : Host.Outcome State Fault Refusal :=
  match s.script with
  | [] => blockTurn s
  | .block :: rest => blockTurn { s with script := rest }
  | .host e :: rest => hostTurn e { s with script := rest }

/-- The instruction the next turn runs, if it runs one: the START of a CTRL write (R205), or the Code the apply phase
takes from BATCH (R163). -/
def nextInstr (s : State) : Option Instr :=
  match s.script with
  | .host (.write .ctrl v) :: _ => decodeCtrl v
  | .host _ :: _ => none
  | _ =>
    if s.mode = .decomp ∧ s.dphase = .apply ∧ s.aidx < s.bcnt ∧ s.aidx < s.cfg.batchCap then
      (memGet s.batch s.aidx).bind Instr.ofCode
    else none

end Sys2Proof.Machine
end

