-- ==== Sys2Proof/Machine/Step.lean ====
section
/-! DEFINITION. One step of the machine, and the placing of one instruction where the next step takes it. -/

namespace Sys2Proof.Machine

/-- One step: one turn of the host or of the block. -/
def step (s : State) : Host.Outcome State Fault Refusal := takeTurn s

/-- `s` with the instruction of a word of the opcode table where the next step takes its instruction (log entry 6). A CTRL
byte becomes the host's next turn. A Code becomes BATCH[0] of a batch of one, decoded and about to be applied (R163):
that is where the apply phase takes its instructions, so MODE, BUSY, BCNT and the control point are set with it. A word
that is no instruction changes nothing. -/
def State.withFetchWord (s : State) (nbits w : Nat) : State :=
  match decodeTableWord nbits w with
  | none => s
  | some i =>
    match Instr.toCode i with
    | none => { s with script := .host (.write .ctrl (BitVec.ofNat 8 w)) :: s.script }
    | some c =>
      { s with
        mode := .decomp, busy := true, bcnt := 1, batch := memSet s.batch 0 c
        dphase := .apply, aidx := 0, script := .block :: s.script }

end Sys2Proof.Machine
end

