-- ==== Sys2Proof/Safety.lean ====
section
/-! DEFINITION. The terms in which claims are stated: the invariant of the machine (the domains of 10_state.md R20, R24 to
R31 and R34), what a state stands for as bits and bytes (R27, 40_bitcodec.md R105, R106, 43_decompress.md R170), what an
operation leaves unchanged (R38), and a port that answers Ok. -/

namespace Sys2Proof.Machine

/-! ### The invariant -/

/-- The control flags agree (R21, R22): BUSY exactly while a pipeline is active, DONE and ERR only while none is, and never
both. -/
abbrev FlagsInv (s : State) : Prop :=
  (s.busy = true ↔ s.mode ≠ .idle) ∧ (s.done = true → s.mode = .idle) ∧
  (s.err ≠ .none → s.mode = .idle) ∧ (s.done = true → s.err = .none)

/-- Every buffer is in its canonical form. -/
abbrev BuffersWf (s : State) : Prop := Memory.wf s.chunk ∧ Memory.wf s.ring ∧ Memory.wf s.batch

/-- The control point of the compressor: what R140 to R146 guarantee there. -/
def CPhaseInv (s : State) : Prop :=
  match s.cphase with
  | .load => s.fill ≤ 7
  | .scan => s.fill ≤ 7
  | .emit _ => s.fill = 8 ∧ s.pos + s.creg.len + 1 ≤ s.clen
  | .flush => s.fill ≤ 7

/-- What holds while MODE = COMP (R20, R24, R26, R34): the cursors are in their domains, the Window is what R26 says, every
entry below CLEN holds a value, and the bits of ACC below the pending ones are zero. -/
def CompInv (s : State) : Prop :=
  s.clen ≤ s.cfg.chunkCap ∧ s.pos ≤ s.clen ∧ s.wstart = s.pos - s.cfg.windowSize ∧
  (∀ i, i < s.clen → (memGet s.chunk i).isSome) ∧
  (∀ j, j < 8 - s.fill → s.acc.getLsbD j = false) ∧ CPhaseInv s

/-- A byte still to be appended is a literal or reads at a distance 1..WINDOW_SIZE (R165). -/
def ActValid (p : Params) : Act → Prop
  | .copy off => 1 ≤ off ∧ off ≤ p.windowSize
  | .lit _ => True

/-- The control point of the decompressor: what R160 to R168 guarantee there. -/
def DPhaseInv (s : State) : Prop :=
  match s.dphase with
  | .decode got =>
    s.wp < s.cfg.ringCap ∧ s.eos = false ∧ s.bcnt < s.cfg.batchCap ∧
    ∀ c rest, decodeCode s.cfg got ≠ .code c rest
  | .apply => s.wp < s.cfg.ringCap ∧ s.aidx ≤ s.bcnt
  | .ringFlush i acts =>
    s.wp = s.cfg.ringCap ∧ s.fbase ≤ i ∧ i < s.cfg.ringCap ∧ s.aidx ≤ s.bcnt ∧ ∀ a ∈ acts, ActValid s.cfg a
  | .final i => s.wp < s.cfg.ringCap ∧ s.fbase ≤ i ∧ i ≤ s.wp ∧ s.eos = true

/-- What holds while MODE = DECOMP (R20, R24, R28, R31, R34): the cursors are in their domains, every entry of RING below WP
and of BATCH below BCNT holds a value, and the latter are Codes. -/
def DecompInv (s : State) : Prop :=
  s.fill ≤ 8 ∧ s.wp ≤ s.cfg.ringCap ∧ s.fbase ≤ s.wp ∧ (s.fbase = 0 ∨ s.fbase = s.cfg.windowSize) ∧
  (∀ i, i < s.wp → (memGet s.ring i).isSome) ∧ s.bcnt ≤ s.cfg.batchCap ∧
  (∀ i, i < s.bcnt → ∃ c, memGet s.batch i = some c ∧ Code.Valid s.cfg c) ∧ DPhaseInv s

/-- The invariant of the machine. While MODE = IDLE it says nothing of the working registers, which hold any value after an
error (60_exceptions.md R197). -/
def Inv (s : State) : Prop :=
  s.cfg.Legal ∧ FlagsInv s ∧ BuffersWf s ∧ (s.mode = .comp → CompInv s) ∧ (s.mode = .decomp → DecompInv s)

/-- The host's part of the invariant (R207, 93_implementation_defined.md U19): in SRC nothing stands after the end mark, and an end
mark that stands there has been given. -/
abbrev SourceInv (s : State) : Prop := .eof ∉ s.src.dropLast ∧ (.eof ∈ s.src → s.endGiven = true)

/-! ### What a state stands for -/

/-- The position in the compressed stream of the next bit to be decoded (R27): 8 × n − FILL. -/
def bitPosition (s : State) : Nat := 8 * s.taken - s.fill

/-- The bytes the source answers before its first other answer. -/
def leadingBytes : List SrcAnswer → List Byte
  | .byte b :: rest => b :: leadingBytes rest
  | _ => []

/-- The bits the decoder has not taken yet (R24, R51): the unconsumed bits of ACC, then those of the bytes the source
answers next. -/
def unreadBits (s : State) : List Bool := bitsOf s.fill s.acc.toNat ++ streamBits (leadingBytes s.src)

/-- The bits the compressor has put since `SNK` was `base` (R24, R105): those of the bytes sent, then the pending ones. -/
def putSoFar (s : State) : List Bool := streamBits s.snk ++ (byteBits s.acc).take s.fill

/-- The bytes RING[i .. i + n − 1]; an entry without a value ends the list. -/
def ringSlice (s : State) (i : Nat) : Nat → List Byte
  | 0 => []
  | n + 1 =>
    match memGet s.ring i with
    | some b => b :: ringSlice s (i + 1) n
    | none => []

/-- The bytes a copy may refer to: RING[0 .. WP − 1] (R169). -/
def window (s : State) : List Byte := ringSlice s 0 s.wp

/-- The index of the first byte of RING not yet sent: FBASE, or inside a flush the byte that waits to be sent (R28, R167,
R168). -/
def sendFrom (s : State) : Nat :=
  match s.dphase with
  | .ringFlush i _ => i
  | .final i => i
  | .decode _ => s.fbase
  | .apply => s.fbase

/-- The bytes decoded and not yet sent (R28, R33 (c)): RING[FBASE .. WP − 1] outside a flush. -/
def unflushed (s : State) : List Byte := ringSlice s (sendFrom s) (s.wp - sendFrom s)

/-- All bytes the decompressor has put out: those in SNK, then those not yet sent (R170). -/
def outBytes (s : State) : List Byte := s.snk ++ unflushed s

/-- One byte of a copy appended to an output (R170): OUT[|OUT| − off], if it is there. -/
def copyByte (out : List Byte) (off : Nat) : List Byte :=
  match out[out.length - off]? with
  | some b => [b]
  | none => []

/-- `n` bytes of a copy appended to an output one at a time, each from the already extended output (R170, R61). -/
def copyOut (off : Nat) : Nat → List Byte → List Byte
  | 0, out => out
  | n + 1, out => copyOut off n (out ++ copyByte out off)

/-- What applying a Code makes of the output (R170). -/
def applyToOutput (c : Code) (out : List Byte) : List Byte := copyOut c.off c.len out ++ [c.lit]

/-- What the bytes a Code still appends make of the output (R164, R165, R170), one at a time. -/
def applyActs : List Act → List Byte → List Byte
  | [], out => out
  | .copy off :: acts, out => applyActs acts (out ++ copyByte out off)
  | .lit c :: acts, out => applyActs acts (out ++ [c])

/-- The bytes a Code stands for at CHUNK[POS] (42_compress.md R148): CHUNK[POS .. POS + len]. -/
def CodeStandsFor (s : State) (c : Code) : Prop :=
  s.pos + c.len < s.clen ∧ memGet s.chunk (s.pos + c.len) = some c.lit ∧
  c.off ≤ s.pos - s.wstart ∧
  ∀ k, k < c.len → ∃ b, memGet s.chunk (s.pos - c.off + k) = some b ∧ memGet s.chunk (s.pos + k) = some b

/-- Candidate `d` agrees with the Lookahead in exactly `k` bytes (41_matchfinder.md R121): the first `k` bytes agree, and
`k` is MAX_MATCH or the next byte differs. -/
def Agrees (s : State) (d k : Nat) : Prop :=
  k ≤ s.cfg.maxMatch ∧ (∀ j, j < k → memGet s.chunk (s.pos - d + j) = memGet s.chunk (s.pos + j)) ∧
  (k = s.cfg.maxMatch ∨ memGet s.chunk (s.pos - d + k) ≠ memGet s.chunk (s.pos + k))

/-- The closed form of the scan (41_matchfinder.md R127): the length is the maximum over all candidates, and the offset the
largest distance that reaches it, or 0 when no candidate agrees in a byte. -/
def LongestMatch (s : State) (off len : Nat) : Prop :=
  (∀ d k, 1 ≤ d → d ≤ s.pos - s.wstart → Agrees s d k → k ≤ len) ∧
  (len = 0 → off = 0) ∧
  (1 ≤ len → 1 ≤ off ∧ off ≤ s.pos - s.wstart ∧ Agrees s off len ∧
    ∀ d k, off < d → d ≤ s.pos - s.wstart → Agrees s d k → k < len)

/-! ### Frames and ports -/

/-- The compressor's registers and CHUNK are the same (R38). -/
abbrev SameCompressor (s t : State) : Prop :=
  t.clen = s.clen ∧ t.pos = s.pos ∧ t.wstart = s.wstart ∧ t.inEof = s.inEof ∧ t.chunk = s.chunk ∧ t.cphase = s.cphase

/-- The decompressor's registers, RING and BATCH are the same (R38). -/
abbrev SameDecompressor (s t : State) : Prop :=
  t.wp = s.wp ∧ t.fbase = s.fbase ∧ t.bcnt = s.bcnt ∧ t.eos = s.eos ∧ t.ring = s.ring ∧ t.batch = s.batch ∧
  t.dphase = s.dphase ∧ t.aidx = s.aidx

/-- The status flags and the configuration registers are the same (R22, R23). -/
abbrev SameControl (s t : State) : Prop :=
  t.cfg = s.cfg ∧ t.mode = s.mode ∧ t.busy = s.busy ∧ t.done = s.done ∧ t.err = s.err

/-- The BitAccumulator and the Code register are the same (R24, R25). -/
abbrev SameCodec (s t : State) : Prop := t.acc = s.acc ∧ t.fill = s.fill ∧ t.creg = s.creg

/-- The input stream is the same, and so is what the host has given and got beside the streams. -/
abbrev SameHost (s t : State) : Prop :=
  t.src = s.src ∧ t.taken = s.taken ∧ t.endGiven = s.endGiven ∧ t.script = s.script ∧ t.reads = s.reads ∧
  t.freeCtr = s.freeCtr

/-- The host accepts the next `n` bytes. -/
abbrev SinkAccepts (n : Nat) (s : State) : Prop := s.snkAns.take n = List.replicate n .ok

/-- The next turn is a host's move that would supply an answer after the end mark (R207, U19). -/
def SuppliesAfterEnd (s : State) : Prop :=
  (∃ a rest, s.script = .host (.giveSrc a) :: rest ∧ s.endGiven = true) ∨
  (∃ src ans rest, s.script = .host (.connect src ans) :: rest ∧ .eof ∈ src.dropLast)

/-- The block has the next turn: none is listed, or the first one is the block's. -/
abbrev BlockNext (s : State) : Prop := s.script = [] ∨ s.script.head? = some .block

/-! ### Instructions and fields, for statements about all of a kind -/

/-- The seven copy instructions with the length of each (30_encoding.md R87). -/
def copyForms : List (Nat × (Nat → Byte → Instr)) :=
  [(1, .copy1), (2, .copy2), (3, .copy3), (4, .copy4), (5, .copy5), (6, .copy6), (7, .copy7)]

/-- The length of a Code in bits (R86). -/
def codeWidth (p : Params) (c : Code) : Nat :=
  if c.len = 0 then p.lenBits + litBits else p.lenBits + p.offBits + litBits

/-- ENCODE_BITS of each field in order; a field is its value and its width (40_bitcodec.md R106). -/
def encodeFields : List (Nat × Nat) → State → Res State
  | [], s => .ok s
  | f :: fs, s => (encodeBits f.1 f.2 s).andThen fun t => encodeFields fs t

/-- DECODE_BITS of each width in order (R106): the values and the bits left, if none is cut short. -/
def takeFields : List Nat → List Bool → Option (List Nat × List Bool)
  | [], bits => some ([], bits)
  | n :: ns, bits =>
    match takeField n bits with
    | .ok v rest => (takeFields ns rest).map fun r => (v :: r.1, r.2)
    | .short _ _ => none

/-- The bytes CHUNK[i .. i + n − 1]; an entry without a value ends the list. -/
def chunkSlice (s : State) (i : Nat) : Nat → List Byte
  | 0 => []
  | n + 1 =>
    match memGet s.chunk i with
    | some b => b :: chunkSlice s (i + 1) n
    | none => []

/-- What MatchFinder requires (41_matchfinder.md R120): an unread byte, CLEN within the chunk, every entry below it written,
the Window before POS. -/
structure ScanReady (s : State) : Prop where
  unread : s.pos < s.clen
  bound : s.clen ≤ s.cfg.chunkCap
  window : s.wstart = s.pos - s.cfg.windowSize
  written : ∀ i, i < s.clen → (memGet s.chunk i).isSome

/-- The decompressor is at the head of the loop of APPLY_BATCH (43_decompress.md R163) with its registers as the rules keep
them: RING below WP written, WP below RING_CAP, FBASE at most WP (10_state.md R28, R34). -/
structure ApplyReady (s : State) : Prop where
  legal : s.cfg.Legal
  room : s.wp < s.cfg.ringCap
  base : s.fbase ≤ s.wp
  written : ∀ i, i < s.wp → (memGet s.ring i).isSome

/-! ### Control points at which a pipeline stands before a stream port (70_reset_and_hazards.md R235) -/

/-- The next thing the pipeline does is `SrcRead()`: in LOAD_CHUNK with room left (42_compress.md R141), or in GET_BIT with
the read window empty and no whole Code taken (40_bitcodec.md R103). -/
def WaitsForSource (s : State) : Prop :=
  (s.mode = .comp ∧ s.cphase = .load ∧ s.clen < s.cfg.chunkCap ∧ s.inEof = false) ∨
  (s.mode = .decomp ∧ s.fill = 0 ∧ ∃ got, s.dphase = .decode got ∧ ∀ c rest, decodeCode s.cfg got ≠ .code c rest)

/-- The next thing the pipeline does is `SnkWrite`: of the full accumulator (R100), of the last partial byte (R102), of a byte
of RING in a ring flush (43_decompress.md R167) or in the final flush (R168). -/
def WaitsForSink (s : State) : Prop :=
  (s.mode = .comp ∧ s.fill = 8 ∧ ∃ rest, s.cphase = .emit rest) ∨
  (s.mode = .comp ∧ 0 < s.fill ∧ s.cphase = .flush) ∨
  (s.mode = .decomp ∧ ∃ i acts, s.dphase = .ringFlush i acts ∧ i < s.cfg.ringCap ∧ (memGet s.ring i).isSome) ∨
  (s.mode = .decomp ∧ ∃ i, s.dphase = .final i ∧ i < s.wp ∧ i < s.cfg.ringCap ∧ (memGet s.ring i).isSome)

/-- What applying a Code answers (43_decompress.md R163 to R165), with waiting told from finishing. -/
def codeRes (c : Code) (s : State) : Res State :=
  if c.len = 0 then applyLit c.lit s else applyCopy c.off c.len c.lit s

/-- What one step of DECOMPRESS answers (R160), with waiting told from finishing. -/
def decompressRes (s : State) : Res State :=
  match s.dphase with
  | .decode got => decodeStep got s
  | .apply =>
    if s.aidx < s.bcnt then (batchRead s.aidx s).andThen fun c => codeRes c { s with aidx := s.aidx + 1 }
    else .ok (batchEnd s)
  | .ringFlush i acts => flushStep i acts s
  | .final i => finalStep i s

/-- What the block's turn answers, with waiting told from finishing. -/
def turnRes (s : State) : Res State :=
  match s.mode with
  | .idle => .ok s
  | .comp => compressStep s
  | .decomp => decompressRes s

/-- The host answers more: `xs` to SrcRead and `ys` to SnkWrite, behind the answers already given (00_scope.md R8). -/
def State.answered (s : State) (xs : List SrcAnswer) (ys : List SnkAnswer) : State :=
  { s with src := s.src ++ xs, snkAns := s.snkAns ++ ys }

/-- The error entry of R196 has been taken with error `e`: the flags say so, and SNK has got nothing more. -/
abbrev Raised (e : ErrCode) (s t : State) : Prop :=
  t.err = e ∧ t.mode = .idle ∧ t.busy = false ∧ t.done = false ∧ t.snk = s.snk

/-- While a decompression runs, the bytes a copy may refer to are the last bytes of the output (43_decompress.md R167, R169). -/
def OutputInv (s : State) : Prop := s.mode = .decomp → window s <:+ outBytes s

end Sys2Proof.Machine
end

