-- ==== Sys2Proof/Certificates/Slice0/Obligations.lean ====
section
/-! DEFINITION. The statements about the model, one for the rules named in each docstring. A statement says what an instruction
or the machine does; `exec` is the meaning of an instruction, `step` one step of the machine. -/

open Sys2Proof Sys2Proof.Machine

/-! ### The wire format and CTRL (30_encoding.md, 10_state.md R23) -/

/-- A few words written out from the encodings: LIT 'a', COPY1 1 'a' (95_test_vectors.md V41), COPY3 8 'Z' (V23), COPY1 8192 'q'
(V27), COPY7 with every field bit one, and the CTRL bytes (R205, V46, V47, V49's neighbour with bit 0 clear). -/
def Obligations.DecodedWords : Prop :=
  decodeTableWord 16 0x061 = some (.lit 0x61#8) ∧
  decodeTableWord 24 0x200061 = some (.copy1 1 0x61#8) ∧
  decodeTableWord 24 0x60075A = some (.copy3 8 0x5A#8) ∧
  decodeTableWord 24 0x3FFF71 = some (.copy1 8192 0x71#8) ∧
  decodeTableWord 24 0xFFFFFF = some (.copy7 8192 0xFF#8) ∧
  decodeTableWord 8 0x01 = some .startCompress ∧
  decodeTableWord 8 0x03 = some .startDecompress ∧
  decodeTableWord 8 0x02 = none

/-- The opcode map of the reference configuration (R81, R82, R87): the LIT word is `000cccccccc`, the COPYn word
`nnnooooooooooooocccccccc` with o = offset − 1. -/
def Obligations.OpcodeMap : Prop :=
  ∀ (off : Nat) (c : Byte), 1 ≤ off → off ≤ 8192 →
    decodeTableWord 16 c.toNat = some (.lit c) ∧
    ∀ nk ∈ copyForms, decodeTableWord 24 (nk.1 * 0x200000 + (off - 1) * 0x100 + c.toNat) = some (nk.2 off c)

/-- Decoding gives back every well-formed instruction of the stream, with every operand, under every legal parameter set, and
leaves the bits after it (R81 to R85). -/
def Obligations.WireRoundTrip : Prop :=
  ∀ (p : Params) (i : Instr) (rest : List Bool), p.Legal → i.wellFormed p = true → i.toCode ≠ none →
    decodeWire p (encode p i ++ rest) = some (i, rest)

/-- CTRL (10_state.md R23, 60_exceptions.md R205): bit 0 is START, bit 1 selects the pipeline, bits 7:2 play no part. That the
bytes `encode` gives, 0x01 and 0x03, have the ignored bits zero is the model's choice (log entry 23), no rule of the spec. -/
def Obligations.CtrlByte : Prop :=
  ∀ (p : Params) (v : Byte),
    (v.getLsbD 0 = false → decodeCtrl v = none) ∧
    (v.getLsbD 0 = true → v.getLsbD 1 = false → decodeCtrl v = some .startCompress) ∧
    (v.getLsbD 0 = true → v.getLsbD 1 = true → decodeCtrl v = some .startDecompress) ∧
    encode p .startCompress = [false, false, false, false, false, false, false, true] ∧
    encode p .startDecompress = [false, false, false, false, false, false, true, true]

/-- DECODE_CODE answers a Code exactly when the bits begin with the encoding of a Code that satisfies the invariant of R9; the
Code and the bits after it are then unique (R81 to R85, R88). -/
def Obligations.DecodeExact : Prop :=
  ∀ (p : Params) (bits rest : List Bool) (c : Code), p.Legal →
    (decodeCode p bits = .code c rest ↔ Code.Valid p c ∧ bits = encodeCode p c ++ rest)

/-- No bit pattern is illegal (R88): LEN_BITS + 8 bits that begin with a zero length, and any LEN_BITS + OFF_BITS + 8 bits,
decode to a Code that satisfies the invariant of R9. -/
def Obligations.NoIllegalPattern : Prop :=
  ∀ (p : Params) (bits : List Bool), p.Legal →
    (p.lenBits + 8 ≤ bits.length → (∀ b ∈ bits.take p.lenBits, b = false) →
      ∃ c rest, decodeCode p bits = .code c rest ∧ c.len = 0 ∧ Code.Valid p c) ∧
    (p.lenBits + p.offBits + 8 ≤ bits.length → ∃ c rest, decodeCode p bits = .code c rest ∧ Code.Valid p c)

/-- The first field tells the length of a Code, and the next Code starts at the bit after the last bit of the literal (R86). -/
def Obligations.CodeLength : Prop :=
  ∀ (p : Params) (bits rest : List Bool) (c : Code), p.Legal → decodeCode p bits = .code c rest →
    ((∀ b ∈ bits.take p.lenBits, b = false) → p.lenBits + 8 ≤ bits.length ∧ rest = bits.drop (p.lenBits + 8)) ∧
    ((∃ b ∈ bits.take p.lenBits, b = true) →
      p.lenBits + p.offBits + 8 ≤ bits.length ∧ rest = bits.drop (p.lenBits + p.offBits + 8))

/-- The end of the stream is judged over the whole Code (43_decompress.md R161, 60_exceptions.md R191): clean when at most 7
bits of it are there and all are zero; otherwise, when they are no whole Code, TruncatedStream. -/
def Obligations.StreamEndRule : Prop :=
  ∀ (p : Params) (bits : List Bool), p.Legal →
    (decodeCode p bits = .endOfStream ↔ bits.length ≤ 7 ∧ ∀ b ∈ bits, b = false) ∧
    (decodeCode p bits = .truncated ↔
      (8 ≤ bits.length ∨ ∃ b ∈ bits, b = true) ∧ ∀ c rest, decodeCode p bits ≠ .code c rest)

/-! ### BitCodec (40_bitcodec.md) -/

/-- PUT_BIT (R100): the bit goes to ACC[7 − FILL]; the eighth sends the byte and empties the accumulator; a sink that fails is
IOFailure. That the byte whose SnkWrite failed is not in SNK is the model's choice (log entry 11, U16). -/
def Obligations.PutBit : Prop :=
  ∀ (b : Bool) (s : State), s.fill ≤ 7 → ∃ a : Byte,
    (∀ j, j < 8 → a.getLsbD j = if j = 7 - s.fill then b else s.acc.getLsbD j) ∧
    (s.fill < 7 → putBit b s = .ok { s with acc := a, fill := s.fill + 1 }) ∧
    (s.fill = 7 → ∀ rest, s.snkAns = .ok :: rest →
      putBit b s = .ok { s with acc := 0#8, fill := 0, snk := s.snk ++ [a], snkAns := rest }) ∧
    (s.fill = 7 → ∀ rest, s.snkAns = .fail :: rest →
      putBit b s = .raise .ioFailure { s with acc := a, fill := 8, snkAns := rest })

/-- ENCODE_BITS(v, n) (R101, R105): it puts exactly the n bits of v, most significant first, sends floor((FILL + n) / 8) bytes
and leaves FILL = (FILL + n) mod 8; a value that does not fit is refused. -/
def Obligations.EncodeBits : Prop :=
  ∀ (v n : Nat) (s : State),
    (v < 2 ^ n → s.fill ≤ 7 → SinkAccepts ((s.fill + n) / 8) s → ∃ t, encodeBits v n s = .ok t ∧
      putSoFar t = putSoFar s ++ bitsOf n v ∧ t.snk.length = s.snk.length + (s.fill + n) / 8 ∧
      t.fill = (s.fill + n) % 8 ∧ t.snkAns = s.snkAns.drop ((s.fill + n) / 8)) ∧
    (2 ^ n ≤ v → encodeBits v n s = .refuse .valueTooWide)

/-- FLUSH_BITS (R102): nothing when FILL = 0; otherwise one byte whose top FILL bits are the pending ones and whose other bits
are zero, and the accumulator is empty; a sink that fails is IOFailure. That the byte whose SnkWrite failed is not in SNK is the
model's choice (log entry 11, U16). -/
def Obligations.FlushBits : Prop :=
  ∀ s : State,
    (s.fill = 0 → flushBits s = .ok s) ∧
    (0 < s.fill → s.fill ≤ 7 → (∀ j, j < 8 - s.fill → s.acc.getLsbD j = false) → ∀ rest, s.snkAns = .ok :: rest →
      flushBits s = .ok { s with acc := 0#8, fill := 0, snk := s.snk ++ [s.acc], snkAns := rest } ∧
      streamBits (s.snk ++ [s.acc]) = putSoFar s ++ List.replicate (8 - s.fill) false) ∧
    (0 < s.fill → ∀ rest, s.snkAns = .fail :: rest → flushBits s = .raise .ioFailure { s with snkAns := rest })

/-- GET_BIT (R103): it delivers ACC[FILL − 1]; an empty window is refilled by one byte first; the end mark is answered with
Exhausted and leaves ACC and FILL; a source that fails is IOFailure. -/
def Obligations.GetBit : Prop :=
  ∀ (s : State) (x : Byte) (rest : List SrcAnswer),
    (1 ≤ s.fill → s.fill ≤ 8 → getBit s = .ok (some (s.acc.getLsbD (s.fill - 1)), { s with fill := s.fill - 1 })) ∧
    (s.fill = 0 → s.src = .byte x :: rest →
      getBit s = .ok (some (x.getLsbD 7), { s with acc := x, fill := 7, src := rest, taken := s.taken + 1 })) ∧
    (s.fill = 0 → s.src = .eof :: rest → getBit s = .ok (none, { s with src := rest })) ∧
    (s.fill = 0 → s.src = .fail :: rest → getBit s = .raise .ioFailure { s with src := rest })

/-- Bits are delivered in the order of the stream, bit 7 of a byte first (20_memory.md R51), and each one moves the position
8 × n − FILL in the stream on by one (10_state.md R27). -/
def Obligations.BitsInOrder : Prop :=
  ∀ s : State, s.fill ≤ 8 → unreadBits s ≠ [] → ∃ b t, getBit s = .ok (some b, t) ∧
    unreadBits s = b :: unreadBits t ∧ t.fill ≤ 8 ∧ 8 * t.taken + s.fill = 8 * s.taken + t.fill + 1

/-- The lossless law (R106): fields written from an empty accumulator and flushed come back in order from the bytes sent,
followed by the padding, fewer than 8 zero bits. -/
def Obligations.LosslessFields : Prop :=
  ∀ (fs : List (Nat × Nat)) (s : State), (∀ f ∈ fs, f.1 < 2 ^ f.2) → s.acc = 0#8 → s.fill = 0 →
    SinkAccepts (((fs.map Prod.snd).sum + 7) / 8) s →
    ∃ (t : State) (sent : List Byte), (encodeFields fs s).andThen flushBits = .ok t ∧ t.snk = s.snk ++ sent ∧
      takeFields (fs.map Prod.snd) (streamBits sent) =
        some (fs.map Prod.fst, List.replicate ((8 - (fs.map Prod.snd).sum % 8) % 8) false)

/-! ### MatchFinder (41_matchfinder.md) -/

/-- The closed form of the scan (R127): the length is the maximum of the candidates' lengths, the offset the largest distance
that reaches it (0 when none agrees), the literal CHUNK[POS + length]. -/
def Obligations.ScanClosedForm : Prop :=
  ∀ s : State, s.cfg.Legal → ScanReady s → s.cfg.lookaheadSize + 1 ≤ s.clen - s.pos →
    ∃ c, findLongestMatch s = .ok c ∧ LongestMatch s c.off c.len ∧ memGet s.chunk (s.pos + c.len) = some c.lit

/-- Near the end of the chunk no candidate is examined (R125): with at most LOOKAHEAD_SIZE unread bytes the result is the
literal Code of CHUNK[POS], whatever the Window holds. -/
def Obligations.NearEndLiteral : Prop :=
  ∀ (s : State) (b : Byte), s.clen - s.pos ≤ s.cfg.lookaheadSize → s.pos < s.cfg.chunkCap →
    memGet s.chunk s.pos = some b → findLongestMatch s = .ok { off := 0, len := 0, lit := b }

/-- FIND_LONGEST_MATCH always answers; its Code satisfies the invariant of R9 with length at most MAX_MATCH (R129), stands for
the next bytes of the chunk (42_compress.md R148), and when the scan runs its literal is read at most at CLEN − 2 (R128). -/
def Obligations.MatchInRange : Prop :=
  ∀ s : State, s.cfg.Legal → ScanReady s → ∃ c, findLongestMatch s = .ok c ∧ Code.Valid s.cfg c ∧ CodeStandsFor s c ∧
    (s.cfg.lookaheadSize + 1 ≤ s.clen - s.pos → s.pos + c.len + 2 ≤ s.clen)

/-! ### StreamCompressor (42_compress.md) -/

/-- ADVANCE (R145): POS moves on by C_LEN + 1 and WSTART is max(0, POS − WINDOW_SIZE) with the new POS. -/
def Obligations.Advance : Prop :=
  ∀ s : State, s.pos + s.creg.len + 1 ≤ s.clen →
    ∃ t, advance s = .ok t ∧ t.pos = s.pos + s.creg.len + 1 ∧ t.wstart = max 0 (t.pos - s.cfg.windowSize) ∧
      t = { s with pos := t.pos, wstart := t.wstart, cphase := .scan }

/-- LOAD_CHUNK and the chunk restart (R141, R142), from its beginning (CLEN = 0) or going on after it waited
(70_reset_and_hazards.md R235): behind the bytes already loaded the chunk is filled to CHUNK_CAP unless the end mark comes
first; Window and Lookahead restart at its beginning; the accumulator carries over. An empty chunk ends the outer loop (R140).
Where the source answers neither enough bytes nor the end mark, the bytes given are loaded and LOAD_CHUNK waits. -/
def Obligations.LoadChunk : Prop :=
  ∀ (s : State) (bs : List Byte) (rest : List SrcAnswer), s.cphase = .load → s.inEof = false →
    s.src = bs.map .byte ++ rest →
    ((s.clen + bs.length = s.cfg.chunkCap ∨ (s.clen + bs.length < s.cfg.chunkCap ∧ rest.head? = some .eof)) →
      ∃ t, compressStep s = .ok t ∧ t.clen = s.clen + bs.length ∧
        (∀ i, i < s.clen → memGet t.chunk i = memGet s.chunk i) ∧
        (∀ i, i < bs.length → memGet t.chunk (s.clen + i) = bs[i]?) ∧
        t.inEof = decide (t.clen < s.cfg.chunkCap) ∧
        t.src = (if t.clen < s.cfg.chunkCap then rest.tail else rest) ∧ t.taken = s.taken + bs.length ∧
        t.acc = s.acc ∧ t.fill = s.fill ∧ t.snk = s.snk ∧ t.cfg = s.cfg ∧
        (t.clen = 0 → t.cphase = .flush) ∧ (t.clen ≠ 0 → t.pos = 0 ∧ t.wstart = 0 ∧ t.cphase = .scan)) ∧
    (s.clen + bs.length < s.cfg.chunkCap → rest = [] →
      ∃ t, compressStep s = .wait t ∧ (∀ i, i < s.clen → memGet t.chunk i = memGet s.chunk i) ∧
        (∀ i, i < bs.length → memGet t.chunk (s.clen + i) = bs[i]?) ∧
        t = { s with chunk := t.chunk, clen := s.clen + bs.length, src := [], taken := s.taken + bs.length })

/-- One pass of the inner loop (R140, R143 to R145, R148): with an unread byte and a sink that accepts, the Code is the one
FIND_LONGEST_MATCH answers, exactly its bits are put, it stands for the chunk's bytes from POS on, and POS moves behind them.
Where EMIT_CODE was blocked with bits left to put (70_reset_and_hazards.md R235), exactly these are put and ADVANCE follows. -/
def Obligations.EmitsOneCode : Prop :=
  ∀ s : State, s.cfg.Legal → CompInv s →
    (s.cphase = .scan → s.pos < s.clen → SinkAccepts ((s.fill + s.cfg.maxCodeBits) / 8) s →
      ∃ c t, findLongestMatch s = .ok c ∧ compressStep s = .ok t ∧ t.creg = c ∧ Code.Valid s.cfg c ∧ CodeStandsFor s c ∧
        putSoFar t = putSoFar s ++ encodeCode s.cfg c ∧ t.pos = s.pos + c.len + 1 ∧
        t.wstart = t.pos - s.cfg.windowSize ∧ t.cphase = .scan ∧ t.chunk = s.chunk ∧ t.clen = s.clen ∧
        t.src = s.src ∧ t.inEof = s.inEof ∧ CompInv t) ∧
    (∀ rest, s.cphase = .emit rest → SinkAccepts ((s.fill + rest.length) / 8) s →
      ∃ t, compressStep s = .ok t ∧ t.creg = s.creg ∧ putSoFar t = putSoFar s ++ rest ∧ t.pos = s.pos + s.creg.len + 1 ∧
        t.wstart = t.pos - s.cfg.windowSize ∧ t.cphase = .scan ∧ t.chunk = s.chunk ∧ t.clen = s.clen ∧
        t.src = s.src ∧ t.inEof = s.inEof ∧ CompInv t)

/-- The inner loop ends with POS = CLEN (R143); then the outer loop ends when IN_EOF = 1, else the next chunk is loaded
(R140). That CLEN, POS and WSTART become 0 in the same step is the model's choice (log entry 22). -/
def Obligations.ScanLoopEnd : Prop :=
  ∀ s : State, s.cphase = .scan → s.clen ≤ s.pos →
    (s.inEof = true → compressStep s = .ok { s with cphase := .flush }) ∧
    (s.inEof = false → compressStep s = .ok { s with clen := 0, pos := 0, wstart := 0, cphase := .load })

/-- The end of a compression (R146, 60_exceptions.md R206): the pending bits are sent in one zero-padded byte, if there are
any, and the operation completes. -/
def Obligations.CompressEnds : Prop :=
  ∀ s : State, s.cphase = .flush → s.fill ≤ 7 → (∀ j, j < 8 - s.fill → s.acc.getLsbD j = false) →
    (0 < s.fill → s.snkAns.head? = some .ok) →
    ∃ t, compressStep s = .ok t ∧ t.done = true ∧ t.busy = false ∧ t.mode = .idle ∧ t.err = s.err ∧ t.fill = 0 ∧
      streamBits t.snk = putSoFar s ++ List.replicate ((8 - s.fill) % 8) false

/-- What a Code of the compressor stands for is what applying it restores (R148, 43_decompress.md R170): on an output that ends
with the chunk's bytes before POS it appends CHUNK[POS .. POS + length]. -/
def Obligations.CodeRestoresChunk : Prop :=
  ∀ (s : State) (c : Code) (out : List Byte), ScanReady s → Code.Valid s.cfg c → CodeStandsFor s c →
    chunkSlice s 0 s.pos <:+ out → applyToOutput c out = out ++ chunkSlice s s.pos (c.len + 1)

/-! ### StreamDecompressor (43_decompress.md) -/

/-- LIT c where no flush falls due (R164, R166): it completes from every state with room; RING[WP] is c, WP moves on by one,
every other entry of RING and every other register is unchanged. -/
def Obligations.LitAppends : Prop :=
  ∀ (s : State) (c : Byte), s.wp + 1 < s.cfg.ringCap →
    ∃ t, exec (.lit c) s = .next t ∧ memGet t.ring s.wp = some c ∧ (∀ i, i ≠ s.wp → memGet t.ring i = memGet s.ring i) ∧
      t = { s with ring := t.ring, wp := s.wp + 1, dphase := .apply }

/-- LIT c that fills the buffer (R164, R166, R167): the bytes not yet sent go to the sink, the last one c; the first
WINDOW_SIZE entries become the last WINDOW_SIZE bytes, the others stay; WP = FBASE = WINDOW_SIZE. -/
def Obligations.LitFlushes : Prop :=
  ∀ (s : State) (c : Byte), ApplyReady s → s.wp + 1 = s.cfg.ringCap → SinkAccepts (s.cfg.ringCap - s.fbase) s →
    ∃ t, exec (.lit c) s = .next t ∧ t.snk = s.snk ++ ringSlice s s.fbase (s.wp - s.fbase) ++ [c] ∧
      t.wp = s.cfg.windowSize ∧ t.fbase = s.cfg.windowSize ∧
      (∀ j, j + 1 < s.cfg.windowSize →
        memGet t.ring j = memGet s.ring (s.cfg.ringCap - s.cfg.windowSize + j)) ∧
      memGet t.ring (s.cfg.windowSize - 1) = some c ∧
      (∀ j, s.cfg.windowSize ≤ j → j < s.wp → memGet t.ring j = memGet s.ring j) ∧
      t.dphase = .apply ∧ t.snkAns = s.snkAns.drop (s.cfg.ringCap - s.fbase)

/-- COPY1 to COPY7 where no flush falls due (R165, R166, 20_memory.md R61): each completes; entry WP + k is entry WP − off + k,
read after the writes before it, for k below n, then the literal; WP moves on by n + 1; nothing else changes. -/
def Obligations.CopyAppends : Prop :=
  ∀ (s : State) (off : Nat) (c : Byte), ∀ nk ∈ copyForms, CopyOperands s.cfg off nk.1 → off ≤ s.wp →
    s.wp + nk.1 + 1 < s.cfg.ringCap → (∀ i, s.wp - off ≤ i → i < s.wp → (memGet s.ring i).isSome) →
    ∃ t, exec (nk.2 off c) s = .next t ∧
      (∀ k, k < nk.1 → memGet t.ring (s.wp + k) = memGet t.ring (s.wp - off + k)) ∧
      memGet t.ring (s.wp + nk.1) = some c ∧
      (∀ i, i < s.wp ∨ s.wp + nk.1 < i → memGet t.ring i = memGet s.ring i) ∧
      t = { s with ring := t.ring, wp := s.wp + nk.1 + 1, dphase := .apply }

/-- The logical output (R170), with or without a ring flush inside: from a state whose RING holds the last bytes of the output
each of LIT and COPY1 to COPY7 completes, makes of the output what R170 says, and leaves such a state (R167: a flush inside
a copy changes nothing of it). Where a flush inside a Code was blocked (70_reset_and_hazards.md R235), the flush goes on and then
exactly the bytes the Code has left are appended, one at a time. -/
def Obligations.LogicalOutput : Prop :=
  (∀ (s : State) (i : Instr) (c : Code), ApplyReady s → s.dphase = .apply → window s <:+ outBytes s →
    i.wellFormed s.cfg = true → i.toCode = some c → c.off ≤ s.wp →
    SinkAccepts (s.wp - s.fbase + c.len + 1) s →
    ∃ t, exec i s = .next t ∧ outBytes t = applyToOutput c (outBytes s) ∧ window t <:+ outBytes t ∧ ApplyReady t ∧
      t.dphase = .apply) ∧
  (∀ (s : State) (i : Nat) (acts : List Act), s.cfg.Legal → s.dphase = .ringFlush i acts → s.wp = s.cfg.ringCap → i < s.wp →
    (∀ j, j < s.wp → (memGet s.ring j).isSome) → (∀ a ∈ acts, ActValid s.cfg a) → window s <:+ outBytes s →
    SinkAccepts (s.wp - i + acts.length) s →
    ∃ t, decompressStep s = .next t ∧ outBytes t = applyActs acts (outBytes s) ∧ window t <:+ outBytes t ∧ ApplyReady t ∧
      t.dphase = .apply)

/-- CorruptStream (R169, R165, 60_exceptions.md R192, R196): a copy whose offset is larger than WP raises it in the state it
began in, so before anything is written or sent; no other copy raises it. -/
def Obligations.CorruptOffset : Prop :=
  ∀ (s : State) (off : Nat) (c : Byte), ∀ nk ∈ copyForms, CopyOperands s.cfg off nk.1 →
    (s.wp < off → applyCopy off nk.1 c s = .raise .corruptStream s ∧
      ∃ t, exec (nk.2 off c) s = .next t ∧ Raised .corruptStream s t ∧ t.src = s.src) ∧
    (off ≤ s.wp → s.err ≠ .corruptStream → ∀ t, exec (nk.2 off c) s = .next t → t.err ≠ .corruptStream)

/-- Operands that no Code has are refused by name: the model's choice (log entry 13), for no bit pattern decodes to them
(30_encoding.md R88). -/
def Obligations.OperandsOfNoCode : Prop :=
  ∀ (s : State) (off : Nat) (c : Byte), ∀ nk ∈ copyForms, ¬ CopyOperands s.cfg off nk.1 →
    exec (nk.2 off c) s = .refused .notACode

/-- RING_FLUSH (R167) of a full buffer: RING[FBASE .. RING_CAP − 1] is sent in order, the last WINDOW_SIZE entries are copied to
the first, nothing else of RING changes, WP and FBASE become WINDOW_SIZE. -/
def Obligations.RingFlush : Prop :=
  ∀ (s : State) (acts : List Act), s.cfg.Legal → s.wp = s.cfg.ringCap → s.fbase ≤ s.wp →
    (∀ i, i < s.wp → (memGet s.ring i).isSome) → SinkAccepts (s.cfg.ringCap - s.fbase) s →
    ∃ t, ringFlushFrom s.fbase acts s = .ok t ∧ t.snk = s.snk ++ ringSlice s s.fbase (s.cfg.ringCap - s.fbase) ∧
      (∀ j, j < s.cfg.windowSize → memGet t.ring j = memGet s.ring (s.cfg.ringCap - s.cfg.windowSize + j)) ∧
      (∀ j, s.cfg.windowSize ≤ j → memGet t.ring j = memGet s.ring j) ∧
      t.wp = s.cfg.windowSize ∧ t.fbase = s.cfg.windowSize

/-- FINAL_FLUSH and completion (R168, 60_exceptions.md R206): the bytes not yet sent are sent in order, FBASE becomes WP, and the
operation completes; SNK is then the whole output (R170). -/
def Obligations.FinalFlush : Prop :=
  ∀ (s : State) (i : Nat), s.dphase = .final i → i ≤ s.wp → s.wp ≤ s.cfg.ringCap →
    (∀ j, j < s.wp → (memGet s.ring j).isSome) → SinkAccepts (s.wp - i) s →
    ∃ t, decompressStep s = .next t ∧ t.snk = s.snk ++ ringSlice s i (s.wp - i) ∧ t.snk = outBytes s ∧ t.fbase = s.wp ∧
      t.wp = s.wp ∧ t.done = true ∧ t.busy = false ∧ t.mode = .idle ∧ t.err = s.err ∧ t.eos = s.eos

/-- One pass of the decode phase (R161, R162): when the bits taken and the bits the source still gives begin with a Code, that
Code goes to the Code register and to BATCH[BCNT], BCNT moves on by one, the position in the stream by the Code's length
(10_state.md R27, 30_encoding.md R86), and a full batch ends the phase. -/
def Obligations.DecodeStores : Prop :=
  ∀ (s : State) (got rest : List Bool) (c : Code), s.cfg.Legal → s.fill ≤ 8 → s.bcnt < s.cfg.batchCap →
    (∀ c' r, decodeCode s.cfg got ≠ .code c' r) → decodeCode s.cfg (got ++ unreadBits s) = .code c rest →
    ∃ t, decodeStep got s = .ok t ∧ t.creg = c ∧ memGet t.batch s.bcnt = some c ∧
      (∀ i, i ≠ s.bcnt → memGet t.batch i = memGet s.batch i) ∧ t.bcnt = s.bcnt + 1 ∧ unreadBits t = rest ∧ t.fill ≤ 8 ∧
      8 * t.taken + s.fill + got.length = 8 * s.taken + t.fill + codeWidth s.cfg c ∧
      (s.bcnt + 1 < s.cfg.batchCap → t.dphase = .decode []) ∧
      (s.bcnt + 1 = s.cfg.batchCap → t.dphase = .apply ∧ t.aidx = 0) ∧
      t.ring = s.ring ∧ t.wp = s.wp ∧ t.fbase = s.fbase ∧ t.snk = s.snk ∧ t.eos = s.eos

/-- The end of the source in the decode phase (R161, R162, 60_exceptions.md R191): a clean end sets EOS and starts the apply
phase; otherwise TruncatedStream is raised and nothing is sent. -/
def Obligations.DecodeEnds : Prop :=
  ∀ (s : State) (got : List Bool) (bs : List Byte) (rest : List SrcAnswer), s.cfg.Legal → s.fill ≤ 8 →
    s.src = bs.map .byte ++ .eof :: rest →
    (decodeCode s.cfg (got ++ unreadBits s) = .endOfStream →
      ∃ t, decodeStep got s = .ok t ∧ t.eos = true ∧ t.dphase = .apply ∧ t.aidx = 0 ∧ t.bcnt = s.bcnt ∧
        t.batch = s.batch ∧ t.src = rest ∧ t.fill = 0 ∧ t.snk = s.snk) ∧
    (decodeCode s.cfg (got ++ unreadBits s) = .truncated →
      ∃ t, (decodeStep got s).toOutcome = .next t ∧ Raised .truncatedStream s t ∧ t.src = rest)

/-- After the last Code of a batch (R160): the final flush when EOS = 1, else the next batch with BCNT = 0. -/
def Obligations.BatchEnds : Prop :=
  ∀ s : State, s.dphase = .apply → s.bcnt ≤ s.aidx →
    (s.eos = true → decompressStep s = .next { s with dphase := .final s.fbase }) ∧
    (s.eos = false → decompressStep s = .next { s with bcnt := 0, dphase := .decode [] })

/-- While a decompression runs its output only grows, and when it completes SNK is the whole output (R170, 20_memory.md R62). -/
def Obligations.OutputGrows : Prop :=
  ∀ s t : State, Inv s → s.mode = .decomp → blockTurn s = .next t →
    (t.mode = .decomp → outBytes s <+: outBytes t) ∧ (t.done = true → t.snk = outBytes s)

/-! ### START, errors, reset, registers (60_exceptions.md, 10_state.md) -/

/-- START with MODE_SEL = 0 while idle (R205, 10_state.md R36). That CHUNK holds no value afterwards is the model's way to treat
it as unwritten (R222, log entry 8). -/
def Obligations.StartCompress : Prop :=
  ∀ s : State, s.cfg.Legal → s.mode = .idle →
    ∃ t, exec .startCompress s = .next t ∧ t.acc = 0#8 ∧ t.fill = 0 ∧ t.err = .none ∧ t.done = false ∧ t.busy = true ∧
      t.mode = .comp ∧ t.clen = 0 ∧ t.pos = 0 ∧ t.wstart = 0 ∧ t.inEof = false ∧ t.chunk = [] ∧ t.cphase = .load ∧
      SameDecompressor s t ∧ t.cfg = s.cfg ∧ t.creg = s.creg ∧ t.src = s.src ∧ t.snk = s.snk ∧ t.snkAns = s.snkAns ∧
      t.endGiven = s.endGiven ∧ t.script = s.script ∧ t.reads = s.reads ∧ t.freeCtr = s.freeCtr

/-- START with MODE_SEL = 1 while idle (R205, R36). That RING and BATCH hold no value afterwards is the model's way to treat
them as unwritten (R222, log entry 8). -/
def Obligations.StartDecompress : Prop :=
  ∀ s : State, s.cfg.Legal → s.mode = .idle →
    ∃ t, exec .startDecompress s = .next t ∧ t.acc = 0#8 ∧ t.fill = 0 ∧ t.err = .none ∧ t.done = false ∧ t.busy = true ∧
      t.mode = .decomp ∧ t.wp = 0 ∧ t.fbase = 0 ∧ t.bcnt = 0 ∧ t.eos = false ∧ t.ring = [] ∧ t.batch = [] ∧
      t.dphase = .decode [] ∧
      SameCompressor s t ∧ t.cfg = s.cfg ∧ t.creg = s.creg ∧ t.src = s.src ∧ t.snk = s.snk ∧ t.snkAns = s.snkAns ∧
      t.endGiven = s.endGiven ∧ t.script = s.script ∧ t.reads = s.reads ∧ t.freeCtr = s.freeCtr

/-- START while an operation runs is ignored (R205). -/
def Obligations.StartIgnored : Prop :=
  ∀ s : State, s.cfg.Legal → s.mode ≠ .idle → exec .startCompress s = .next s ∧ exec .startDecompress s = .next s

/-- An instance whose parameters are not legal is refused by name (00_scope.md R4, R6; 93_implementation_defined.md U1, U2): at
START, and in the block's turn while a pipeline is active. -/
def Obligations.IllegalParameters : Prop :=
  ∀ s : State, ¬ s.cfg.Legal →
    exec .startCompress s = .refused .illegalParameters ∧ exec .startDecompress s = .refused .illegalParameters ∧
    (s.mode ≠ .idle → blockTurn s = .refused .illegalParameters)

/-- A write of a read-only register, and a write of CTRL with bit 0 = 0, is ignored (10_state.md R23). -/
def Obligations.IgnoredWrites : Prop :=
  ∀ (s : State) (r : Reg) (v : Byte), r ≠ .ctrl ∨ v.getLsbD 0 = false → hostTurn (.write r v) s = .next s

/-- A read of a register answers the value R23 gives it and changes nothing of the block; the answer is appended to `reads`
(log entry 19). STATUS has BUSY in bit 0, DONE in bit 1, ERR in bits 4:2, MODE in bits 6:5 and 0 in bit 7. -/
def Obligations.RegisterReads : Prop :=
  ∀ (s : State) (r : Reg), ∃ v, hostTurn (.read r) s = .next { s with reads := s.reads ++ [v] } ∧
    (r = .ctrl → v = 0) ∧
    (r = .status → v < 128 ∧ v % 2 = s.busy.toNat ∧ v / 2 % 2 = s.done.toNat ∧ v / 4 % 8 = s.err.number ∧
      v / 32 = s.mode.number) ∧
    (r = .cfgWindow → v = s.cfg.windowSize) ∧ (r = .cfgLookahead → v = s.cfg.lookaheadSize) ∧
    (r = .cfgChunk → v = s.cfg.chunkCap) ∧ (r = .cfgRing → v = s.cfg.ringCap) ∧ (r = .cfgBatch → v = s.cfg.batchCap)

/-- The configuration registers are constants of the instance (10_state.md R23): no step changes one. -/
def Obligations.ConfigConstant : Prop := ∀ s t : State, step s = .next t → t.cfg = s.cfg

/-- The entry of an error (R196, R197): ERR is its code, BUSY = DONE = 0, MODE = IDLE, SNK keeps what has been sent and SRC what
has not been taken. -/
def Obligations.ErrorEntry : Prop :=
  ∀ (e : ErrCode) (s : State), ∃ t, (Res.raise e s : Res State).toOutcome = .next t ∧ Raised e s t ∧ t.src = s.src ∧
    t.cfg = s.cfg

/-- The state after reset (10_state.md R35): every scalar register is 0 and MODE is IDLE. -/
def Obligations.ResetValues : Prop :=
  State.reset.mode = .idle ∧ State.reset.busy = false ∧ State.reset.done = false ∧ State.reset.err = .none ∧
  State.reset.acc = 0#8 ∧ State.reset.fill = 0 ∧ State.reset.creg = { off := 0, len := 0, lit := 0#8 } ∧
  State.reset.clen = 0 ∧ State.reset.pos = 0 ∧ State.reset.wstart = 0 ∧ State.reset.inEof = false ∧
  State.reset.wp = 0 ∧ State.reset.fbase = 0 ∧ State.reset.bcnt = 0 ∧ State.reset.eos = false

/-- The reset event (70_reset_and_hazards.md R220, R222): from any state, every scalar register becomes 0, no error code is left,
neither stream is touched, and the CFG constants stay. -/
def Obligations.ResetEvent : Prop :=
  ∀ s : State, ∃ t, hostTurn .reset s = .next t ∧
    t.mode = .idle ∧ t.busy = false ∧ t.done = false ∧ t.err = .none ∧ t.acc = 0#8 ∧ t.fill = 0 ∧
    t.creg = { off := 0, len := 0, lit := 0#8 } ∧ t.clen = 0 ∧ t.pos = 0 ∧ t.wstart = 0 ∧ t.inEof = false ∧
    t.wp = 0 ∧ t.fbase = 0 ∧ t.bcnt = 0 ∧ t.eos = false ∧ t.cfg = s.cfg ∧ t.src = s.src ∧ t.snk = s.snk

/-- An idle block does nothing (10_state.md R38, R221): its turn passes. -/
def Obligations.IdleWaits : Prop :=
  ∀ s : State, s.mode = .idle → BlockNext s → step s = .next { s with script := s.script.tail }

/-! ### The whole machine -/

/-- A step runs the instruction that is next: the START of a CTRL write (R205), or the Code BATCH[i] of the apply phase
(43_decompress.md R163), with the loop variable moved on before it. -/
def Obligations.StepRunsInstr : Prop :=
  ∀ (s : State) (i : Instr),
    (∀ v rest, s.script = .host (.write .ctrl v) :: rest → decodeCtrl v = some i →
      step s = exec i { s with script := rest }) ∧
    (∀ c, s.cfg.Legal → BlockNext s → s.mode = .decomp → s.dphase = .apply → s.aidx < s.bcnt → s.aidx < s.cfg.batchCap →
      memGet s.batch s.aidx = some c → Instr.ofCode c = some i →
      step s = exec i { s with script := s.script.tail, aidx := s.aidx + 1 })

/-- What LIT and COPY1 to COPY7 leave unchanged, for a next state in which the operation goes on: the control registers, the
compressor's registers and CHUNK, the BitAccumulator and the Code register, BCNT, EOS and BATCH, the input stream, every byte
already in SNK, and every entry of RING but those of the form: WP .. WP + n, and, when the buffer fills, the seed region and
what follows it (R164 to R167; 10_state.md R38). -/
def Obligations.LitCopyFrame : Prop :=
  ∀ (s t : State) (i : Instr) (c : Code), i.toCode = some c → s.mode = .decomp → exec i s = .next t → t.mode = .decomp →
    SameControl s t ∧ SameCompressor s t ∧ SameCodec s t ∧ SameHost s t ∧
    t.bcnt = s.bcnt ∧ t.eos = s.eos ∧ t.batch = s.batch ∧ t.aidx = s.aidx ∧ s.snk <+: t.snk ∧
    (s.wp + c.len + 1 < s.cfg.ringCap → t.fbase = s.fbase ∧ t.snk = s.snk ∧ t.snkAns = s.snkAns ∧
      ∀ j, j < s.wp ∨ s.wp + c.len < j → memGet t.ring j = memGet s.ring j) ∧
    (∀ j, j < s.wp ∨ s.cfg.ringCap ≤ j → s.cfg.windowSize + c.len + 1 ≤ j → memGet t.ring j = memGet s.ring j)

/-- While MODE = COMP the decompressor's registers, RING and BATCH do not change (10_state.md R38), nor a status flag but at the
end of the operation. -/
def Obligations.CompOwnership : Prop :=
  ∀ s t : State, s.mode = .comp → blockTurn s = .next t → t.mode = .comp ∨ t.done = true →
    SameDecompressor s t ∧ (t.mode = .comp → SameControl s t)

/-- While MODE = DECOMP the compressor's registers and CHUNK do not change (10_state.md R38), nor a status flag but at the end of
the operation. -/
def Obligations.DecompOwnership : Prop :=
  ∀ s t : State, s.mode = .decomp → blockTurn s = .next t → t.mode = .decomp ∨ t.done = true →
    SameCompressor s t ∧ (t.mode = .decomp → SameControl s t)

/-- SNK is only appended to, by every step of block and host alike (10_state.md R32, 20_memory.md R56, 70_reset_and_hazards.md
R222). -/
def Obligations.SinkAppendOnly : Prop := ∀ s t : State, step s = .next t → s.snk <+: t.snk

/-- The block takes SRC from its head and in order: what is left after its turn is the end of what was there (10_state.md R32). The
host's next answer stands behind those given; after the end mark it has no such move (60_exceptions.md R207,
93_implementation_defined.md U19): it is refused by name, and so is a source with an answer after its end mark. That the model
refuses by endGiven is log entry 26; that the host may connect while BUSY = 1 is the model's choice (log entry 10). -/
def Obligations.SourceHeadOnly : Prop :=
  (∀ s t : State, blockTurn s = .next t → t.src <:+ s.src ∧ t.endGiven = s.endGiven) ∧
  (∀ (s : State) (a : SrcAnswer),
    (s.endGiven = false → ∃ t, hostTurn (.giveSrc a) s = .next t ∧ t.src = s.src ++ [a] ∧ (t.endGiven = true ↔ a = .eof) ∧
      t = { s with src := t.src, endGiven := t.endGiven }) ∧
    (s.endGiven = true → hostTurn (.giveSrc a) s = .refused .afterEndMark)) ∧
  (∀ (s : State) (src : List SrcAnswer) (ans : List SnkAnswer),
    (.eof ∉ src.dropLast → ∃ t, hostTurn (.connect src ans) s = .next t ∧ t.src = src ∧ t.snkAns = ans ∧
      (t.endGiven = true ↔ .eof ∈ src) ∧ t = { s with src := t.src, snkAns := t.snkAns, endGiven := t.endGiven }) ∧
    (.eof ∈ src.dropLast → hostTurn (.connect src ans) s = .refused .afterEndMark))

/-- A pipeline blocked on a stream port makes no progress and changes no state (70_reset_and_hazards.md R235). A turn that comes
to a port without an answer stops before it, at whichever access of LOAD_CHUNK, EMIT_CODE, FLUSH_BITS, DECODE_CODE, RING_FLUSH or
FINAL_FLUSH that is, and loses nothing: once the host has answered more, the next turn does what the turn would have done had
these answers stood there from the beginning. -/
def Obligations.BlockedWaits : Prop :=
  ∀ s : State, s.cfg.Legal →
    (WaitsForSource s → s.src = [] → blockTurn s = .next s) ∧ (WaitsForSink s → s.snkAns = [] → blockTurn s = .next s) ∧
    ∀ w, turnRes s = .wait w →
      blockTurn s = .next w ∧ ((WaitsForSource w ∧ w.src = []) ∨ (WaitsForSink w ∧ w.snkAns = [])) ∧
      ∀ xs ys, blockTurn (w.answered xs ys) = blockTurn (s.answered xs ys)

/-- A port that answers Fail raises IOFailure, at every place a port is used (60_exceptions.md R194, R196): where the access is
the first thing of the turn, and where it comes inside the turn behind accesses that were answered (there the turn without the
Fail would wait in `w`). The answer is consumed; SNK keeps every byte sent before (R197) and gets no more. That the byte whose
SnkWrite failed is not in SNK is the model's choice (log entry 11, U16), no rule of the spec. -/
def Obligations.FailedPort : Prop :=
  ∀ s : State, s.cfg.Legal →
    (WaitsForSource s → ∀ rest, s.src = .fail :: rest →
      ∃ t, blockTurn s = .next t ∧ Raised .ioFailure s t ∧ t.src = rest) ∧
    (WaitsForSink s → ∀ rest, s.snkAns = .fail :: rest →
      ∃ t, blockTurn s = .next t ∧ Raised .ioFailure s t ∧ t.snkAns = rest) ∧
    ∀ w, turnRes s = .wait w →
      (WaitsForSource w → ∀ xs ys, w.src = [] →
        ∃ t, blockTurn (s.answered (.fail :: xs) ys) = .next t ∧ Raised .ioFailure w t ∧ t.src = xs) ∧
      (WaitsForSink w → ∀ xs ys, w.snkAns = [] →
        ∃ t, blockTurn (s.answered xs (.fail :: ys)) = .next t ∧ Raised .ioFailure w t ∧ t.snkAns = ys)

/-- The invariant holds after reset, and so does the host's part of it. -/
def Obligations.InvAtReset : Prop := Inv State.reset ∧ SourceInv State.reset

/-- Every step keeps the invariant: cursors in their domains (10_state.md R20), every entry a rule may read holds a value (R34),
the pending bits of the accumulator above zeros (R24), buffers in canonical form, flags in agreement (R22). It keeps as
well that nothing stands in SRC after the end mark (60_exceptions.md R207; endGiven, log entry 26). -/
def Obligations.InvEveryStep : Prop :=
  ∀ s t : State, Inv s → step s = .next t → Inv t ∧ (SourceInv s → SourceInv t)

/-- From a state of the invariant a step never faults, and it is refused exactly where the host would supply an answer after the end
mark (60_exceptions.md R207, 93_implementation_defined.md U19; log entry 26): no unwritten entry is read (10_state.md R34), no bit pattern is
illegal (60_exceptions.md R195). -/
def Obligations.NoStop : Prop :=
  ∀ s : State, Inv s → (¬ SuppliesAfterEnd s → ∃ t, step s = .next t) ∧
    (SuppliesAfterEnd s → step s = .refused .afterEndMark)

/-- Which errors a step can raise (60_exceptions.md R190): in COMP only IOFailure, in DECOMP TruncatedStream, CorruptStream and
IOFailure, while idle none; CapacityExceeded is unreachable (R193). -/
def Obligations.ErrorsByMode : Prop :=
  ∀ s t : State, Inv s → step s = .next t → t.err = s.err ∨ t.err = .none ∨
    (s.mode = .comp ∧ t.err = .ioFailure) ∨
    (s.mode = .decomp ∧ (t.err = .truncatedStream ∨ t.err = .corruptStream ∨ t.err = .ioFailure))

/-- Every step keeps that RING below WP holds the last bytes of the output (43_decompress.md R167, R169; 20_memory.md R67). -/
def Obligations.WindowIsOutput : Prop := ∀ s t : State, Inv s → OutputInv s → step s = .next t → OutputInv t

/-- The round trip (43_decompress.md R178): compressing any bytes S, by a CTRL write with a source that gives S and the end mark
and a sink that accepts, ends without error and sends a stream; decompressing that stream, on an instance with the same
WINDOW_SIZE and LOOKAHEAD_SIZE and any legal capacities, ends without error and sends exactly S. -/
def Obligations.RoundTrip : Prop :=
  ∀ (S : List Byte) (s : State) (n : Nat), s.cfg.Legal → s.mode = .idle → s.script = [.host (.write .ctrl 0x01#8)] →
    s.src = S.map .byte ++ [.eof] → s.snkAns = List.replicate n .ok → S.length * s.cfg.maxCodeBits ≤ n →
    ∃ (k : Nat) (t : State) (sent : List Byte), Host.Core.run Sys2Proof.core k s = .next t ∧
      t.mode = .idle ∧ t.done = true ∧ t.err = .none ∧ t.snk = s.snk ++ sent ∧
      ∀ (d : State) (m : Nat), d.cfg.Legal → d.cfg.windowSize = s.cfg.windowSize →
        d.cfg.lookaheadSize = s.cfg.lookaheadSize → d.mode = .idle → d.script = [.host (.write .ctrl 0x03#8)] →
        d.src = sent.map .byte ++ [.eof] → d.snkAns = List.replicate m .ok → S.length ≤ m →
        ∃ (j : Nat) (u : State), Host.Core.run Sys2Proof.core j d = .next u ∧
          u.mode = .idle ∧ u.done = true ∧ u.err = .none ∧ u.snk = d.snk ++ S
end

