-- ==== Sys2Proof/Laws/Bits.lean ====
section
/-! SUPPORT. Bit strings: a field's bits and its value, the widths of legal parameters, DECODE_BITS on a bit string, and what
a decoded Code can be. -/

namespace Sys2Proof

/-- The value of a bit string, most significant bit first. -/
def bitsVal (bits : List Bool) : Nat := bits.foldl (fun v b => 2 * v + b.toNat) 0

@[simp] theorem bitsVal_nil : bitsVal [] = 0 := rfl

theorem bitsVal_foldl (bits : List Bool) (v : Nat) :
    bits.foldl (fun v b => 2 * v + b.toNat) v = v * 2 ^ bits.length + bitsVal bits := by
  induction bits generalizing v with
  | nil => simp
  | cons b bits ih =>
    simp only [List.foldl_cons, List.length_cons, bitsVal]
    rw [ih, ih (2 * 0 + b.toNat), pow_succ]
    ring

theorem bitsVal_cons (b : Bool) (bits : List Bool) :
    bitsVal (b :: bits) = b.toNat * 2 ^ bits.length + bitsVal bits := by
  have := bitsVal_foldl bits (2 * 0 + b.toNat)
  simpa [bitsVal] using this

theorem bitsVal_snoc (bits : List Bool) (b : Bool) : bitsVal (bits ++ [b]) = 2 * bitsVal bits + b.toNat := by
  simp [bitsVal]

theorem bitsVal_lt (bits : List Bool) : bitsVal bits < 2 ^ bits.length := by
  induction bits with
  | nil => simp
  | cons b bits ih =>
    rw [bitsVal_cons, List.length_cons, pow_succ]
    have : b.toNat ≤ 1 := by cases b <;> simp
    nlinarith

@[simp] theorem bitsOf_length (n v : Nat) : (bitsOf n v).length = n := by
  induction n with
  | zero => rfl
  | succ n ih => simp [bitsOf, ih]

theorem testBit_toNat (v n : Nat) : (v.testBit n).toNat = v / 2 ^ n % 2 := by
  rw [Nat.testBit_eq_decide_div_mod_eq]
  rcases Nat.mod_two_eq_zero_or_one (v / 2 ^ n) with h | h <;> simp [h]

/-- The value of a field's bits is the value, cut to the width. -/
theorem bitsVal_bitsOf (n v : Nat) : bitsVal (bitsOf n v) = v % 2 ^ n := by
  induction n with
  | zero => simp [bitsOf, Nat.mod_one]
  | succ n ih =>
    rw [bitsOf, bitsVal_cons, bitsOf_length, ih, testBit_toNat, pow_succ, Nat.mod_mul]
    ring

theorem bitsVal_inj {a b : List Bool} (hl : a.length = b.length) (h : bitsVal a = bitsVal b) : a = b := by
  induction a generalizing b with
  | nil => exact (List.length_eq_zero_iff.mp hl.symm).symm
  | cons x a ih =>
    cases b with
    | nil => simp at hl
    | cons y b =>
      have hl' : a.length = b.length := by simpa using hl
      rw [bitsVal_cons, bitsVal_cons, ← hl'] at h
      have h1 := bitsVal_lt a
      have h2 := bitsVal_lt b
      rw [← hl'] at h2
      have : x = y := by cases x <;> cases y <;> simp at h ⊢ <;> omega
      subst this
      rw [ih hl' (by omega)]

/-- A bit string is the field of its own value. -/
theorem bitsOf_bitsVal (bits : List Bool) : bitsOf bits.length (bitsVal bits) = bits :=
  bitsVal_inj (by simp) (by rw [bitsVal_bitsOf, Nat.mod_eq_of_lt (bitsVal_lt bits)])

theorem bitsVal_zero_iff (bits : List Bool) : bitsVal bits = 0 ↔ ∀ b ∈ bits, b = false := by
  induction bits with
  | nil => simp
  | cons b bits ih =>
    rw [bitsVal_cons]
    cases b <;> simp [ih]

/-! ### Widths -/

theorem ceilLog2_pow {n : Nat} (hp : isPowerOfTwo n = true) (h : 2 ≤ n) : 2 ^ ceilLog2 n = n := by
  have hn : 2 ^ Nat.log2 n = n := by simpa [isPowerOfTwo] using hp
  obtain ⟨k, rfl⟩ : ∃ k, n = 2 ^ k := ⟨_, hn.symm⟩
  have hk : 1 ≤ k := by
    rcases Nat.eq_zero_or_pos k with rfl | hk
    · simp at h
    · exact hk
  obtain ⟨j, rfl⟩ : ∃ j, k = j + 1 := ⟨k - 1, by omega⟩
  have h1 : Nat.log2 (2 ^ (j + 1) - 1) = j := by
    rw [Nat.log2_eq_iff (by omega)]
    have : 1 ≤ 2 ^ j := Nat.one_le_two_pow
    rw [pow_succ]
    omega
  unfold ceilLog2
  rw [if_neg (by omega), h1]

theorem Params.Legal.pow_lenBits {p : Params} (h : p.Legal) : 2 ^ p.lenBits = p.lookaheadSize :=
  ceilLog2_pow h.2.2.1 h.2.2.2.1

theorem Params.Legal.pow_offBits {p : Params} (h : p.Legal) : 2 ^ p.offBits = p.windowSize :=
  ceilLog2_pow h.1 h.2.1

theorem Params.Legal.lenBits_pos {p : Params} (h : p.Legal) : 1 ≤ p.lenBits := by
  rcases Nat.eq_zero_or_pos p.lenBits with h0 | h0
  · have := h.pow_lenBits
    have := h.2.2.2.1
    rw [h0] at *
    simp at *
    omega
  · exact h0

/-- Every value of the length field is a legal length (R5, R83). -/
theorem Params.Legal.maxMatch {p : Params} (h : p.Legal) : p.maxMatch + 1 = 2 ^ p.lenBits := by
  rw [h.pow_lenBits, Params.maxMatch]
  have := h.2.2.2.1
  omega

/-! ### DECODE_BITS on a bit string -/

theorem takeFieldFrom_eq (n k v : Nat) (bits : List Bool) :
    takeFieldFrom n k v bits =
      if n ≤ bits.length then .ok (v * 2 ^ n + bitsVal (bits.take n)) (bits.drop n)
      else .short (k + bits.length) (v * 2 ^ bits.length + bitsVal bits) := by
  induction n generalizing k v bits with
  | zero => simp [takeFieldFrom]
  | succ n ih =>
    cases bits with
    | nil => simp [takeFieldFrom]
    | cons b bits =>
      rw [takeFieldFrom, ih]
      by_cases h : n ≤ bits.length
      · simp only [h, if_true, List.length_cons, Nat.add_le_add_iff_right, List.take_succ_cons, List.drop_succ_cons,
          bitsVal_cons, List.length_take, Nat.min_eq_left h, pow_succ]
        congr 1
        ring
      · simp only [h, if_false, List.length_cons, Nat.add_le_add_iff_right, bitsVal_cons, pow_succ]
        congr 1 <;> ring

/-- DECODE_BITS(n) on a bit string (R104): the value of its first `n` bits, or `Short` with the number and the value of those
it has. -/
theorem takeField_eq (n : Nat) (bits : List Bool) :
    takeField n bits =
      if n ≤ bits.length then .ok (bitsVal (bits.take n)) (bits.drop n) else .short bits.length (bitsVal bits) := by
  rw [takeField, takeFieldFrom_eq]
  simp

/-- A field read from the bits of its own value. -/
theorem takeField_bitsOf {n v : Nat} (h : v < 2 ^ n) (rest : List Bool) : takeField n (bitsOf n v ++ rest) = .ok v rest := by
  rw [takeField_eq]
  simp [bitsVal_bitsOf, Nat.mod_eq_of_lt h]

theorem streamEnd_ne_code (k : Nat) (b : Bool) (c : Code) (rest : List Bool) : streamEnd k b ≠ .code c rest := by
  unfold streamEnd
  split
  · simp
  · split <;> simp

/-- The first `n` bits are the field of their value, which fits. -/
theorem bitsOf_take {n : Nat} {bits : List Bool} (h : n ≤ bits.length) :
    bitsOf n (bitsVal (bits.take n)) = bits.take n ∧ bitsVal (bits.take n) < 2 ^ n := by
  have h1 := bitsOf_bitsVal (bits.take n)
  have h2 := bitsVal_lt (bits.take n)
  rw [List.length_take, Nat.min_eq_left h] at h1 h2
  exact ⟨h1, h2⟩

/-- A field that was taken whole: its value fits, and its bits followed by the rest are the bits it was taken from. -/
theorem takeField_ok {n v : Nat} {bits rest : List Bool} (h : takeField n bits = .ok v rest) :
    v < 2 ^ n ∧ bitsOf n v ++ rest = bits ∧ n ≤ bits.length := by
  rw [takeField_eq] at h
  split at h <;> simp only [Field.ok.injEq, reduceCtorEq] at h
  rename_i hn
  obtain ⟨rfl, rfl⟩ := h
  obtain ⟨h1, h2⟩ := bitsOf_take hn
  exact ⟨h2, by rw [h1, List.take_append_drop], hn⟩

/-- A field cut short: all the bits there are were taken, fewer than the width. -/
theorem takeField_short {n k v : Nat} {bits : List Bool} (h : takeField n bits = .short k v) :
    k = bits.length ∧ v = bitsVal bits ∧ bits.length < n := by
  rw [takeField_eq] at h
  split at h <;> simp only [Field.short.injEq, reduceCtorEq] at h
  exact ⟨h.1.symm, h.2.symm, by omega⟩

/-- A decoded Code satisfies the invariant of R9 (R88: no bit pattern is illegal), and its bits are its encoding. -/
theorem decodeCode_code {p : Params} (hp : p.Legal) {bits rest : List Bool} {c : Code}
    (h : decodeCode p bits = .code c rest) : Code.Valid p c ∧ encodeCode p c ++ rest = bits := by
  have hmm := hp.maxMatch
  have hw := hp.pow_offBits
  unfold decodeCode at h
  split at h
  · simp only [streamEnd_ne_code] at h
  · rename_i len r hl
    obtain ⟨hl1, hl2, -⟩ := takeField_ok hl
    split at h
    · rename_i hpos
      split at h
      · simp at h
      · rename_i o r' ho
        obtain ⟨ho1, ho2, -⟩ := takeField_ok ho
        split at h
        · simp at h
        · rename_i b r'' hb
          obtain ⟨hb1, hb2, -⟩ := takeField_ok hb
          simp only [Decoded.code.injEq] at h
          obtain ⟨rfl, rfl⟩ := h
          have ht : (BitVec.ofNat 8 b).toNat = b := Nat.mod_eq_of_lt hb1
          refine ⟨⟨⟨fun h0 => by simp only at h0; omega, fun h0 => by simp at h0⟩, by simp only; omega, by simp only; omega⟩, ?_⟩
          simp only [encodeCode, hpos, if_true, Nat.add_sub_cancel, ht, List.append_assoc, hb2, ho2, hl2]
    · rename_i hpos
      split at h
      · simp only [streamEnd_ne_code] at h
      · rename_i b r'' hb
        obtain ⟨hb1, hb2, -⟩ := takeField_ok hb
        simp only [Decoded.code.injEq] at h
        obtain ⟨rfl, rfl⟩ := h
        have ht : (BitVec.ofNat 8 b).toNat = b := Nat.mod_eq_of_lt hb1
        have h0 : len = 0 := by omega
        subst h0
        refine ⟨⟨by simp, by simp, by simp⟩, ?_⟩
        simp only [encodeCode, lt_irrefl, if_false, List.nil_append, ht, List.append_assoc, hb2, hl2]

end Sys2Proof
end

