-- ==== Sys2Proof/Laws/Memory.lean ====
section
/-! SUPPORT. The laws of buffers as lists of cells: a read after a write, and that a write keeps the canonical form. -/

namespace Sys2Proof.Machine

variable {α : Type}

@[simp] theorem memGet_nil (i : Nat) : memGet ([] : List (Nat × α)) i = none := rfl

/-- A read after a write to the same entry gives the value written. -/
@[simp] theorem memGet_memSet_same (m : List (Nat × α)) (i : Nat) (v : α) : memGet (memSet m i v) i = some v := by
  induction m with
  | nil => simp [memSet, memGet]
  | cons x m ih =>
    obtain ⟨a, w⟩ := x
    by_cases h1 : i < a
    · simp [memSet, memGet, h1]
    · by_cases h2 : i = a
      · simp [memSet, memGet, h2]
      · simp [memSet, memGet, h1, h2, ih]

/-- A write leaves every other entry alone. -/
theorem memGet_memSet_other (m : List (Nat × α)) {i j : Nat} (v : α) (h : j ≠ i) :
    memGet (memSet m i v) j = memGet m j := by
  induction m with
  | nil => simp [memSet, memGet, h]
  | cons x m ih =>
    obtain ⟨a, w⟩ := x
    by_cases h1 : i < a
    · simp [memSet, memGet, h1, h]
    · by_cases h2 : i = a
      · subst h2; simp [memSet, memGet, h]
      · simp [memSet, memGet, h1, h2, ih]

/-- A read after a write. -/
theorem memGet_memSet (m : List (Nat × α)) (i j : Nat) (v : α) :
    memGet (memSet m i v) j = if j = i then some v else memGet m j := by
  by_cases h : j = i
  · subst h; simp
  · simp [h, memGet_memSet_other m v h]

/-- The entries of a written buffer. -/
theorem mem_memSet {m : List (Nat × α)} {i : Nat} {v : α} {x : Nat × α} (h : x ∈ memSet m i v) :
    x = (i, v) ∨ x ∈ m := by
  induction m with
  | nil => simpa [memSet] using h
  | cons y m ih =>
    obtain ⟨a, w⟩ := y
    by_cases h1 : i < a
    · simpa [memSet, h1] using h
    · by_cases h2 : i = a
      · subst h2
        simp [memSet] at h
        rcases h with h | h <;> simp [h]
      · simp [memSet, h1, h2] at h
        rcases h with h | h
        · simp [h]
        · rcases ih h with h | h <;> simp [h]

/-- A write keeps the canonical form. -/
theorem memSet_wf {m : List (Nat × α)} (i : Nat) (v : α) (h : Memory.wf m) : Memory.wf (memSet m i v) := by
  induction m with
  | nil => simp [memSet, Memory.wf]
  | cons x m ih =>
    obtain ⟨a, w⟩ := x
    have hx := List.pairwise_cons.mp h
    by_cases h1 : i < a
    · simp only [memSet, h1, if_true]
      refine List.pairwise_cons.mpr ⟨?_, h⟩
      intro y hy
      rcases List.mem_cons.mp hy with rfl | hy
      · exact h1
      · exact lt_trans h1 (hx.1 y hy)
    · by_cases h2 : i = a
      · subst h2
        simp only [memSet, lt_irrefl, if_false, if_true]
        exact List.pairwise_cons.mpr ⟨hx.1, hx.2⟩
      · simp only [memSet, h1, h2, if_false]
        refine List.pairwise_cons.mpr ⟨?_, ih hx.2⟩
        intro y hy
        rcases mem_memSet hy with rfl | hy
        · simp only; omega
        · exact hx.1 y hy

/-- The empty buffer is in canonical form. -/
@[simp] theorem nil_wf : Memory.wf ([] : List (Nat × α)) := List.Pairwise.nil

/-- Reset leaves every buffer in canonical form. -/
theorem reset_buffers_wf :
    Memory.wf State.reset.chunk ∧ Memory.wf State.reset.ring ∧ Memory.wf State.reset.batch :=
  ⟨nil_wf, nil_wf, nil_wf⟩

end Sys2Proof.Machine
end

