-- ==== Sys2Proof/Laws/Res.lean ====
section
/-! SUPPORT. What an operation may answer, said once: `Res.Meets` gives a condition for each way it can end, and the rules
carry it through `andThen` and `parkAt`. -/

namespace Sys2Proof.Machine

variable {α β : Type}

@[simp] theorem andThen_ok (a : α) (f : α → Res β) : (Res.ok a).andThen f = f a := rfl
@[simp] theorem andThen_wait (s : State) (f : α → Res β) : (Res.wait s).andThen f = .wait s := rfl
@[simp] theorem andThen_raise (e : ErrCode) (s : State) (f : α → Res β) : (Res.raise e s).andThen f = .raise e s := rfl
@[simp] theorem andThen_fault (x : Fault) (f : α → Res β) : (Res.fault x).andThen f = .fault x := rfl
@[simp] theorem andThen_refuse (x : Refusal) (f : α → Res β) : (Res.refuse x).andThen f = .refuse x := rfl

@[simp] theorem parkAt_ok (a : α) (p : State → State) : (Res.ok a).parkAt p = .ok a := rfl
@[simp] theorem parkAt_wait (s : State) (p : State → State) : (Res.wait s : Res α).parkAt p = .wait (p s) := rfl
@[simp] theorem parkAt_raise (e : ErrCode) (s : State) (p : State → State) :
    (Res.raise e s : Res α).parkAt p = .raise e s := rfl
@[simp] theorem parkAt_fault (x : Fault) (p : State → State) : (Res.fault x : Res α).parkAt p = .fault x := rfl
@[simp] theorem parkAt_refuse (x : Refusal) (p : State → State) : (Res.refuse x : Res α).parkAt p = .refuse x := rfl

@[simp] theorem toOutcome_ok (s : State) : (Res.ok s).toOutcome = .next s := rfl
@[simp] theorem toOutcome_wait (s : State) : (Res.wait s : Res State).toOutcome = .next s := rfl
@[simp] theorem toOutcome_raise (e : ErrCode) (s : State) :
    (Res.raise e s : Res State).toOutcome = .next (raiseError e s) := rfl
@[simp] theorem toOutcome_fault (f : Fault) : (Res.fault f : Res State).toOutcome = .fault f := rfl
@[simp] theorem toOutcome_refuse (x : Refusal) : (Res.refuse x : Res State).toOutcome = .refused x := rfl

/-- An operation that finishes after another: both finish. -/
theorem andThen_eq_ok {r : Res α} {f : α → Res β} {b : β} (h : r.andThen f = .ok b) : ∃ a, r = .ok a ∧ f a = .ok b := by
  cases r <;> simp at h
  exact ⟨_, rfl, h⟩

@[simp] theorem parkAt_eq_ok {r : Res α} {p : State → State} {a : α} : r.parkAt p = .ok a ↔ r = .ok a := by
  cases r <;> simp

theorem andThen_assoc {γ : Type} (r : Res α) (f : α → Res β) (g : β → Res γ) :
    (r.andThen f).andThen g = r.andThen fun a => (f a).andThen g := by
  cases r <;> rfl

/-- A condition for each way an operation can end: finished, waiting, an error raised, or (`stop`) a fault or a refusal. -/
def Res.Meets (r : Res α) (ok : α → Prop) (wait : State → Prop) (raise : ErrCode → State → Prop) (stop : Prop) : Prop :=
  match r with
  | .ok a => ok a
  | .wait s => wait s
  | .raise e s => raise e s
  | .fault _ => stop
  | .refuse _ => stop

section
variable {ok ok' : α → Prop} {okb : β → Prop} {wait wait' : State → Prop} {raise raise' : ErrCode → State → Prop} {stop stop' : Prop}

@[simp] theorem meets_ok {a : α} : (Res.ok a).Meets ok wait raise stop ↔ ok a := Iff.rfl
@[simp] theorem meets_wait {s : State} : (Res.wait s : Res α).Meets ok wait raise stop ↔ wait s := Iff.rfl
@[simp] theorem meets_raise {e : ErrCode} {s : State} : (Res.raise e s : Res α).Meets ok wait raise stop ↔ raise e s := Iff.rfl
@[simp] theorem meets_fault {f : Fault} : (Res.fault f : Res α).Meets ok wait raise stop ↔ stop := Iff.rfl
@[simp] theorem meets_refuse {x : Refusal} : (Res.refuse x : Res α).Meets ok wait raise stop ↔ stop := Iff.rfl

theorem Res.Meets.andThen {r : Res α} {f : α → Res β}
    (h : r.Meets (fun a => (f a).Meets okb wait raise stop) wait raise stop) : (r.andThen f).Meets okb wait raise stop := by
  cases r <;> simpa using h

/-- The sequence rule with a condition between the two operations. -/
theorem Res.Meets.seq {r : Res α} {f : α → Res β} (h : r.Meets ok wait raise stop)
    (hf : ∀ a, ok a → (f a).Meets okb wait raise stop) : (r.andThen f).Meets okb wait raise stop := by
  cases r <;> simp at h ⊢ <;> first | exact hf _ h | exact h

theorem Res.Meets.parkAt {r : Res α} {p : State → State} (h : r.Meets ok (fun s => wait (p s)) raise stop) :
    (r.parkAt p).Meets ok wait raise stop := by
  cases r <;> simpa using h

theorem Res.Meets.mono {r : Res α} (h : r.Meets ok wait raise stop) (h1 : ∀ a, ok a → ok' a)
    (h2 : ∀ s, wait s → wait' s) (h3 : ∀ e s, raise e s → raise' e s) (h4 : stop → stop') :
    r.Meets ok' wait' raise' stop' := by
  cases r <;> simp at h ⊢ <;> first | exact h1 _ h | exact h2 _ h | exact h3 _ _ h | exact h4 h

/-- Weaken only the condition of the finished case. -/
theorem Res.Meets.mono_ok {r : Res α} (h : r.Meets ok wait raise stop) (h1 : ∀ a, ok a → ok' a) :
    r.Meets ok' wait raise stop := h.mono h1 (fun _ h => h) (fun _ _ h => h) id

/-- What a finished, waiting or failing operation makes of a step. -/
theorem Res.Meets.toOutcome {r : Res State} {P : State → Prop} {t : State}
    (h : r.Meets P P (fun e s => P (raiseError e s)) stop) (ht : r.toOutcome = .next t) : P t := by
  cases r <;> simp at h ht <;> subst ht <;> exact h

/-- An operation whose stop condition is False neither faults nor refuses. -/
theorem Res.Meets.next {r : Res State} (h : r.Meets (fun _ => True) (fun _ => True) (fun _ _ => True) False) :
    ∃ t, r.toOutcome = .next t := by
  cases r <;> simp at h ⊢
end

end Sys2Proof.Machine
end

