-- ==== Sys2Proof/Laws/Ports.lean ====
section
/-! SUPPORT. What the stream ports and the buffer accesses can do, one lemma each. -/

namespace Sys2Proof.Machine

/-- SnkWrite(b): the byte is appended, or the port waits and nothing changes, or it fails (R8, R194). -/
theorem snkWrite_meets (b : Byte) (s : State) :
    (snkWrite b s).Meets
      (fun t => ∃ rest, s.snkAns = .ok :: rest ∧ t = { s with snk := s.snk ++ [b], snkAns := rest })
      (fun t => s.snkAns = [] ∧ t = s)
      (fun e t => e = .ioFailure ∧ ∃ rest, s.snkAns = .fail :: rest ∧ t = { s with snkAns := rest }) False := by
  unfold snkWrite
  split <;> simp_all

/-- A port that answers Ok takes the byte. -/
theorem snkWrite_ok {b : Byte} {s : State} {rest : List SnkAnswer} (h : s.snkAns = .ok :: rest) :
    snkWrite b s = .ok { s with snk := s.snk ++ [b], snkAns := rest } := by
  simp [snkWrite, h]

/-- SrcRead(): the next byte, the end mark, or the port waits and nothing changes, or it fails (R8, R194). -/
theorem srcRead_meets (s : State) :
    (srcRead s).Meets
      (fun r => (∃ b rest, s.src = .byte b :: rest ∧ r = (some b, { s with src := rest, taken := s.taken + 1 })) ∨
        (∃ rest, s.src = .eof :: rest ∧ r = (none, { s with src := rest })))
      (fun t => s.src = [] ∧ t = s)
      (fun e t => e = .ioFailure ∧ ∃ rest, s.src = .fail :: rest ∧ t = { s with src := rest }) False := by
  unfold srcRead
  split <;> simp_all

theorem chunkRead_meets (i : Nat) (s : State) :
    (chunkRead i s).Meets (fun b => memGet s.chunk i = some b) (fun _ => False)
      (fun e t => e = .capacityExceeded ∧ s.cfg.chunkCap ≤ i ∧ t = s) (i < s.cfg.chunkCap ∧ memGet s.chunk i = none) := by
  unfold chunkRead
  split
  · split <;> simp_all
  · simp_all

theorem chunkRead_ok {i : Nat} {s : State} {b : Byte} (hi : i < s.cfg.chunkCap) (h : memGet s.chunk i = some b) :
    chunkRead i s = .ok b := by
  simp [chunkRead, hi, h]

theorem ringRead_meets (i : Nat) (s : State) :
    (ringRead i s).Meets (fun b => memGet s.ring i = some b) (fun _ => False)
      (fun e t => e = .capacityExceeded ∧ s.cfg.ringCap ≤ i ∧ t = s) (i < s.cfg.ringCap ∧ memGet s.ring i = none) := by
  unfold ringRead
  split
  · split <;> simp_all
  · simp_all

theorem ringRead_ok {i : Nat} {s : State} {b : Byte} (hi : i < s.cfg.ringCap) (h : memGet s.ring i = some b) :
    ringRead i s = .ok b := by
  simp [ringRead, hi, h]

theorem batchRead_meets (i : Nat) (s : State) :
    (batchRead i s).Meets (fun c => memGet s.batch i = some c) (fun _ => False)
      (fun e t => e = .capacityExceeded ∧ s.cfg.batchCap ≤ i ∧ t = s) (i < s.cfg.batchCap ∧ memGet s.batch i = none) := by
  unfold batchRead
  split
  · split <;> simp_all
  · simp_all

theorem batchRead_ok {i : Nat} {s : State} {c : Code} (hi : i < s.cfg.batchCap) (h : memGet s.batch i = some c) :
    batchRead i s = .ok c := by
  simp [batchRead, hi, h]

theorem chunkWrite_meets (i : Nat) (b : Byte) (s : State) :
    (chunkWrite i b s).Meets (fun t => i < s.cfg.chunkCap ∧ t = { s with chunk := memSet s.chunk i b }) (fun _ => False)
      (fun e t => e = .capacityExceeded ∧ s.cfg.chunkCap ≤ i ∧ t = s) False := by
  unfold chunkWrite
  split <;> simp_all

theorem ringWrite_meets (i : Nat) (b : Byte) (s : State) :
    (ringWrite i b s).Meets (fun t => i < s.cfg.ringCap ∧ t = { s with ring := memSet s.ring i b }) (fun _ => False)
      (fun e t => e = .capacityExceeded ∧ s.cfg.ringCap ≤ i ∧ t = s) False := by
  unfold ringWrite
  split <;> simp_all

theorem batchWrite_meets (i : Nat) (c : Code) (s : State) :
    (batchWrite i c s).Meets (fun t => i < s.cfg.batchCap ∧ t = { s with batch := memSet s.batch i c }) (fun _ => False)
      (fun e t => e = .capacityExceeded ∧ s.cfg.batchCap ≤ i ∧ t = s) False := by
  unfold batchWrite
  split <;> simp_all

theorem setCode_meets (c : Code) (s : State) :
    (setCode c s).Meets (fun t => (c.off ≤ s.cfg.windowSize ∧ c.len ≤ s.cfg.maxMatch) ∧ t = { s with creg := c })
      (fun _ => False)
      (fun e t => e = .capacityExceeded ∧ ¬ (c.off ≤ s.cfg.windowSize ∧ c.len ≤ s.cfg.maxMatch) ∧ t = s) False := by
  unfold setCode
  split
  · exact ⟨‹_›, rfl⟩
  · exact ⟨rfl, ‹_›, rfl⟩

/-- The host's next answer of the input port: taken exactly while the source is open (R207, U19). -/
theorem giveSource_next {a : SrcAnswer} {s t : State} : giveSource a s = .next t ↔
    s.endGiven = false ∧ t = { s with src := s.src ++ [a], endGiven := decide (a = .eof) } := by
  unfold giveSource
  cases s.endGiven <;> simp [eq_comm (a := t)]

/-- Connecting: done exactly when nothing stands after the end mark of the source (R207, U19). -/
theorem connectStreams_next {src : List SrcAnswer} {ans : List SnkAnswer} {s t : State} : connectStreams src ans s = .next t ↔
    .eof ∉ src.dropLast ∧ t = { s with src := src, snkAns := ans, endGiven := decide (.eof ∈ src) } := by
  unfold connectStreams
  by_cases h : .eof ∈ src.dropLast <;> simp [h, eq_comm (a := t)]

end Sys2Proof.Machine
end

