-- ==== Sys2Proof/Laws/State.lean ====
section
/-! SUPPORT. One lemma per field per named update of State: the entry of an error, completion, the two STARTs, the reset
event and the state after reset. -/

namespace Sys2Proof.Machine

@[simp] theorem raiseError_cfg (e : ErrCode) (s : State) : (raiseError e s).cfg = s.cfg := rfl
@[simp] theorem raiseError_mode (e : ErrCode) (s : State) : (raiseError e s).mode = .idle := rfl
@[simp] theorem raiseError_busy (e : ErrCode) (s : State) : (raiseError e s).busy = false := rfl
@[simp] theorem raiseError_done (e : ErrCode) (s : State) : (raiseError e s).done = false := rfl
@[simp] theorem raiseError_err (e : ErrCode) (s : State) : (raiseError e s).err = e := rfl
@[simp] theorem raiseError_acc (e : ErrCode) (s : State) : (raiseError e s).acc = Config.freeByte s.freeCtr := rfl
@[simp] theorem raiseError_fill (e : ErrCode) (s : State) : (raiseError e s).fill = Config.freeNat s.freeCtr := rfl
@[simp] theorem raiseError_creg (e : ErrCode) (s : State) : (raiseError e s).creg = ⟨Config.freeNat (s.freeCtr + 1), Config.freeNat (s.freeCtr + 2), Config.freeByte (s.freeCtr + 1)⟩ := rfl
@[simp] theorem raiseError_clen (e : ErrCode) (s : State) : (raiseError e s).clen = Config.freeNat (s.freeCtr + 3) := rfl
@[simp] theorem raiseError_pos (e : ErrCode) (s : State) : (raiseError e s).pos = Config.freeNat (s.freeCtr + 4) := rfl
@[simp] theorem raiseError_wstart (e : ErrCode) (s : State) : (raiseError e s).wstart = Config.freeNat (s.freeCtr + 5) := rfl
@[simp] theorem raiseError_inEof (e : ErrCode) (s : State) : (raiseError e s).inEof = Config.freeBit s.freeCtr := rfl
@[simp] theorem raiseError_wp (e : ErrCode) (s : State) : (raiseError e s).wp = Config.freeNat (s.freeCtr + 6) := rfl
@[simp] theorem raiseError_fbase (e : ErrCode) (s : State) : (raiseError e s).fbase = Config.freeNat (s.freeCtr + 7) := rfl
@[simp] theorem raiseError_bcnt (e : ErrCode) (s : State) : (raiseError e s).bcnt = Config.freeNat (s.freeCtr + 8) := rfl
@[simp] theorem raiseError_eos (e : ErrCode) (s : State) : (raiseError e s).eos = Config.freeBit (s.freeCtr + 1) := rfl
@[simp] theorem raiseError_chunk (e : ErrCode) (s : State) : (raiseError e s).chunk = [] := rfl
@[simp] theorem raiseError_ring (e : ErrCode) (s : State) : (raiseError e s).ring = [] := rfl
@[simp] theorem raiseError_batch (e : ErrCode) (s : State) : (raiseError e s).batch = [] := rfl
@[simp] theorem raiseError_src (e : ErrCode) (s : State) : (raiseError e s).src = s.src := rfl
@[simp] theorem raiseError_snk (e : ErrCode) (s : State) : (raiseError e s).snk = s.snk := rfl
@[simp] theorem raiseError_snkAns (e : ErrCode) (s : State) : (raiseError e s).snkAns = s.snkAns := rfl
@[simp] theorem raiseError_endGiven (e : ErrCode) (s : State) : (raiseError e s).endGiven = s.endGiven := rfl
@[simp] theorem raiseError_script (e : ErrCode) (s : State) : (raiseError e s).script = s.script := rfl
@[simp] theorem raiseError_reads (e : ErrCode) (s : State) : (raiseError e s).reads = s.reads := rfl
@[simp] theorem raiseError_cphase (e : ErrCode) (s : State) : (raiseError e s).cphase = .load := rfl
@[simp] theorem raiseError_dphase (e : ErrCode) (s : State) : (raiseError e s).dphase = .decode [] := rfl
@[simp] theorem raiseError_aidx (e : ErrCode) (s : State) : (raiseError e s).aidx = 0 := rfl
@[simp] theorem raiseError_taken (e : ErrCode) (s : State) : (raiseError e s).taken = s.taken := rfl
@[simp] theorem raiseError_freeCtr (e : ErrCode) (s : State) : (raiseError e s).freeCtr = s.freeCtr + 9 := rfl

@[simp] theorem complete_cfg (s : State) : (complete s).cfg = s.cfg := rfl
@[simp] theorem complete_mode (s : State) : (complete s).mode = .idle := rfl
@[simp] theorem complete_busy (s : State) : (complete s).busy = false := rfl
@[simp] theorem complete_done (s : State) : (complete s).done = true := rfl
@[simp] theorem complete_err (s : State) : (complete s).err = s.err := rfl
@[simp] theorem complete_acc (s : State) : (complete s).acc = s.acc := rfl
@[simp] theorem complete_fill (s : State) : (complete s).fill = s.fill := rfl
@[simp] theorem complete_creg (s : State) : (complete s).creg = s.creg := rfl
@[simp] theorem complete_clen (s : State) : (complete s).clen = s.clen := rfl
@[simp] theorem complete_pos (s : State) : (complete s).pos = s.pos := rfl
@[simp] theorem complete_wstart (s : State) : (complete s).wstart = s.wstart := rfl
@[simp] theorem complete_inEof (s : State) : (complete s).inEof = s.inEof := rfl
@[simp] theorem complete_wp (s : State) : (complete s).wp = s.wp := rfl
@[simp] theorem complete_fbase (s : State) : (complete s).fbase = s.fbase := rfl
@[simp] theorem complete_bcnt (s : State) : (complete s).bcnt = s.bcnt := rfl
@[simp] theorem complete_eos (s : State) : (complete s).eos = s.eos := rfl
@[simp] theorem complete_chunk (s : State) : (complete s).chunk = s.chunk := rfl
@[simp] theorem complete_ring (s : State) : (complete s).ring = s.ring := rfl
@[simp] theorem complete_batch (s : State) : (complete s).batch = s.batch := rfl
@[simp] theorem complete_src (s : State) : (complete s).src = s.src := rfl
@[simp] theorem complete_snk (s : State) : (complete s).snk = s.snk := rfl
@[simp] theorem complete_snkAns (s : State) : (complete s).snkAns = s.snkAns := rfl
@[simp] theorem complete_endGiven (s : State) : (complete s).endGiven = s.endGiven := rfl
@[simp] theorem complete_script (s : State) : (complete s).script = s.script := rfl
@[simp] theorem complete_reads (s : State) : (complete s).reads = s.reads := rfl
@[simp] theorem complete_cphase (s : State) : (complete s).cphase = s.cphase := rfl
@[simp] theorem complete_dphase (s : State) : (complete s).dphase = s.dphase := rfl
@[simp] theorem complete_aidx (s : State) : (complete s).aidx = s.aidx := rfl
@[simp] theorem complete_taken (s : State) : (complete s).taken = s.taken := rfl
@[simp] theorem complete_freeCtr (s : State) : (complete s).freeCtr = s.freeCtr := rfl

@[simp] theorem initCompress_cfg (s : State) : (initCompress s).cfg = s.cfg := rfl
@[simp] theorem initCompress_mode (s : State) : (initCompress s).mode = .comp := rfl
@[simp] theorem initCompress_busy (s : State) : (initCompress s).busy = true := rfl
@[simp] theorem initCompress_done (s : State) : (initCompress s).done = false := rfl
@[simp] theorem initCompress_err (s : State) : (initCompress s).err = .none := rfl
@[simp] theorem initCompress_acc (s : State) : (initCompress s).acc = 0#8 := rfl
@[simp] theorem initCompress_fill (s : State) : (initCompress s).fill = 0 := rfl
@[simp] theorem initCompress_creg (s : State) : (initCompress s).creg = s.creg := rfl
@[simp] theorem initCompress_clen (s : State) : (initCompress s).clen = 0 := rfl
@[simp] theorem initCompress_pos (s : State) : (initCompress s).pos = 0 := rfl
@[simp] theorem initCompress_wstart (s : State) : (initCompress s).wstart = 0 := rfl
@[simp] theorem initCompress_inEof (s : State) : (initCompress s).inEof = false := rfl
@[simp] theorem initCompress_wp (s : State) : (initCompress s).wp = s.wp := rfl
@[simp] theorem initCompress_fbase (s : State) : (initCompress s).fbase = s.fbase := rfl
@[simp] theorem initCompress_bcnt (s : State) : (initCompress s).bcnt = s.bcnt := rfl
@[simp] theorem initCompress_eos (s : State) : (initCompress s).eos = s.eos := rfl
@[simp] theorem initCompress_chunk (s : State) : (initCompress s).chunk = [] := rfl
@[simp] theorem initCompress_ring (s : State) : (initCompress s).ring = s.ring := rfl
@[simp] theorem initCompress_batch (s : State) : (initCompress s).batch = s.batch := rfl
@[simp] theorem initCompress_src (s : State) : (initCompress s).src = s.src := rfl
@[simp] theorem initCompress_snk (s : State) : (initCompress s).snk = s.snk := rfl
@[simp] theorem initCompress_snkAns (s : State) : (initCompress s).snkAns = s.snkAns := rfl
@[simp] theorem initCompress_endGiven (s : State) : (initCompress s).endGiven = s.endGiven := rfl
@[simp] theorem initCompress_script (s : State) : (initCompress s).script = s.script := rfl
@[simp] theorem initCompress_reads (s : State) : (initCompress s).reads = s.reads := rfl
@[simp] theorem initCompress_cphase (s : State) : (initCompress s).cphase = .load := rfl
@[simp] theorem initCompress_dphase (s : State) : (initCompress s).dphase = s.dphase := rfl
@[simp] theorem initCompress_aidx (s : State) : (initCompress s).aidx = s.aidx := rfl
@[simp] theorem initCompress_taken (s : State) : (initCompress s).taken = 0 := rfl
@[simp] theorem initCompress_freeCtr (s : State) : (initCompress s).freeCtr = s.freeCtr := rfl

@[simp] theorem initDecompress_cfg (s : State) : (initDecompress s).cfg = s.cfg := rfl
@[simp] theorem initDecompress_mode (s : State) : (initDecompress s).mode = .decomp := rfl
@[simp] theorem initDecompress_busy (s : State) : (initDecompress s).busy = true := rfl
@[simp] theorem initDecompress_done (s : State) : (initDecompress s).done = false := rfl
@[simp] theorem initDecompress_err (s : State) : (initDecompress s).err = .none := rfl
@[simp] theorem initDecompress_acc (s : State) : (initDecompress s).acc = 0#8 := rfl
@[simp] theorem initDecompress_fill (s : State) : (initDecompress s).fill = 0 := rfl
@[simp] theorem initDecompress_creg (s : State) : (initDecompress s).creg = s.creg := rfl
@[simp] theorem initDecompress_clen (s : State) : (initDecompress s).clen = s.clen := rfl
@[simp] theorem initDecompress_pos (s : State) : (initDecompress s).pos = s.pos := rfl
@[simp] theorem initDecompress_wstart (s : State) : (initDecompress s).wstart = s.wstart := rfl
@[simp] theorem initDecompress_inEof (s : State) : (initDecompress s).inEof = s.inEof := rfl
@[simp] theorem initDecompress_wp (s : State) : (initDecompress s).wp = 0 := rfl
@[simp] theorem initDecompress_fbase (s : State) : (initDecompress s).fbase = 0 := rfl
@[simp] theorem initDecompress_bcnt (s : State) : (initDecompress s).bcnt = 0 := rfl
@[simp] theorem initDecompress_eos (s : State) : (initDecompress s).eos = false := rfl
@[simp] theorem initDecompress_chunk (s : State) : (initDecompress s).chunk = s.chunk := rfl
@[simp] theorem initDecompress_ring (s : State) : (initDecompress s).ring = [] := rfl
@[simp] theorem initDecompress_batch (s : State) : (initDecompress s).batch = [] := rfl
@[simp] theorem initDecompress_src (s : State) : (initDecompress s).src = s.src := rfl
@[simp] theorem initDecompress_snk (s : State) : (initDecompress s).snk = s.snk := rfl
@[simp] theorem initDecompress_snkAns (s : State) : (initDecompress s).snkAns = s.snkAns := rfl
@[simp] theorem initDecompress_endGiven (s : State) : (initDecompress s).endGiven = s.endGiven := rfl
@[simp] theorem initDecompress_script (s : State) : (initDecompress s).script = s.script := rfl
@[simp] theorem initDecompress_reads (s : State) : (initDecompress s).reads = s.reads := rfl
@[simp] theorem initDecompress_cphase (s : State) : (initDecompress s).cphase = s.cphase := rfl
@[simp] theorem initDecompress_dphase (s : State) : (initDecompress s).dphase = .decode [] := rfl
@[simp] theorem initDecompress_aidx (s : State) : (initDecompress s).aidx = 0 := rfl
@[simp] theorem initDecompress_taken (s : State) : (initDecompress s).taken = 0 := rfl
@[simp] theorem initDecompress_freeCtr (s : State) : (initDecompress s).freeCtr = s.freeCtr := rfl

@[simp] theorem resetBlock_cfg (s : State) : (resetBlock s).cfg = s.cfg := rfl
@[simp] theorem resetBlock_mode (s : State) : (resetBlock s).mode = .idle := rfl
@[simp] theorem resetBlock_busy (s : State) : (resetBlock s).busy = false := rfl
@[simp] theorem resetBlock_done (s : State) : (resetBlock s).done = false := rfl
@[simp] theorem resetBlock_err (s : State) : (resetBlock s).err = .none := rfl
@[simp] theorem resetBlock_acc (s : State) : (resetBlock s).acc = 0#8 := rfl
@[simp] theorem resetBlock_fill (s : State) : (resetBlock s).fill = 0 := rfl
@[simp] theorem resetBlock_creg (s : State) : (resetBlock s).creg = clearedCode := rfl
@[simp] theorem resetBlock_clen (s : State) : (resetBlock s).clen = 0 := rfl
@[simp] theorem resetBlock_pos (s : State) : (resetBlock s).pos = 0 := rfl
@[simp] theorem resetBlock_wstart (s : State) : (resetBlock s).wstart = 0 := rfl
@[simp] theorem resetBlock_inEof (s : State) : (resetBlock s).inEof = false := rfl
@[simp] theorem resetBlock_wp (s : State) : (resetBlock s).wp = 0 := rfl
@[simp] theorem resetBlock_fbase (s : State) : (resetBlock s).fbase = 0 := rfl
@[simp] theorem resetBlock_bcnt (s : State) : (resetBlock s).bcnt = 0 := rfl
@[simp] theorem resetBlock_eos (s : State) : (resetBlock s).eos = false := rfl
@[simp] theorem resetBlock_chunk (s : State) : (resetBlock s).chunk = [] := rfl
@[simp] theorem resetBlock_ring (s : State) : (resetBlock s).ring = [] := rfl
@[simp] theorem resetBlock_batch (s : State) : (resetBlock s).batch = [] := rfl
@[simp] theorem resetBlock_src (s : State) : (resetBlock s).src = s.src := rfl
@[simp] theorem resetBlock_snk (s : State) : (resetBlock s).snk = s.snk := rfl
@[simp] theorem resetBlock_snkAns (s : State) : (resetBlock s).snkAns = s.snkAns := rfl
@[simp] theorem resetBlock_endGiven (s : State) : (resetBlock s).endGiven = s.endGiven := rfl
@[simp] theorem resetBlock_script (s : State) : (resetBlock s).script = s.script := rfl
@[simp] theorem resetBlock_reads (s : State) : (resetBlock s).reads = s.reads := rfl
@[simp] theorem resetBlock_cphase (s : State) : (resetBlock s).cphase = .load := rfl
@[simp] theorem resetBlock_dphase (s : State) : (resetBlock s).dphase = .decode [] := rfl
@[simp] theorem resetBlock_aidx (s : State) : (resetBlock s).aidx = 0 := rfl
@[simp] theorem resetBlock_taken (s : State) : (resetBlock s).taken = 0 := rfl
@[simp] theorem resetBlock_freeCtr (s : State) : (resetBlock s).freeCtr = s.freeCtr := rfl

@[simp] theorem resetWith_cfg (p : Params) : (State.resetWith p).cfg = p := rfl
@[simp] theorem resetWith_mode (p : Params) : (State.resetWith p).mode = .idle := rfl
@[simp] theorem resetWith_busy (p : Params) : (State.resetWith p).busy = false := rfl
@[simp] theorem resetWith_done (p : Params) : (State.resetWith p).done = false := rfl
@[simp] theorem resetWith_err (p : Params) : (State.resetWith p).err = .none := rfl
@[simp] theorem resetWith_acc (p : Params) : (State.resetWith p).acc = 0#8 := rfl
@[simp] theorem resetWith_fill (p : Params) : (State.resetWith p).fill = 0 := rfl
@[simp] theorem resetWith_creg (p : Params) : (State.resetWith p).creg = clearedCode := rfl
@[simp] theorem resetWith_clen (p : Params) : (State.resetWith p).clen = 0 := rfl
@[simp] theorem resetWith_pos (p : Params) : (State.resetWith p).pos = 0 := rfl
@[simp] theorem resetWith_wstart (p : Params) : (State.resetWith p).wstart = 0 := rfl
@[simp] theorem resetWith_inEof (p : Params) : (State.resetWith p).inEof = false := rfl
@[simp] theorem resetWith_wp (p : Params) : (State.resetWith p).wp = 0 := rfl
@[simp] theorem resetWith_fbase (p : Params) : (State.resetWith p).fbase = 0 := rfl
@[simp] theorem resetWith_bcnt (p : Params) : (State.resetWith p).bcnt = 0 := rfl
@[simp] theorem resetWith_eos (p : Params) : (State.resetWith p).eos = false := rfl
@[simp] theorem resetWith_chunk (p : Params) : (State.resetWith p).chunk = [] := rfl
@[simp] theorem resetWith_ring (p : Params) : (State.resetWith p).ring = [] := rfl
@[simp] theorem resetWith_batch (p : Params) : (State.resetWith p).batch = [] := rfl
@[simp] theorem resetWith_src (p : Params) : (State.resetWith p).src = [] := rfl
@[simp] theorem resetWith_snk (p : Params) : (State.resetWith p).snk = [] := rfl
@[simp] theorem resetWith_snkAns (p : Params) : (State.resetWith p).snkAns = [] := rfl
@[simp] theorem resetWith_endGiven (p : Params) : (State.resetWith p).endGiven = false := rfl
@[simp] theorem resetWith_script (p : Params) : (State.resetWith p).script = [] := rfl
@[simp] theorem resetWith_reads (p : Params) : (State.resetWith p).reads = [] := rfl
@[simp] theorem resetWith_cphase (p : Params) : (State.resetWith p).cphase = .load := rfl
@[simp] theorem resetWith_dphase (p : Params) : (State.resetWith p).dphase = .decode [] := rfl
@[simp] theorem resetWith_aidx (p : Params) : (State.resetWith p).aidx = 0 := rfl
@[simp] theorem resetWith_taken (p : Params) : (State.resetWith p).taken = 0 := rfl
@[simp] theorem resetWith_freeCtr (p : Params) : (State.resetWith p).freeCtr = 0 := rfl

end Sys2Proof.Machine
end

