-- ==== Sys2Proof/Laws/Frames.lean ====
section
/-! SUPPORT. What each operation of a pipeline leaves unchanged: the other pipeline's registers and buffers, the control
registers, what is the host's; and SNK is only appended to (10_state.md R32, R38). -/

namespace Sys2Proof.Machine

/-- What no operation inside a pipeline changes: the control registers, what the host has given and got, the order of SRC and the
bytes already in SNK. -/
def KeepsCommon (s t : State) : Prop :=
  SameControl s t ∧ t.endGiven = s.endGiven ∧ t.src <:+ s.src ∧ t.script = s.script ∧ t.reads = s.reads ∧ t.freeCtr = s.freeCtr ∧
    s.snk <+: t.snk

/-- What no operation of the decompressor changes. -/
def KeepsD (s t : State) : Prop := KeepsCommon s t ∧ SameCompressor s t

/-- What no operation of the compressor changes. -/
def KeepsC (s t : State) : Prop := KeepsCommon s t ∧ SameDecompressor s t

theorem KeepsCommon.refl (s : State) : KeepsCommon s s := by simp [KeepsCommon, SameControl]

theorem KeepsCommon.trans {s t u : State} (h1 : KeepsCommon s t) (h2 : KeepsCommon t u) : KeepsCommon s u := by
  have hsrc := h2.2.2.1.trans h1.2.2.1
  have hsnk := h1.2.2.2.2.2.2.trans h2.2.2.2.2.2.2
  simp_all [KeepsCommon, SameControl]

theorem KeepsD.refl (s : State) : KeepsD s s := ⟨.refl s, by simp [SameCompressor]⟩

theorem KeepsD.trans {s t u : State} (h1 : KeepsD s t) (h2 : KeepsD t u) : KeepsD s u := by
  refine ⟨h1.1.trans h2.1, ?_⟩
  simp_all [KeepsD, SameCompressor]

theorem KeepsC.refl (s : State) : KeepsC s s := ⟨.refl s, by simp [SameDecompressor]⟩

theorem KeepsC.trans {s t u : State} (h1 : KeepsC s t) (h2 : KeepsC t u) : KeepsC s u := by
  refine ⟨h1.1.trans h2.1, ?_⟩
  simp_all [KeepsC, SameDecompressor]

/-- Every state the operation ends in is related to the state it began in. -/
def Res.Keeps (K : State → State → Prop) (s : State) (r : Res State) : Prop :=
  r.Meets (K s) (K s) (fun _ => K s) True

/-- As `Res.Keeps`, for an operation that answers a value with its state. -/
def Res.KeepsSnd {α : Type} (K : State → State → Prop) (s : State) (r : Res (α × State)) : Prop :=
  r.Meets (fun a => K s a.2) (K s) (fun _ => K s) True

/-- Two operations of the compressor in sequence; `mid` is the state the second begins in. -/
theorem Res.Keeps.seqC {α : Type} {s : State} {r : Res α} {f : α → Res State} (mid : α → State)
    (h : r.Meets (fun a => KeepsC s (mid a)) (KeepsC s) (fun _ => KeepsC s) True)
    (hf : ∀ a, (f a).Keeps KeepsC (mid a)) : (r.andThen f).Keeps KeepsC s :=
  Res.Meets.seq h fun a ha =>
    (hf a).mono (fun _ h => ha.trans h) (fun _ h => ha.trans h) (fun _ _ h => ha.trans h) id

/-- Two operations of the decompressor in sequence. -/
theorem Res.Keeps.seqD {α : Type} {s : State} {r : Res α} {f : α → Res State} (mid : α → State)
    (h : r.Meets (fun a => KeepsD s (mid a)) (KeepsD s) (fun _ => KeepsD s) True)
    (hf : ∀ a, (f a).Keeps KeepsD (mid a)) : (r.andThen f).Keeps KeepsD s :=
  Res.Meets.seq h fun a ha =>
    (hf a).mono (fun _ h => ha.trans h) (fun _ h => ha.trans h) (fun _ _ h => ha.trans h) id

/-! ### The ports and the bit loops -/

theorem snkWrite_keeps (b : Byte) (s : State) : (snkWrite b s).Meets
    (fun t => KeepsCommon s t ∧ SameCompressor s t ∧ SameDecompressor s t ∧ t.acc = s.acc ∧ t.fill = s.fill)
    (fun t => t = s)
    (fun _ t => KeepsCommon s t ∧ SameCompressor s t ∧ SameDecompressor s t) False := by
  refine (snkWrite_meets b s).mono ?_ (fun t h => h.2) ?_ id
  · rintro t ⟨rest, -, rfl⟩; simp [KeepsCommon, SameControl, SameCompressor, SameDecompressor]
  · rintro e t ⟨-, rest, -, rfl⟩; simp [KeepsCommon, SameControl, SameCompressor, SameDecompressor]

theorem srcRead_keeps (s : State) : (srcRead s).Meets
    (fun r => KeepsCommon s r.2 ∧ SameCompressor s r.2 ∧ SameDecompressor s r.2)
    (fun t => t = s)
    (fun _ t => KeepsCommon s t ∧ SameCompressor s t ∧ SameDecompressor s t) False := by
  refine (srcRead_meets s).mono ?_ (fun t h => h.2) ?_ id
  · rintro r (⟨b, rest, hs, rfl⟩ | ⟨rest, hs, rfl⟩) <;>
      simp [KeepsCommon, SameControl, SameCompressor, SameDecompressor, hs, List.suffix_cons]
  · rintro e t ⟨-, rest, hs, rfl⟩
    simp [KeepsCommon, SameControl, SameCompressor, SameDecompressor, hs, List.suffix_cons]

theorem sendFull_keeps (s : State) : (sendFull s).Keeps KeepsC s := by
  unfold sendFull
  split
  · refine Res.Keeps.seqC (id) ?_ ?_
    · exact (snkWrite_keeps s.acc s).mono (fun t h => ⟨h.1, h.2.2.1⟩) (fun t h => by subst h; exact .refl _)
        (fun _ t h => ⟨h.1, h.2.2⟩) (fun h => h.elim)
    · intro t; simp [Res.Keeps, KeepsC, KeepsCommon, SameControl, SameDecompressor]
  · exact KeepsC.refl s

theorem putBit_keeps (b : Bool) (s : State) : (putBit b s).Keeps KeepsC s := by
  unfold putBit
  split
  · exact (sendFull_keeps { s with acc := writeBit s.acc (7 - s.fill) b, fill := s.fill + 1 }).mono
      (fun t h => h) (fun t h => h) (fun _ t h => h) id
  · exact KeepsC.refl s

theorem putBits_keeps (bits : List Bool) (s : State) : (putBits bits s).Keeps KeepsC s := by
  induction bits generalizing s with
  | nil => exact KeepsC.refl s
  | cons b rest ih =>
    refine Res.Keeps.seqC (id) ?_ fun t => ih t
    exact Res.Meets.parkAt ((putBit_keeps b s).mono (fun t h => h) (fun t h => h) (fun _ t h => h) id)

theorem flushBits_keeps (s : State) : (flushBits s).Keeps KeepsC s := by
  unfold flushBits
  split
  · refine Res.Keeps.seqC (id) ?_ ?_
    · exact (snkWrite_keeps s.acc s).mono (fun t h => ⟨h.1, h.2.2.1⟩) (fun t h => by subst h; exact .refl _)
        (fun _ t h => ⟨h.1, h.2.2⟩) (fun h => h.elim)
    · intro t; simp [Res.Keeps, KeepsC, KeepsCommon, SameControl, SameDecompressor]
  · exact KeepsC.refl s

theorem getBit_keeps (s : State) : (getBit s).KeepsSnd KeepsD s := by
  unfold getBit
  split
  · refine Res.Meets.seq (ok := fun r => KeepsD s r.2) ?_ ?_
    · exact (srcRead_keeps s).mono (fun r h => ⟨h.1, h.2.1⟩) (fun t h => by subst h; exact .refl _)
        (fun _ t h => ⟨h.1, h.2.1⟩) (fun h => h.elim)
    · rintro ⟨o, t⟩ h
      cases o <;> exact h
  · split
    · exact KeepsD.refl s
    · exact KeepsD.refl s

theorem takeCode_keeps (n : Nat) (got : List Bool) (s : State) : (takeCode n got s).KeepsSnd KeepsD s := by
  induction n generalizing got s with
  | zero => exact KeepsD.refl s
  | succ n ih =>
    have step : ∀ d : Decoded, (((getBit s).parkAt fun t => { t with dphase := .decode got }).andThen fun r =>
        match r.1 with
        | none => .ok (d, r.2)
        | some b => takeCode n (got ++ [b]) r.2).KeepsSnd KeepsD s := by
      intro d
      refine Res.Meets.seq (ok := fun r => KeepsD s r.2) (Res.Meets.parkAt ?_) ?_
      · exact (getBit_keeps s).mono (fun _ h => h) (fun _ h => h) (fun _ _ h => h) id
      · rintro ⟨o, t⟩ h
        cases o with
        | none => exact h
        | some b =>
          exact (ih (got ++ [b]) t).mono (fun _ h' => h.trans h') (fun _ h' => h.trans h') (fun _ _ h' => h.trans h') id
    unfold takeCode
    split
    · exact KeepsD.refl s
    · exact step _

/-! ### The compressor -/

theorem fillChunk_keeps (n : Nat) (s : State) : (fillChunk n s).Keeps KeepsC s := by
  induction n generalizing s with
  | zero => exact KeepsC.refl s
  | succ n ih =>
    unfold fillChunk
    split
    · exact KeepsC.refl s
    · refine Res.Keeps.seqC (fun r => r.2) ?_ ?_
      · exact (srcRead_keeps s).mono (fun r h => ⟨h.1, h.2.2⟩) (fun t h => by subst h; exact .refl _)
          (fun _ t h => ⟨h.1, h.2.2⟩) (fun h => h.elim)
      · rintro ⟨o, t⟩
        cases o with
        | none => simp [Res.Keeps, KeepsC, KeepsCommon, SameControl, SameDecompressor]
        | some x =>
          refine Res.Keeps.seqC (fun u => { u with clen := u.clen + 1 }) ?_ fun u => ih _
          refine (chunkWrite_meets t.clen x t).mono ?_ (fun _ h => h.elim) ?_ (fun h => h.elim)
          · rintro u ⟨-, rfl⟩; simp [KeepsC, KeepsCommon, SameControl, SameDecompressor]
          · rintro e u ⟨-, -, rfl⟩; exact .refl _

theorem matchLenFrom_keeps (s : State) (d n k : Nat) :
    (matchLenFrom s d n k).Meets (fun _ => True) (fun _ => False) (fun _ t => t = s) True := by
  induction n generalizing k with
  | zero => trivial
  | succ n ih =>
    refine Res.Meets.seq ((chunkRead_meets _ s).mono (fun _ h => h) (fun _ h => h) (fun _ t h => h.2.2) fun _ => trivial) ?_
    intro a _
    refine Res.Meets.seq ((chunkRead_meets _ s).mono (fun _ h => h) (fun _ h => h) (fun _ t h => h.2.2) fun _ => trivial) ?_
    intro b _
    split
    · exact ih _
    · trivial

theorem scanFrom_keeps (s : State) (n d bo bl : Nat) :
    (scanFrom s n d bo bl).Meets (fun _ => True) (fun _ => False) (fun _ t => t = s) True := by
  induction n generalizing d bo bl with
  | zero => trivial
  | succ n ih =>
    refine Res.Meets.seq (matchLenFrom_keeps s d _ 0) fun k _ => ?_
    split <;> exact ih _ _ _

/-- FIND_LONGEST_MATCH changes nothing: it answers a Code, and an error it could raise is raised in the state it began in. -/
theorem findLongestMatch_keeps (s : State) :
    (findLongestMatch s).Meets (fun _ => True) (fun _ => False) (fun _ t => t = s) True := by
  have rd : ∀ i, (chunkRead i s).Meets (fun _ => True) (fun _ => False) (fun _ t => t = s) True := fun i =>
    (chunkRead_meets i s).mono (fun _ _ => trivial) (fun _ h => h) (fun _ t h => h.2.2) fun _ => trivial
  unfold findLongestMatch
  split
  · exact Res.Meets.seq (rd _) fun _ _ => trivial
  · split
    · exact Res.Meets.seq (scanFrom_keeps s _ _ _ _) fun _ _ => Res.Meets.seq (rd _) fun _ _ => trivial
    · rfl

theorem codeBits_keeps (p : Params) (c : Code) :
    (codeBits p c).Meets (fun _ => True) (fun _ => False) (fun _ _ => False) True := by
  have fb : ∀ v n, (fieldBits v n).Meets (fun _ => True) (fun _ => False) (fun _ _ => False) True := by
    intro v n; unfold fieldBits; split <;> trivial
  unfold codeBits
  refine Res.Meets.seq (fb _ _) fun l _ => Res.Meets.seq (ok := fun _ => True) ?_ fun o _ =>
    Res.Meets.seq (fb _ _) fun b _ => trivial
  split
  · exact fb _ _
  · trivial

theorem advance_keeps (s : State) : (advance s).Keeps KeepsC s := by
  unfold advance
  split
  · simp [Res.Keeps, KeepsC, KeepsCommon, SameControl, SameDecompressor]
  · exact KeepsC.refl s

theorem codeStep_keeps (s : State) : (codeStep s).Keeps KeepsC s := by
  refine Res.Keeps.seqC (fun _ => s) ?_ fun c => ?_
  · exact (findLongestMatch_keeps s).mono (fun _ _ => .refl s) (fun _ h => h.elim) (fun _ t h => by subst h; exact .refl _) id
  refine Res.Keeps.seqC (id) ?_ fun t => ?_
  · refine (setCode_meets c s).mono ?_ (fun _ h => h.elim) ?_ (fun h => h.elim)
    · rintro t ⟨-, rfl⟩; simp [KeepsC, KeepsCommon, SameControl, SameDecompressor]
    · rintro e t ⟨-, -, rfl⟩; exact .refl _
  refine Res.Keeps.seqC (fun _ => t) ?_ fun bits => ?_
  · exact (codeBits_keeps _ c).mono (fun _ _ => .refl t) (fun _ h => h.elim) (fun _ _ h => h.elim) id
  exact Res.Keeps.seqC (id) (putBits_keeps bits t) fun u => advance_keeps u

/-- One step of COMPRESS that does not end it leaves the decompressor's state and the control registers alone; what it ends
in otherwise is `complete` of such a state. -/
theorem compressStep_keeps (s : State) : (compressStep s).Meets
    (fun t => KeepsC s t ∨ ∃ u, KeepsC s u ∧ t = complete u) (KeepsC s) (fun _ => KeepsC s) True := by
  have lift : ∀ {r : Res State}, r.Keeps KeepsC s → r.Meets
      (fun t => KeepsC s t ∨ ∃ u, KeepsC s u ∧ t = complete u) (KeepsC s) (fun _ => KeepsC s) True := fun h =>
    Res.Meets.mono_ok h fun _ h => Or.inl h
  unfold compressStep
  split
  · refine lift (Res.Keeps.seqC (id) (fillChunk_keeps _ s) fun t => ?_)
    split <;> simp [Res.Keeps, KeepsC, KeepsCommon, SameControl, SameDecompressor]
  · unfold scanStep
    split
    · exact lift (codeStep_keeps s)
    · split <;> exact Or.inl (by simp [KeepsC, KeepsCommon, SameControl, SameDecompressor])
  · refine lift (Res.Keeps.seqC (id) ?_ fun t =>
      Res.Keeps.seqC (id) (putBits_keeps _ t) fun u => advance_keeps u)
    exact Res.Meets.parkAt (sendFull_keeps s)
  · refine Res.Meets.seq (flushBits_keeps s) fun t ht => Or.inr ⟨{ t with cphase := .load }, ?_, rfl⟩
    exact ht.trans (by simp [KeepsC, KeepsCommon, SameControl, SameDecompressor])

/-! ### The decompressor -/

theorem sendRing_keeps (park : Nat → DPhase) (n i : Nat) (s : State) : (sendRing park n i s).Keeps KeepsD s := by
  induction n generalizing i s with
  | zero => exact KeepsD.refl s
  | succ n ih =>
    refine Res.Keeps.seqD (fun _ => s) ?_ fun b => ?_
    · exact (ringRead_meets i s).mono (fun _ _ => .refl s) (fun _ h => h.elim)
        (fun _ t h => by rw [h.2.2]; exact .refl _) fun _ => trivial
    refine Res.Keeps.seqD (id) (Res.Meets.parkAt ?_) fun t => ih _ t
    exact (snkWrite_keeps b s).mono (fun t h => ⟨h.1, h.2.1⟩) (fun t h => by subst h; simp [KeepsD, KeepsCommon, SameControl, SameCompressor])
      (fun _ t h => ⟨h.1, h.2.1⟩) (fun h => h.elim)

theorem ringWrite_keeps (i : Nat) (b : Byte) (s : State) : (ringWrite i b s).Keeps KeepsD s := by
  refine (ringWrite_meets i b s).mono ?_ (fun _ h => h.elim) ?_ (fun h => h.elim)
  · rintro t ⟨-, rfl⟩; simp [KeepsD, KeepsCommon, SameControl, SameCompressor]
  · rintro e t ⟨-, -, rfl⟩; exact .refl _

theorem reseed_keeps (n j : Nat) (s : State) : (reseed n j s).Keeps KeepsD s := by
  induction n generalizing j s with
  | zero => exact KeepsD.refl s
  | succ n ih =>
    refine Res.Keeps.seqD (fun _ => s) ?_ fun b =>
      Res.Keeps.seqD (id) (ringWrite_keeps j b s) fun t => ih _ t
    exact (ringRead_meets _ s).mono (fun _ _ => .refl s) (fun _ h => h.elim)
      (fun _ t h => by rw [h.2.2]; exact .refl _) fun _ => trivial

theorem ringFlushFrom_keeps (i : Nat) (acts : List Act) (s : State) : (ringFlushFrom i acts s).Keeps KeepsD s := by
  refine Res.Keeps.seqD (id) (sendRing_keeps _ _ i s) fun t =>
    Res.Keeps.seqD (id) (reseed_keeps _ 0 t) fun u => ?_
  simp [Res.Keeps, KeepsD, KeepsCommon, SameControl, SameCompressor]

theorem appendByte_keeps (b : Byte) (acts : List Act) (s : State) : (appendByte b acts s).Keeps KeepsD s := by
  refine Res.Keeps.seqD (id) (ringWrite_keeps s.wp b s) fun t => ?_
  split
  · exact (ringFlushFrom_keeps t.fbase acts { t with wp := t.wp + 1 }).mono (fun _ h => h) (fun _ h => h) (fun _ _ h => h) id
  · simp [Res.Keeps, KeepsD, KeepsCommon, SameControl, SameCompressor]

theorem actByte_keeps (a : Act) (s : State) :
    (actByte a s).Meets (fun _ => True) (fun _ => False) (fun _ t => t = s) True := by
  unfold actByte
  split
  · unfold copySource
    split
    · exact (ringRead_meets _ s).mono (fun _ _ => trivial) (fun _ h => h) (fun _ t h => h.2.2) fun _ => trivial
    · rfl
  · trivial

theorem runActs_keeps (acts : List Act) (s : State) : (runActs acts s).Keeps KeepsD s := by
  induction acts generalizing s with
  | nil => simp [runActs, Res.Keeps, KeepsD, KeepsCommon, SameControl, SameCompressor]
  | cons a acts ih =>
    refine Res.Keeps.seqD (fun _ => s) ?_ fun b =>
      Res.Keeps.seqD (id) (appendByte_keeps b acts s) fun t => ih t
    exact (actByte_keeps a s).mono (fun _ _ => .refl s) (fun _ h => h.elim) (fun _ t h => by subst h; exact .refl _) id

theorem applyCopy_keeps (off n : Nat) (c : Byte) (s : State) : (applyCopy off n c s).Keeps KeepsD s := by
  unfold applyCopy
  split
  · split
    · exact KeepsD.refl s
    · exact runActs_keeps _ s
  · trivial

theorem storeCode_keeps (c : Code) (s : State) : (storeCode c s).Keeps KeepsD s := by
  refine Res.Keeps.seqD (id) ?_ fun t => Res.Keeps.seqD (id) ?_ fun u => ?_
  · refine (setCode_meets c s).mono ?_ (fun _ h => h.elim) ?_ (fun h => h.elim)
    · rintro t ⟨-, rfl⟩; simp [KeepsD, KeepsCommon, SameControl, SameCompressor]
    · rintro e t ⟨-, -, rfl⟩; exact .refl _
  · refine (batchWrite_meets t.bcnt c t).mono ?_ (fun _ h => h.elim) ?_ (fun h => h.elim)
    · rintro u ⟨-, rfl⟩; simp [KeepsD, KeepsCommon, SameControl, SameCompressor]
    · rintro e t ⟨-, -, rfl⟩; exact .refl _
  · split <;> simp [Res.Keeps, KeepsD, KeepsCommon, SameControl, SameCompressor]

theorem decodeStep_keeps (got : List Bool) (s : State) : (decodeStep got s).Keeps KeepsD s := by
  refine Res.Keeps.seqD (fun r => r.2) (takeCode_keeps _ got s) fun r => ?_
  obtain ⟨d, t⟩ := r
  cases d with
  | code c rest => exact storeCode_keeps c t
  | endOfStream => simp [Res.Keeps, KeepsD, KeepsCommon, SameControl, SameCompressor]
  | truncated => exact KeepsD.refl t

theorem flushStep_keeps (i : Nat) (acts : List Act) (s : State) : (flushStep i acts s).Keeps KeepsD s :=
  Res.Keeps.seqD (id) (ringFlushFrom_keeps i acts s) fun t => runActs_keeps acts t

/-- FINAL_FLUSH either ends in a state like it began in, waiting or failing, or completes such a state. -/
theorem finalStep_keeps (i : Nat) (s : State) : (finalStep i s).Meets
    (fun t => ∃ u, KeepsD s u ∧ t = complete u) (KeepsD s) (fun _ => KeepsD s) True := by
  refine Res.Meets.seq (sendRing_keeps _ _ i s) fun t ht => ⟨{ t with fbase := t.wp, dphase := .decode [] }, ?_, rfl⟩
  exact ht.trans (by simp [KeepsD, KeepsCommon, SameControl, SameCompressor])

theorem batchEnd_keeps (s : State) : KeepsD s (batchEnd s) := by
  unfold batchEnd
  split <;> simp [KeepsD, KeepsCommon, SameControl, SameCompressor]

end Sys2Proof.Machine
end

