-- ==== Sys2Proof/Laws/MatchFinder.lean ====
section
/-! SUPPORT. What MATCH_LEN, the scan and FIND_LONGEST_MATCH answer on a chunk whose entries below CLEN hold values. -/

namespace Sys2Proof.Machine

/-- A read below CLEN answers the entry's value. -/
theorem ScanReady.read {s : State} (h : ScanReady s) {i : Nat} (hi : i < s.clen) :
    ∃ b, memGet s.chunk i = some b ∧ chunkRead i s = .ok b := by
  obtain ⟨b, hb⟩ := Option.isSome_iff_exists.mp (h.written i hi)
  exact ⟨b, hb, chunkRead_ok (lt_of_lt_of_le hi h.bound) hb⟩

/-- MATCH_LEN(d) (R121): it answers the number of bytes in which the candidate agrees, and reads nothing past
POS + MAX_MATCH − 1 (R128). -/
theorem matchLenFrom_meets {s : State} (h : ScanReady s) {d : Nat} (hd : 1 ≤ d) (hd' : d ≤ s.pos)
    (hroom : s.pos + s.cfg.maxMatch < s.clen) (n k : Nat) (hk : k + n = s.cfg.maxMatch)
    (hag : ∀ j, j < k → memGet s.chunk (s.pos - d + j) = memGet s.chunk (s.pos + j)) :
    (matchLenFrom s d n k).Meets (Agrees s d) (fun _ => False) (fun _ _ => False) False := by
  induction n generalizing k with
  | zero => exact ⟨by omega, hag, Or.inl (by omega)⟩
  | succ n ih =>
    obtain ⟨a, ha, hra⟩ := h.read (i := s.pos - d + k) (by omega)
    obtain ⟨b, hb, hrb⟩ := h.read (i := s.pos + k) (by omega)
    rw [matchLenFrom, hra, andThen_ok, hrb, andThen_ok]
    split
    · rename_i hab
      refine ih (k + 1) (by omega) fun j hj => ?_
      rcases Nat.lt_succ_iff_lt_or_eq.mp hj with hj | rfl
      · exact hag j hj
      · rw [ha, hb, hab]
    · rename_i hab
      exact ⟨by omega, hag, Or.inr (by rw [ha, hb]; simpa using hab)⟩

theorem agrees_unique {s : State} {d k k' : Nat} (h : Agrees s d k) (h' : Agrees s d k') : k = k' := by
  obtain ⟨h1, h2, h3⟩ := h
  obtain ⟨g1, g2, g3⟩ := h'
  rcases Nat.lt_trichotomy k k' with hlt | heq | hlt
  · rcases h3 with h3 | h3
    · omega
    · exact absurd (g2 k hlt) h3
  · exact heq
  · rcases g3 with g3 | g3
    · omega
    · exact absurd (h2 k' hlt) g3

/-- The best candidate among the distances below `d` (R123). -/
def BestBelow (s : State) (d off len : Nat) : Prop :=
  (∀ e k, 1 ≤ e → e < d → Agrees s e k → k ≤ len) ∧ (len = 0 → off = 0) ∧
  (1 ≤ len → 1 ≤ off ∧ off < d ∧ Agrees s off len ∧ ∀ e k, off < e → e < d → Agrees s e k → k < len)

/-- The scan (R122, R123) answers the best of all candidates; among equal lengths the largest distance. -/
theorem scanFrom_meets {s : State} (h : ScanReady s) (hroom : s.pos + s.cfg.maxMatch < s.clen) (n d off len : Nat)
    (hd : 1 ≤ d) (hn : n + d ≤ s.pos + 1) (hb : BestBelow s d off len) :
    (scanFrom s n d off len).Meets (fun r => BestBelow s (d + n) r.1 r.2) (fun _ => False) (fun _ _ => False) False := by
  induction n generalizing d off len with
  | zero => simpa [scanFrom] using hb
  | succ n ih =>
    rw [scanFrom]
    refine Res.Meets.seq (matchLenFrom_meets h hd (by omega) hroom _ 0 (by omega) (by omega)) fun k hk => ?_
    obtain ⟨h1, h2, h3⟩ := hb
    have key : ∀ o l, BestBelow s (d + 1) o l →
        (scanFrom s n (d + 1) o l).Meets (fun r => BestBelow s (d + (n + 1)) r.1 r.2) (fun _ => False) (fun _ _ => False)
          False := by
      intro o l hol
      have := ih (d + 1) o l (by omega) (by omega) hol
      rwa [show d + 1 + n = d + (n + 1) by omega] at this
    split
    · rename_i hbest
      refine key d k ⟨fun e m he hed hm => ?_, fun h0 => by omega, fun _ => ⟨hd, by omega, hk, fun e m he hed => by omega⟩⟩
      rcases Nat.lt_succ_iff_lt_or_eq.mp hed with hed | rfl
      · exact le_trans (h1 e m he hed hm) hbest.2
      · exact le_of_eq (agrees_unique hm hk)
    · rename_i hbest
      refine key off len ⟨fun e m he hed hm => ?_, h2, fun hl => ?_⟩
      · rcases Nat.lt_succ_iff_lt_or_eq.mp hed with hed | rfl
        · exact h1 e m he hed hm
        · rw [agrees_unique hm hk]; omega
      · obtain ⟨g1, g2, g3, g4⟩ := h3 hl
        refine ⟨g1, by omega, g3, fun e m he hed hm => ?_⟩
        rcases Nat.lt_succ_iff_lt_or_eq.mp hed with hed | rfl
        · exact g4 e m he hed hm
        · rw [agrees_unique hm hk]; omega

/-- FIND_LONGEST_MATCH (R126) always answers a Code of the format that stands for the next bytes of the chunk
(42_compress.md R148), and reads nothing outside it (R128). -/
theorem findLongestMatch_meets {s : State} (hp : s.cfg.Legal) (h : ScanReady s) :
    (findLongestMatch s).Meets (fun c => Code.Valid s.cfg c ∧ CodeStandsFor s c) (fun _ => False) (fun _ _ => False)
      False := by
  unfold findLongestMatch
  split
  · obtain ⟨b, hb, hr⟩ := h.read h.unread
    rw [hr]
    exact ⟨⟨by simp, by simp, by simp⟩, h.unread, hb, by simp, by simp⟩
  · rename_i hrem
    have hmm : s.cfg.maxMatch + 1 = s.cfg.lookaheadSize := by
      have := hp.2.2.2.1
      unfold Params.maxMatch
      omega
    have hroom : s.pos + s.cfg.maxMatch < s.clen := by omega
    have hws := h.window
    rw [if_pos (by omega)]
    refine Res.Meets.seq (scanFrom_meets h hroom (s.pos - s.wstart) 1 0 0 le_rfl (by omega)
      ⟨fun e k he hed => by omega, fun _ => rfl, fun h0 => by omega⟩) ?_
    rintro ⟨off, len⟩ ⟨-, h2, h3⟩
    simp only at h2 h3
    have hlen : len ≤ s.cfg.maxMatch ∧ off ≤ s.pos - s.wstart ∧ (len = 0 ↔ off = 0) ∧
        ∀ k, k < len → memGet s.chunk (s.pos - off + k) = memGet s.chunk (s.pos + k) := by
      rcases Nat.eq_zero_or_pos len with rfl | hl
      · have := h2 rfl
        subst this
        simp
      · obtain ⟨g1, g2, g3, -⟩ := h3 hl
        exact ⟨g3.1, by omega, by omega, g3.2.1⟩
    obtain ⟨b, hb, hr⟩ := h.read (i := s.pos + len) (by omega)
    simp only [hr, andThen_ok, meets_ok]
    refine ⟨⟨hlen.2.2.1, by simp only; omega, hlen.1⟩, by simp only; omega, hb, hlen.2.1, fun k hk => ?_⟩
    have hk' : k < len := hk
    obtain ⟨x, hx, -⟩ := h.read (i := s.pos + k) (by omega)
    exact ⟨x, by rw [hlen.2.2.2 k hk, hx], hx⟩

end Sys2Proof.Machine
end

