-- ==== Sys2Proof/Laws/CompInv.lean ====
section
/-! SUPPORT. The compressor keeps its invariant (`CompInv`), never faults, is never refused and never raises
CapacityExceeded: operation by operation (60_exceptions.md R193, 42_compress.md R149). -/

namespace Sys2Proof.Machine

/-- The bits of ACC below the pending ones are zero (10_state.md R24). -/
def AccClear (s : State) : Prop := ∀ j, j < 8 - s.fill → s.acc.getLsbD j = false

/-- The chunk, its cursors and the Code register are the same. -/
def SameChunk (s t : State) : Prop :=
  t.cfg = s.cfg ∧ t.clen = s.clen ∧ t.pos = s.pos ∧ t.wstart = s.wstart ∧ t.chunk = s.chunk ∧ t.creg = s.creg

theorem SameChunk.refl (s : State) : SameChunk s s := by simp [SameChunk]

theorem SameChunk.trans {s t u : State} (h1 : SameChunk s t) (h2 : SameChunk t u) : SameChunk s u := by
  simp_all [SameChunk]

/-- Writing one bit changes that bit only. -/
theorem writeBit_getLsbD (x : Byte) {i : Nat} (hi : i < 8) (b : Bool) (j : Nat) :
    (writeBit x i b).getLsbD j = if j = i then b else x.getLsbD j := by
  have h2 : (BitVec.ofNat 8 (2 ^ i)).getLsbD j = decide (j = i) := by
    rw [BitVec.getLsbD_ofNat]
    by_cases hj : j = i
    · subst hj; simp [hi]
    · have : ¬ i = j := fun h => hj h.symm
      simp [hj, this]
  unfold writeBit
  cases b
  · simp only [Bool.false_eq_true, if_false, BitVec.getLsbD_and, BitVec.getLsbD_not, h2]
    by_cases hj : j = i
    · simp [hj]
    · simp only [hj, decide_false, Bool.not_false, if_false]
      by_cases h8 : j < 8
      · simp [h8]
      · simp [BitVec.getLsbD_of_ge x j (by omega)]
  · simp only [if_true, BitVec.getLsbD_or, h2]
    by_cases hj : j = i <;> simp [hj]

/-- The second half of PUT_BIT (R100). -/
theorem sendFull_inv {s : State} (h8 : s.fill ≤ 8) (hacc : AccClear s) : (sendFull s).Meets
    (fun t => t.fill ≤ 7 ∧ AccClear t ∧ SameChunk s t) (fun t => t = s ∧ s.fill = 8) (fun e _ => e = .ioFailure) False := by
  unfold sendFull
  split
  · rename_i h
    refine Res.Meets.seq ((snkWrite_meets s.acc s).mono (fun _ h => h) (fun t ht => ⟨ht.2, h⟩) (fun _ _ h => h.1) id) ?_
    rintro t ⟨rest, -, rfl⟩
    exact ⟨by simp, fun j _ => by simp, by simp [SameChunk]⟩
  · rename_i h
    exact ⟨by omega, hacc, .refl s⟩

/-- PUT_BIT (R100). -/
theorem putBit_inv {s : State} (b : Bool) (h7 : s.fill ≤ 7) (hacc : AccClear s) : (putBit b s).Meets
    (fun t => t.fill ≤ 7 ∧ AccClear t ∧ SameChunk s t) (fun t => t.fill = 8 ∧ SameChunk s t) (fun e _ => e = .ioFailure)
    False := by
  unfold putBit
  rw [if_pos h7]
  refine (sendFull_inv (s := { s with acc := writeBit s.acc (7 - s.fill) b, fill := s.fill + 1 }) (by simp only; omega)
    ?_).mono (fun t h => h) ?_ (fun _ _ h => h) id
  · intro j hj
    simp only at hj ⊢
    rw [writeBit_getLsbD _ (by omega), if_neg (by omega)]
    exact hacc j (by omega)
  · rintro t ⟨rfl, h⟩
    exact ⟨h, by simp [SameChunk]⟩

/-- PUT_BIT of each bit (R101); where it waits the accumulator is full and the bits left are noted. -/
theorem putBits_inv (bits : List Bool) {s : State} (h7 : s.fill ≤ 7) (hacc : AccClear s) : (putBits bits s).Meets
    (fun t => t.fill ≤ 7 ∧ AccClear t ∧ SameChunk s t)
    (fun t => t.fill = 8 ∧ SameChunk s t ∧ ∃ rest, t.cphase = .emit rest) (fun e _ => e = .ioFailure) False := by
  induction bits generalizing s with
  | nil => exact ⟨h7, hacc, .refl s⟩
  | cons b rest ih =>
    refine Res.Meets.seq (ok := fun t => t.fill ≤ 7 ∧ AccClear t ∧ SameChunk s t) (Res.Meets.parkAt
      ((putBit_inv b h7 hacc).mono (fun _ h => h) (fun t ht => ⟨ht.1, ht.2, rest, rfl⟩) (fun _ _ h => h) id)) ?_
    rintro t ⟨ht1, ht2, ht3⟩
    exact (ih ht1 ht2).mono (fun u hu => ⟨hu.1, hu.2.1, ht3.trans hu.2.2⟩) (fun u hu => ⟨hu.1, ht3.trans hu.2.1, hu.2.2⟩)
      (fun _ _ h => h) id

/-- The bits of a Code of the format always fit their fields (R144, R101). -/
theorem codeBits_ok {p : Params} (hp : p.Legal) {c : Code} (hc : Code.Valid p c) : codeBits p c = .ok (encodeCode p c) := by
  obtain ⟨h1, h2, h3⟩ := hc
  have hm := hp.maxMatch
  have hw := hp.pow_offBits
  have hlit : c.lit.toNat < 2 ^ litBits := c.lit.isLt
  have hl : fieldBits c.len p.lenBits = .ok (bitsOf p.lenBits c.len) := by unfold fieldBits; rw [if_pos (by omega)]
  have hb : fieldBits c.lit.toNat litBits = .ok (bitsOf litBits c.lit.toNat) := by unfold fieldBits; rw [if_pos hlit]
  unfold codeBits encodeCode
  rw [hl, andThen_ok]
  by_cases h0 : 0 < c.len
  · have ho : fieldBits (c.off - 1) p.offBits = .ok (bitsOf p.offBits (c.off - 1)) := by
      unfold fieldBits
      rw [if_pos (by omega)]
    rw [if_pos h0, if_pos h0, ho, andThen_ok, hb, andThen_ok]
  · rw [if_neg h0, if_neg h0, andThen_ok, hb, andThen_ok]

/-- What a step of the compressor that goes on guarantees. -/
def CompOk (s t : State) : Prop := t.cfg = s.cfg ∧ Memory.wf t.chunk ∧ CompInv t

/-- ADVANCE after the bits of a Code are put (R145): POS stays within CLEN. -/
theorem advance_inv {s t : State} (hc : s.clen ≤ s.cfg.chunkCap) (hwr : ∀ i, i < s.clen → (memGet s.chunk i).isSome)
    (hwf : Memory.wf s.chunk) (hpos : s.pos + s.creg.len + 1 ≤ s.clen)
    (ht7 : t.fill ≤ 7) (hacc : AccClear t) (hst : SameChunk s t) : (advance t).Meets
    (CompOk s) (CompOk s) (fun e _ => e = .ioFailure) False := by
  obtain ⟨a1, a2, a3, a4, a5, a6⟩ := hst
  unfold advance
  rw [if_pos (by rw [a2, a3, a6]; exact hpos)]
  refine ⟨a1, by simpa only [a5] using hwf, ?_, ?_, rfl, ?_, hacc, ?_⟩
  · simpa only [a1, a2] using hc
  · simpa only [a2, a3, a6] using hpos
  · simpa only [a2, a5] using hwr
  · simpa only [CPhaseInv] using ht7

/-- One step of COMPRESS (R140): what it leaves, where it goes on or waits; it never faults, is never refused, and the only
error it raises is IOFailure (60_exceptions.md R190, R194). -/
theorem compressStep_inv {s : State} (hp : s.cfg.Legal) (hwf : Memory.wf s.chunk) (h : CompInv s) : (compressStep s).Meets
    (fun t => CompOk s t ∨ ∃ u, t = complete u ∧ u.cfg = s.cfg ∧ Memory.wf u.chunk) (CompOk s) (fun e _ => e = .ioFailure)
    False := by
  obtain ⟨h1, h2, h3, h4, h5, h6⟩ := h
  have emitted : ∀ (bits : List Bool) {t : State}, t.fill ≤ 7 → AccClear t → t.cfg = s.cfg → t.clen = s.clen → t.pos = s.pos →
      t.wstart = s.wstart → t.chunk = s.chunk → s.pos + t.creg.len + 1 ≤ s.clen →
      ((putBits bits t).andThen advance).Meets (CompOk s) (CompOk s) (fun e _ => e = .ioFailure) False := by
    intro bits t ht7 hacc a1 a2 a3 a4 a5 hlen
    refine Res.Meets.seq ((putBits_inv bits ht7 hacc).mono (fun _ h => h) ?_ (fun _ _ h => h) id) ?_
    · rintro u ⟨hu8, ⟨b1, b2, b3, b4, b5, b6⟩, rest, hph⟩
      refine ⟨b1.trans a1, by rw [b5, a5]; exact hwf, ?_, ?_, ?_, ?_, ?_, ?_⟩
      · rw [b1, b2, a1, a2]; exact h1
      · rw [b2, b3, a2, a3]; exact h2
      · rw [b1, b3, b4, a1, a3, a4]; exact h3
      · rw [b2, b5, a2, a5]; exact h4
      · intro j hj; rw [hu8] at hj; omega
      · simp only [CPhaseInv, hph]
        exact ⟨hu8, by rw [b2, b3, b6, a2, a3]; exact hlen⟩
    · rintro u ⟨hu7, huacc, hst⟩
      refine (advance_inv (s := t) (by rw [a1, a2]; exact h1) (by rw [a2, a5]; exact h4) (by rw [a5]; exact hwf)
        (by rw [a2, a3]; exact hlen) hu7 huacc hst).mono ?_ ?_ (fun _ _ h => h) id
      · rintro v ⟨c1, c2⟩; exact ⟨c1.trans a1, c2⟩
      · rintro v ⟨c1, c2⟩; exact ⟨c1.trans a1, c2⟩
  unfold compressStep
  split
  · rename_i hph
    have h7 : s.fill ≤ 7 := by simpa [CPhaseInv, hph] using h6
    have fill : ∀ (n : Nat) (t : State), t.cfg = s.cfg → t.cphase = .load → t.pos ≤ t.clen → t.wstart = t.pos - t.cfg.windowSize →
        t.fill ≤ 7 → AccClear t → t.clen + n ≤ t.cfg.chunkCap → Memory.wf t.chunk →
        (∀ i, i < t.clen → (memGet t.chunk i).isSome) →
        (fillChunk n t).Meets (fun u => CompOk s u ∧ u.fill ≤ 7) (CompOk s) (fun e _ => e = .ioFailure) False := by
      intro n
      induction n with
      | zero =>
        intro t c1 c2 c3 c4 c5 c6 c7 c8 c9
        exact ⟨⟨c1, c8, by omega, c3, c4, c9, c6, by simpa [CPhaseInv, c2] using c5⟩, c5⟩
      | succ n ih =>
        intro t c1 c2 c3 c4 c5 c6 c7 c8 c9
        have here : CompOk s t := ⟨c1, c8, by omega, c3, c4, c9, c6, by simpa [CPhaseInv, c2] using c5⟩
        unfold fillChunk
        split
        · exact ⟨here, c5⟩
        · refine Res.Meets.seq ((srcRead_meets t).mono (fun _ h => h) (fun u hu => by rw [hu.2]; exact here)
            (fun _ _ h => h.1) id) ?_
          rintro ⟨o, u⟩ (⟨b, rest, -, hr⟩ | ⟨rest, -, hr⟩)
          · simp only [Prod.mk.injEq] at hr
            obtain ⟨rfl, rfl⟩ := hr
            simp only [chunkWrite]
            rw [if_pos (by omega), andThen_ok]
            refine ih _ c1 c2 ?_ c4 c5 c6 ?_ (memSet_wf _ _ c8) ?_
            · simp only; omega
            · simp only; omega
            · intro i hi
              simp only at hi ⊢
              rw [memGet_memSet]
              split
              · rfl
              · exact c9 i (by omega)
          · simp only [Prod.mk.injEq] at hr
            obtain ⟨rfl, rfl⟩ := hr
            exact ⟨⟨c1, c8, by simp only; omega, c3, c4, c9, c6, by simpa [CPhaseInv, c2] using c5⟩, c5⟩
    refine Res.Meets.seq ((fill (s.cfg.chunkCap - s.clen) s rfl hph h2 h3 h7 h5 (by omega) hwf h4).mono (fun _ h => h)
      (fun _ h => h) (fun _ _ h => h) id) ?_
    rintro t ⟨⟨c1, c2, c3, c4, c5, c6, c7, -⟩, c8⟩
    split
    · exact Or.inl ⟨c1, c2, c3, c4, c5, c6, c7, by simpa [CPhaseInv] using c8⟩
    · exact Or.inl ⟨c1, c2, c3, Nat.zero_le _, by simp, c6, c7, by simpa [CPhaseInv] using c8⟩
  · rename_i hph
    have h7 : s.fill ≤ 7 := by simpa [CPhaseInv, hph] using h6
    unfold scanStep
    split
    · rename_i hlt
      unfold codeStep
      refine Res.Meets.seq ((findLongestMatch_meets hp ⟨hlt, h1, h3, h4⟩).mono (fun _ h => h)
        (fun _ h => h.elim) (fun _ _ h => h.elim) id) ?_
      rintro c ⟨hv, hs⟩
      have hset : setCode c s = .ok { s with creg := c } := by
        unfold setCode
        rw [if_pos ⟨hv.2.1, hv.2.2⟩]
      rw [hset, andThen_ok, codeBits_ok hp hv, andThen_ok]
      refine (emitted (encodeCode s.cfg c) (t := { s with creg := c }) h7 h5 rfl rfl rfl rfl rfl ?_).mono_ok
        fun _ h => Or.inl h
      have := hs.1
      simp only
      omega
    · split
      · exact Or.inl ⟨rfl, hwf, h1, h2, h3, h4, h5, by simpa [CPhaseInv] using h7⟩
      · exact Or.inl ⟨rfl, hwf, Nat.zero_le _, le_rfl, by simp, fun i hi => absurd hi (Nat.not_lt_zero _), h5,
          by simpa [CPhaseInv] using h7⟩
  · rename_i rest hph
    obtain ⟨h8, hlen⟩ : s.fill = 8 ∧ s.pos + s.creg.len + 1 ≤ s.clen := by simpa [CPhaseInv, hph] using h6
    unfold emitStep
    refine Res.Meets.mono_ok (Res.Meets.seq (ok := fun t => t.fill ≤ 7 ∧ AccClear t ∧ SameChunk s t) (Res.Meets.parkAt
      ((sendFull_inv (by omega) h5).mono (fun _ h => h) ?_ (fun _ _ h => h) id)) ?_) fun _ h => Or.inl h
    · rintro t ⟨rfl, -⟩
      exact ⟨rfl, hwf, h1, h2, h3, h4, h5, by simpa [CPhaseInv] using ⟨h8, hlen⟩⟩
    · rintro t ⟨ht7, hacc, a1, a2, a3, a4, a5, a6⟩
      exact emitted rest ht7 hacc a1 a2 a3 a4 a5 (by rw [a6]; exact hlen)
  · rename_i hph
    have h7 : s.fill ≤ 7 := by simpa [CPhaseInv, hph] using h6
    unfold finishCompress flushBits
    split
    · rw [andThen_assoc]
      refine Res.Meets.seq ((snkWrite_meets s.acc s).mono (fun _ h => h)
        (fun t ht => by rw [ht.2]; exact ⟨rfl, hwf, h1, h2, h3, h4, h5, h6⟩) (fun _ _ h => h.1) id) ?_
      rintro t ⟨rest, -, rfl⟩
      exact Or.inr ⟨_, rfl, rfl, hwf⟩
    · exact Or.inr ⟨_, rfl, rfl, hwf⟩

end Sys2Proof.Machine
end

