-- ==== Sys2Proof/Laws/Ring.lean ====
section
/-! SUPPORT. What the RingBuffer operations do: sending a stretch of RING, the reseed, a ring flush, APPEND_BYTE
(43_decompress.md R166, R167), in terms of the bytes RING holds. -/

namespace Sys2Proof.Machine

/-- Every entry of RING below `n` holds a value. -/
def RingHas (s : State) (n : Nat) : Prop := ∀ i, i < n → (memGet s.ring i).isSome

theorem RingHas.get {s : State} {n i : Nat} (h : RingHas s n) (hi : i < n) : ∃ b, memGet s.ring i = some b :=
  Option.isSome_iff_exists.mp (h i hi)

/-- A stretch of RING whose entries hold values has its length. -/
theorem ringSlice_length {s : State} {hi : Nat} (h : RingHas s hi) (i n : Nat) (hn : i + n ≤ hi) :
    (ringSlice s i n).length = n := by
  induction n generalizing i with
  | zero => rfl
  | succ n ih =>
    obtain ⟨b, hb⟩ := h.get (i := i) (by omega)
    simp [ringSlice, hb, ih (i + 1) (by omega)]

/-- The entries of a stretch of RING. -/
theorem ringSlice_get {s : State} {hi : Nat} (h : RingHas s hi) (i n : Nat) (hn : i + n ≤ hi) (k : Nat) (hk : k < n) :
    (ringSlice s i n)[k]? = memGet s.ring (i + k) := by
  induction n generalizing i k with
  | zero => omega
  | succ n ih =>
    obtain ⟨b, hb⟩ := h.get (i := i) (by omega)
    cases k with
    | zero => simp [ringSlice, hb]
    | succ k =>
      simp only [ringSlice, hb, List.getElem?_cons_succ]
      rw [ih (i + 1) (by omega) k (by omega)]
      congr 1
      omega

/-- Two stretches with the same entries are equal. -/
theorem ringSlice_congr {s t : State} {i j n : Nat} (h : ∀ k, k < n → memGet t.ring (j + k) = memGet s.ring (i + k)) :
    ringSlice t j n = ringSlice s i n := by
  induction n generalizing i j with
  | zero => rfl
  | succ n ih =>
    have h0 := h 0 (by omega)
    simp only [Nat.add_zero] at h0
    simp only [ringSlice, h0]
    split
    · rw [ih (i := i + 1) (j := j + 1) fun k hk => ?_]
      have := h (k + 1) (by omega)
      rwa [show j + 1 + k = j + (k + 1) by omega, show i + 1 + k = i + (k + 1) by omega]
    · rfl

/-- A stretch cut in two. -/
theorem ringSlice_add {s : State} {hi : Nat} (h : RingHas s hi) (i m n : Nat) (hn : i + m ≤ hi) :
    ringSlice s i (m + n) = ringSlice s i m ++ ringSlice s (i + m) n := by
  induction m generalizing i with
  | zero => simp [ringSlice]
  | succ m ih =>
    obtain ⟨b, hb⟩ := h.get (i := i) (by omega)
    rw [show m + 1 + n = m + n + 1 by omega]
    simp only [ringSlice, hb, List.cons_append]
    rw [ih (i + 1) (by omega), show i + 1 + m = i + (m + 1) by omega]

/-- A stretch one longer. -/
theorem ringSlice_snoc {s : State} {hi : Nat} (h : RingHas s hi) (i n : Nat) (hn : i + n ≤ hi) {b : Byte}
    (hb : memGet s.ring (i + n) = some b) : ringSlice s i (n + 1) = ringSlice s i n ++ [b] := by
  rw [ringSlice_add h i n 1 hn]
  simp [ringSlice, hb]

/-- Sending RING[i .. i + n − 1] (R167, R168): the bytes are appended to SNK in order; where it waits the bytes before the
noted index have been sent. -/
theorem sendRing_meets (park : Nat → DPhase) (n i : Nat) {s : State} {hi : Nat} (h : RingHas s hi) (hc : hi ≤ s.cfg.ringCap)
    (hn : i + n ≤ hi) : (sendRing park n i s).Meets
      (fun t => ∃ ans, t = { s with snk := s.snk ++ ringSlice s i n, snkAns := ans })
      (fun t => ∃ m, m < n ∧ t = { s with snk := s.snk ++ ringSlice s i m, snkAns := [], dphase := park (i + m) })
      (fun e t => e = .ioFailure ∧ ∃ m ans, m < n ∧ t = { s with snk := s.snk ++ ringSlice s i m, snkAns := ans }) False := by
  induction n generalizing i s with
  | zero => exact ⟨s.snkAns, by simp [ringSlice]⟩
  | succ n ih =>
    obtain ⟨b, hb⟩ := h.get (i := i) (by omega)
    rw [sendRing, ringRead_ok (by omega) hb, andThen_ok]
    refine Res.Meets.seq (ok := fun t => ∃ ans, t = { s with snk := s.snk ++ [b], snkAns := ans }) (Res.Meets.parkAt
      ((snkWrite_meets b s).mono ?_ ?_ ?_ id)) ?_
    · rintro t ⟨rest, -, rfl⟩; exact ⟨rest, rfl⟩
    · rintro t ⟨he, rfl⟩; exact ⟨0, by omega, by simp [ringSlice, he]⟩
    · rintro e t ⟨he, rest, -, rfl⟩; exact ⟨he, 0, rest, by omega, by simp [ringSlice]⟩
    · rintro t ⟨ans, rfl⟩
      have hs : ∀ m, ringSlice { s with snk := s.snk ++ [b], snkAns := ans } (i + 1) m = ringSlice s (i + 1) m :=
        fun m => ringSlice_congr fun k _ => rfl
      have hcons : ∀ m, ringSlice s i (m + 1) = b :: ringSlice s (i + 1) m := fun m => by simp [ringSlice, hb]
      refine (ih (i + 1) (s := { s with snk := s.snk ++ [b], snkAns := ans }) h hc (by omega)).mono ?_ ?_ ?_ id
      · rintro u ⟨ans', rfl⟩
        exact ⟨ans', by simp [hs, hcons]⟩
      · rintro u ⟨m, hm, rfl⟩
        exact ⟨m + 1, by omega, by simp [hs, hcons, show i + 1 + m = i + (m + 1) by omega]⟩
      · rintro e u ⟨he, m, ans', hm, rfl⟩
        exact ⟨he, m + 1, ans', by omega, by simp [hs, hcons]⟩

/-- The reseed (R167): the entries below WINDOW_SIZE become those of the top of the buffer, the others stay; source and
destination do not overlap because RING_CAP ≥ 2 × WINDOW_SIZE. -/
theorem reseed_meets (n j : Nat) {s : State} (hcap : 2 * s.cfg.windowSize ≤ s.cfg.ringCap) (h : RingHas s s.cfg.ringCap)
    (hn : j + n ≤ s.cfg.windowSize) : (reseed n j s).Meets
      (fun t => ∃ r, t = { s with ring := r } ∧ (Memory.wf s.ring → Memory.wf r) ∧ ∀ i, memGet r i =
        if j ≤ i ∧ i < j + n then memGet s.ring (s.cfg.ringCap - s.cfg.windowSize + i) else memGet s.ring i)
      (fun _ => False) (fun _ _ => False) False := by
  induction n generalizing j s with
  | zero =>
    refine ⟨s.ring, rfl, id, fun i => ?_⟩
    rw [if_neg (by omega)]
  | succ n ih =>
    obtain ⟨b, hb⟩ := h.get (i := s.cfg.ringCap - s.cfg.windowSize + j) (by omega)
    have hw : ringWrite j b s = .ok { s with ring := memSet s.ring j b } := by
      unfold ringWrite
      rw [if_pos (by omega)]
    rw [reseed, ringRead_ok (by omega) hb, andThen_ok, hw, andThen_ok]
    refine (ih (j + 1) (s := { s with ring := memSet s.ring j b }) hcap ?_ (by simp only; omega)).mono ?_ (fun _ h => h)
      (fun _ _ h => h) id
    · intro i hi
      simp only [memGet_memSet]
      split
      · rfl
      · exact h i hi
    · rintro t ⟨r, rfl, hwf, hr⟩
      refine ⟨r, rfl, fun hs => hwf (memSet_wf _ _ hs), fun i => ?_⟩
      have hr' : memGet r i = if j + 1 ≤ i ∧ i < j + 1 + n then
          if s.cfg.ringCap - s.cfg.windowSize + i = j then some b else memGet s.ring (s.cfg.ringCap - s.cfg.windowSize + i)
          else if i = j then some b else memGet s.ring i := by
        rw [hr i]; simp only [memGet_memSet]
      rw [hr']
      by_cases h1 : i = j
      · subst h1
        have hA : ¬ (i + 1 ≤ i ∧ i < i + 1 + n) := by omega
        have hB : i ≤ i ∧ i < i + (n + 1) := by omega
        rw [if_neg hA, if_pos rfl, if_pos hB, hb]
      · by_cases h2 : j + 1 ≤ i ∧ i < j + 1 + n
        · have hA : ¬ s.cfg.ringCap - s.cfg.windowSize + i = j := by omega
          have hB : j ≤ i ∧ i < j + (n + 1) := by omega
          rw [if_pos h2, if_neg hA, if_pos hB]
        · have hB : ¬ (j ≤ i ∧ i < j + (n + 1)) := by omega
          rw [if_neg h2, if_neg h1, if_neg hB]

/-- What a finished ring flush leaves (R167): WP and FBASE at WINDOW_SIZE, the bytes from `i` on sent, and RING[0 ..
WINDOW_SIZE − 1] the top of the old buffer. -/
def Flushed (i : Nat) (s t : State) : Prop :=
  ∃ r ans, t = { s with
      ring := r, snk := s.snk ++ ringSlice s i (s.cfg.ringCap - i), snkAns := ans
      wp := s.cfg.windowSize, fbase := s.cfg.windowSize } ∧
    (Memory.wf s.ring → Memory.wf r) ∧
    (∀ j, j < s.cfg.windowSize → memGet r j = memGet s.ring (s.cfg.ringCap - s.cfg.windowSize + j)) ∧
    ∀ j, s.cfg.windowSize ≤ j → memGet r j = memGet s.ring j

/-- What a ring flush that waits leaves: the bytes before the noted index have been sent, nothing else has changed. -/
def FlushWaits (i : Nat) (acts : List Act) (s t : State) : Prop :=
  ∃ m, i + m < s.cfg.ringCap ∧
    t = { s with snk := s.snk ++ ringSlice s i m, snkAns := [], dphase := .ringFlush (i + m) acts }

/-- RING_FLUSH from RING[i] on (R167). -/
theorem ringFlushFrom_meets (i : Nat) (acts : List Act) {s : State} (hcap : 2 * s.cfg.windowSize ≤ s.cfg.ringCap)
    (h : RingHas s s.cfg.ringCap) (hi : i ≤ s.cfg.ringCap) : (ringFlushFrom i acts s).Meets
      (Flushed i s) (FlushWaits i acts s)
      (fun e t => e = .ioFailure ∧ ∃ m ans, i + m < s.cfg.ringCap ∧
        t = { s with snk := s.snk ++ ringSlice s i m, snkAns := ans }) False := by
  unfold ringFlushFrom
  refine Res.Meets.seq ((sendRing_meets (fun j => .ringFlush j acts) (s.cfg.ringCap - i) i h le_rfl (by omega)).mono
    (fun _ h => h) ?_ ?_ id) ?_
  · rintro t ⟨m, hm, rfl⟩; exact ⟨m, by omega, rfl⟩
  · rintro e t ⟨he, m, ans, hm, rfl⟩; exact ⟨he, m, ans, by omega, rfl⟩
  · rintro t ⟨ans, rfl⟩
    refine Res.Meets.seq ((reseed_meets _ 0 (s := { s with snk := s.snk ++ ringSlice s i (s.cfg.ringCap - i), snkAns := ans })
      hcap h (by simp)).mono (fun _ h => h) (fun _ h => h.elim) (fun _ _ h => h.elim) id) ?_
    rintro u ⟨r, rfl, hwf, hr⟩
    refine ⟨r, ans, rfl, hwf, fun j hj => ?_, fun j hj => ?_⟩
    · rw [hr j, if_pos ⟨Nat.zero_le _, by simpa using hj⟩]
    · rw [hr j, if_neg (by simp only; omega)]

/-- What APPEND_BYTE leaves without a flush (R166). -/
def Appended (b : Byte) (s : State) : State := { s with ring := memSet s.ring s.wp b, wp := s.wp + 1 }

theorem Appended.ringHas {b : Byte} {s : State} (h : RingHas s s.wp) : RingHas (Appended b s) (s.wp + 1) := by
  intro i hi
  simp only [Appended, memGet_memSet]
  split
  · rfl
  · exact h i (by omega)

/-- APPEND_BYTE(b) (R166): the byte is written at WP and WP moves on; when the buffer is full it is flushed. -/
theorem appendByte_meets (b : Byte) (acts : List Act) {s : State} (hcap : 2 * s.cfg.windowSize ≤ s.cfg.ringCap)
    (h : RingHas s s.wp) (hwp : s.wp < s.cfg.ringCap) (hf : s.fbase ≤ s.wp) : (appendByte b acts s).Meets
      (fun t => if s.wp + 1 = s.cfg.ringCap then Flushed s.fbase (Appended b s) t else t = Appended b s)
      (fun t => s.wp + 1 = s.cfg.ringCap ∧ FlushWaits s.fbase acts (Appended b s) t)
      (fun e t => e = .ioFailure ∧ s.wp + 1 = s.cfg.ringCap ∧ ∃ m ans, s.fbase + m < s.cfg.ringCap ∧
        t = { Appended b s with snk := s.snk ++ ringSlice (Appended b s) s.fbase m, snkAns := ans }) False := by
  have hw : ringWrite s.wp b s = .ok { s with ring := memSet s.ring s.wp b } := by
    unfold ringWrite
    rw [if_pos hwp]
  unfold appendByte
  rw [hw, andThen_ok]
  split
  · rename_i hfull
    have hfull' : s.wp + 1 = s.cfg.ringCap := hfull
    have hh : RingHas (Appended b s) (Appended b s).cfg.ringCap := by
      have := Appended.ringHas (b := b) h
      rwa [hfull'] at this
    refine (ringFlushFrom_meets s.fbase acts (s := Appended b s) hcap hh (by simp only [Appended]; omega)).mono ?_ ?_ ?_ id
    · intro t ht; exact ht
    · intro t ht; exact ⟨hfull', ht⟩
    · rintro e t ⟨he, m, ans, hm, ht⟩; exact ⟨he, hfull', m, ans, hm, ht⟩
  · rename_i hfull
    rfl

end Sys2Proof.Machine
end

