-- ==== Sys2Proof/Laws/DecompInv.lean ====
section
/-! SUPPORT. The decompressor keeps its invariant (`DecompInv`), never faults, is never refused and never raises
CapacityExceeded: operation by operation (60_exceptions.md R193, 43_decompress.md R171). -/

namespace Sys2Proof.Machine

/-- What holds of RING and its cursors outside a flush (10_state.md R28, R30). -/
def RingOk (s : State) : Prop :=
  s.wp < s.cfg.ringCap ∧ s.fbase ≤ s.wp ∧ (s.fbase = 0 ∨ s.fbase = s.cfg.windowSize) ∧ RingHas s s.wp ∧ Memory.wf s.ring

/-- What holds of RING and its cursors where a flush waits with `acts` left to do. -/
def RingParked (acts : List Act) (s : State) : Prop :=
  s.wp = s.cfg.ringCap ∧ s.fbase ≤ s.wp ∧ (s.fbase = 0 ∨ s.fbase = s.cfg.windowSize) ∧ RingHas s s.wp ∧ Memory.wf s.ring ∧
  ∃ i, s.dphase = .ringFlush i acts ∧ s.fbase ≤ i ∧ i < s.cfg.ringCap

/-- What applying a Code leaves alone beside what `KeepsD` says. -/
def SameBatch (s t : State) : Prop :=
  t.cfg = s.cfg ∧ t.fill = s.fill ∧ t.bcnt = s.bcnt ∧ t.eos = s.eos ∧ t.batch = s.batch ∧ t.aidx = s.aidx

theorem SameBatch.refl (s : State) : SameBatch s s := by simp [SameBatch]

theorem SameBatch.trans {s t u : State} (h1 : SameBatch s t) (h2 : SameBatch t u) : SameBatch s u := by
  simp_all [SameBatch]

/-- A finished flush leaves the cursors at WINDOW_SIZE and the window readable. -/
theorem Flushed.ringOk {i : Nat} {s t : State} (hcap : 2 * s.cfg.windowSize ≤ s.cfg.ringCap) (hW : 2 ≤ s.cfg.windowSize)
    (h : RingHas s s.cfg.ringCap) (hwf : Memory.wf s.ring) (ht : Flushed i s t) :
    RingOk t ∧ SameBatch s t ∧ t.wp = t.cfg.windowSize := by
  obtain ⟨r, ans, rfl, h1, h2, -⟩ := ht
  refine ⟨⟨by simp only; omega, le_rfl, Or.inr rfl, fun j hj => ?_, h1 hwf⟩, by simp [SameBatch], rfl⟩
  simp only at hj ⊢
  rw [h2 j hj]
  exact h _ (by omega)

/-- RING_FLUSH from a full buffer (R167). -/
theorem ringFlushFrom_inv {i : Nat} {acts : List Act} {s : State} (hp : s.cfg.Legal) (hwp : s.wp = s.cfg.ringCap)
    (hf : s.fbase ≤ i) (hf' : s.fbase = 0 ∨ s.fbase = s.cfg.windowSize) (hi : i < s.cfg.ringCap) (h : RingHas s s.wp)
    (hwf : Memory.wf s.ring) : (ringFlushFrom i acts s).Meets
      (fun t => RingOk t ∧ SameBatch s t ∧ t.wp = t.cfg.windowSize) (fun t => RingParked acts t ∧ SameBatch s t)
      (fun e _ => e = .ioFailure) False := by
  have hcap := hp.2.2.2.2.2.1
  have hh : RingHas s s.cfg.ringCap := by rwa [hwp] at h
  refine (ringFlushFrom_meets i acts hcap hh (by omega)).mono ?_ ?_ (fun _ _ h => h.1) id
  · intro t ht; exact ht.ringOk hcap hp.2.1 hh hwf
  · rintro t ⟨m, hm, rfl⟩
    exact ⟨⟨hwp, by simp only; omega, hf', h, hwf, i + m, rfl, by simp only; omega, hm⟩, by simp [SameBatch]⟩

/-- APPEND_BYTE (R166). -/
theorem appendByte_inv {b : Byte} {acts : List Act} {s : State} (hp : s.cfg.Legal) (h : RingOk s) : (appendByte b acts s).Meets
    (fun t => RingOk t ∧ SameBatch s t ∧ (t.wp = s.wp + 1 ∨ t.wp = t.cfg.windowSize))
    (fun t => RingParked acts t ∧ SameBatch s t) (fun e _ => e = .ioFailure) False := by
  obtain ⟨h1, h2, h3, h4, h5⟩ := h
  have hcap := hp.2.2.2.2.2.1
  have hA : RingHas (Appended b s) (s.wp + 1) := Appended.ringHas h4
  have hwfA : Memory.wf (Appended b s).ring := memSet_wf _ _ h5
  refine (appendByte_meets b acts hcap h4 h1 h2).mono ?_ ?_ (fun _ _ h => h.1) id
  · intro t ht
    split at ht
    · rename_i hfull
      obtain ⟨a1, a2, a3⟩ := ht.ringOk (s := Appended b s) hcap hp.2.1 (by rw [hfull] at hA; exact hA) hwfA
      exact ⟨a1, SameBatch.trans (by simp [SameBatch, Appended]) a2, Or.inr a3⟩
    · subst ht
      exact ⟨⟨by simp only [Appended]; omega, by simp only [Appended]; omega, h3, hA, hwfA⟩, by simp [SameBatch, Appended],
        Or.inl rfl⟩
  · rintro t ⟨hfull, m, hm, rfl⟩
    exact ⟨⟨hfull, by simp only [Appended]; omega, h3, hA, hwfA, s.fbase + m, rfl, by simp [Appended], hm⟩,
      by simp [SameBatch, Appended]⟩

/-- The bytes of a Code (R164, R165): every copy distance is within RING[0 .. WP − 1] and stays so, because WP only moves on
or becomes WINDOW_SIZE (R167). -/
theorem runActs_inv (acts : List Act) {s : State} (hp : s.cfg.Legal) (h : RingOk s) (hv : ∀ a ∈ acts, ActValid s.cfg a)
    (hw : ∀ off, Act.copy off ∈ acts → off ≤ s.wp) : (runActs acts s).Meets
      (fun t => RingOk t ∧ SameBatch s t ∧ t.dphase = .apply)
      (fun t => SameBatch s t ∧ ∃ rest, RingParked rest t ∧ ∀ a ∈ rest, ActValid s.cfg a) (fun e _ => e = .ioFailure)
      False := by
  induction acts generalizing s with
  | nil => exact ⟨h, by simp [SameBatch], rfl⟩
  | cons a acts ih =>
    refine Res.Meets.seq (ok := fun _ => True) ?_ fun b _ => ?_
    · cases a with
      | copy off =>
        have h1 := hv _ (by simp : Act.copy off ∈ Act.copy off :: acts)
        have h2 := hw off (by simp)
        obtain ⟨b, hb⟩ := RingHas.get h.2.2.2.1 (i := s.wp - off) (by have := h1.1; omega)
        have := h.1
        simp [actByte, copySource, h2, ringRead_ok (show s.wp - off < s.cfg.ringCap by omega) hb]
      | lit c => trivial
    · refine Res.Meets.seq ((appendByte_inv hp h).mono (fun _ h => h)
        (fun t ht => ⟨ht.2, acts, ht.1, fun a ha => hv a (by simp [ha])⟩) (fun _ _ h => h) id) ?_
      rintro t ⟨t1, t2, t3⟩
      have hcfg : t.cfg = s.cfg := t2.1
      refine (ih (s := t) (by rwa [hcfg]) t1 (fun a ha => by rw [hcfg]; exact hv a (by simp [ha])) fun off ho => ?_).mono ?_ ?_
        (fun _ _ h => h) id
      · have h1 : ActValid s.cfg (.copy off) := hv _ (by simp [ho])
        have h2 := hw off (by simp [ho])
        rcases t3 with t3 | t3
        · omega
        · rw [t3, hcfg]; exact h1.2
      · rintro u ⟨u1, u2, u3⟩; exact ⟨u1, t2.trans u2, u3⟩
      · rintro u ⟨u1, rest, u2, u3⟩; exact ⟨t2.trans u1, rest, u2, by rwa [hcfg] at u3⟩

theorem copyActs_valid {p : Params} {off n : Nat} {c : Byte} (h : CopyOperands p off n) :
    ∀ a ∈ copyActs off n c, ActValid p a := by
  intro a ha
  simp only [copyActs, List.mem_append, List.mem_replicate, List.mem_singleton] at ha
  rcases ha with ⟨-, rfl⟩ | rfl
  · exact ⟨h.1, h.2.1⟩
  · trivial

/-- COPY (R165, R169): the only errors are CorruptStream, when the distance leaves RING[0 .. WP − 1], and IOFailure. -/
theorem applyCopy_inv {off n : Nat} {c : Byte} {s : State} (hp : s.cfg.Legal) (h : RingOk s) (ho : CopyOperands s.cfg off n) :
    (applyCopy off n c s).Meets (fun t => RingOk t ∧ SameBatch s t ∧ t.dphase = .apply)
      (fun t => SameBatch s t ∧ ∃ rest, RingParked rest t ∧ ∀ a ∈ rest, ActValid s.cfg a)
      (fun e _ => e = .corruptStream ∨ e = .ioFailure) False := by
  unfold applyCopy
  rw [if_pos ho]
  split
  · exact Or.inl rfl
  · rename_i hle
    refine (runActs_inv _ hp h (copyActs_valid ho) fun off' hm => ?_).mono (fun _ h => h) (fun _ h => h) (fun _ _ h => Or.inr h)
      id
    simp only [copyActs, List.mem_append, List.mem_replicate, List.mem_singleton, Act.copy.injEq, reduceCtorEq, or_false] at hm
    omega

/-- LIT (R164). -/
theorem applyLit_inv {c : Byte} {s : State} (hp : s.cfg.Legal) (h : RingOk s) :
    (applyLit c s).Meets (fun t => RingOk t ∧ SameBatch s t ∧ t.dphase = .apply)
      (fun t => SameBatch s t ∧ ∃ rest, RingParked rest t ∧ ∀ a ∈ rest, ActValid s.cfg a)
      (fun e _ => e = .corruptStream ∨ e = .ioFailure) False := by
  refine (runActs_inv _ hp h ?_ ?_).mono (fun _ h => h) (fun _ h => h) (fun _ _ h => Or.inr h) id
  · intro a ha; simp only [List.mem_singleton] at ha; subst ha; trivial
  · intro off ho; simp at ho

/-! ### Decoding -/

/-- What GET_BIT leaves (40_bitcodec.md R103): FILL within 0..8, RING, BATCH and their cursors alone. -/
def TakeOk (s t : State) : Prop :=
  t.fill ≤ 8 ∧ t.cfg = s.cfg ∧ t.wp = s.wp ∧ t.fbase = s.fbase ∧ t.bcnt = s.bcnt ∧ t.eos = s.eos ∧ t.ring = s.ring ∧
  t.batch = s.batch ∧ t.aidx = s.aidx

theorem TakeOk.trans {s t u : State} (h1 : TakeOk s t) (h2 : TakeOk t u) : TakeOk s u := by
  simp_all [TakeOk]

/-- GET_BIT keeps FILL within its domain. -/
theorem getBit_inv {s : State} (h : s.fill ≤ 8) :
    (getBit s).Meets (fun r => TakeOk s r.2) (fun t => t = s) (fun e _ => e = .ioFailure) False := by
  unfold getBit
  split
  · refine Res.Meets.seq ((srcRead_meets s).mono (fun _ h => h) (fun t ht => ht.2) (fun _ _ h => h.1) id) ?_
    rintro ⟨o, t⟩ (⟨b, rest, -, hr⟩ | ⟨rest, -, hr⟩) <;> simp only [Prod.mk.injEq] at hr <;> obtain ⟨rfl, rfl⟩ := hr <;>
      simp [TakeOk, h]
  · refine ⟨?_, rfl, rfl, rfl, rfl, rfl, rfl, rfl, rfl⟩
    simp only
    omega

/-- A Code that is whole is taken as one when the bits already taken are not one. -/
theorem takeCode_inv (n : Nat) (got : List Bool) {s : State} (hp : s.cfg.Legal) (h : s.fill ≤ 8) :
    (takeCode n got s).Meets
      (fun r => TakeOk s r.2 ∧ ∀ c rest, r.1 = .code c rest → Code.Valid s.cfg c)
      (fun t => TakeOk s t ∧ ∃ got', t.dphase = .decode got' ∧ ∀ c rest, decodeCode s.cfg got' ≠ .code c rest)
      (fun e _ => e = .ioFailure) False := by
  induction n generalizing got s with
  | zero => exact ⟨by simp [TakeOk, h], fun c rest hc => (decodeCode_code hp hc).1⟩
  | succ n ih =>
    have go : ∀ d : Decoded, d = decodeCode s.cfg got → (∀ c rest, decodeCode s.cfg got ≠ .code c rest) →
        (((getBit s).parkAt fun t => { t with dphase := .decode got }).andThen fun r =>
          match r.1 with
          | none => .ok (d, r.2)
          | some b => takeCode n (got ++ [b]) r.2).Meets
        (fun r => TakeOk s r.2 ∧ ∀ c rest, r.1 = .code c rest → Code.Valid s.cfg c)
        (fun t => TakeOk s t ∧ ∃ got', t.dphase = .decode got' ∧ ∀ c rest, decodeCode s.cfg got' ≠ .code c rest)
        (fun e _ => e = .ioFailure) False := by
      intro d hd hne
      refine Res.Meets.seq (ok := fun r => TakeOk s r.2) (Res.Meets.parkAt ((getBit_inv h).mono (fun _ h => h) ?_
        (fun _ _ h => h) id)) ?_
      · rintro t rfl
        exact ⟨by simp [TakeOk, h], got, rfl, hne⟩
      · rintro ⟨o, t⟩ ht
        have hcfg : t.cfg = s.cfg := ht.2.1
        cases o with
        | none => exact ⟨ht, fun c rest hc => absurd (hd ▸ hc) (hne c rest)⟩
        | some b =>
          refine (ih (got ++ [b]) (s := t) (by rwa [hcfg]) ht.1).mono ?_ ?_ (fun _ _ h => h) id
          · rintro r ⟨r1, r2⟩; exact ⟨ht.trans r1, by rwa [hcfg] at r2⟩
          · rintro u ⟨u1, u2⟩; exact ⟨ht.trans u1, by rwa [hcfg] at u2⟩
    unfold takeCode
    split
    · rename_i c rest hc
      exact ⟨by simp [TakeOk, h], fun c' rest' hc' => by
        simp only [Decoded.code.injEq] at hc'
        obtain ⟨rfl, rfl⟩ := hc'
        exact (decodeCode_code hp hc).1⟩
    · rename_i hne
      exact go _ rfl fun c rest hc => hne c rest hc

/-! ### The steps of the decompressor -/

/-- What a step of the decompressor that goes on guarantees. -/
def DecompOk (s t : State) : Prop := t.cfg = s.cfg ∧ Memory.wf t.ring ∧ Memory.wf t.batch ∧ DecompInv t

theorem decomp_of_applied {s t : State} (hf : s.fill ≤ 8) (hb : s.bcnt ≤ s.cfg.batchCap) (hwf : Memory.wf s.batch)
    (hbc : ∀ i, i < s.bcnt → ∃ c, memGet s.batch i = some c ∧ Code.Valid s.cfg c) (hi : s.aidx ≤ s.bcnt)
    (h : RingOk t ∧ SameBatch s t ∧ t.dphase = .apply) : DecompOk s t := by
  obtain ⟨⟨r1, r2, r3, r4, r5⟩, ⟨b1, b2, b3, b4, b5, b6⟩, h3⟩ := h
  refine ⟨b1, r5, by rwa [b5], by rwa [b2], r1.le, r2, r3, r4, by rwa [b3, b1], ?_, ?_⟩
  · rw [b1, b3, b5]; exact hbc
  · simp only [DPhaseInv, h3]
    exact ⟨r1, by rwa [b3, b6]⟩

theorem decomp_of_parked {s t : State} (hf : s.fill ≤ 8) (hb : s.bcnt ≤ s.cfg.batchCap) (hwf : Memory.wf s.batch)
    (hbc : ∀ i, i < s.bcnt → ∃ c, memGet s.batch i = some c ∧ Code.Valid s.cfg c) (hi : s.aidx ≤ s.bcnt)
    (h : SameBatch s t ∧ ∃ rest, RingParked rest t ∧ ∀ a ∈ rest, ActValid s.cfg a) : DecompOk s t := by
  obtain ⟨⟨b1, b2, b3, b4, b5, b6⟩, rest, ⟨r1, r2, r3, r4, r5, i, hph, hfi, hic⟩, hv⟩ := h
  refine ⟨b1, r5, by rwa [b5], by rwa [b2], r1.le, r2, r3, r4, by rwa [b3, b1], ?_, ?_⟩
  · rw [b1, b3, b5]; exact hbc
  · simp only [DPhaseInv, hph]
    exact ⟨r1, hfi, hic, by rwa [b3, b6], by rwa [b1]⟩

/-- The condition of the invariant at the head of the loop of APPLY_BATCH, taken apart. -/
theorem DecompInv.atApply {s : State} (h : DecompInv s) (hph : s.dphase = .apply) (hwf : Memory.wf s.ring) :
    RingOk s ∧ s.fill ≤ 8 ∧ s.bcnt ≤ s.cfg.batchCap ∧ s.aidx ≤ s.bcnt ∧
    ∀ i, i < s.bcnt → ∃ c, memGet s.batch i = some c ∧ Code.Valid s.cfg c := by
  obtain ⟨h1, h2, h3, h4, h5, h6, h7, h8⟩ := h
  simp only [DPhaseInv, hph] at h8
  exact ⟨⟨h8.1, h3, h4, h5, hwf⟩, h1, h6, h8.2, h7⟩

/-- The end of a batch (R160). -/
theorem batchEnd_inv {s : State} (hp : s.cfg.Legal) (hr : Memory.wf s.ring) (hb : Memory.wf s.batch) (h : DecompInv s)
    (hph : s.dphase = .apply) : DecompOk s (batchEnd s) := by
  obtain ⟨⟨r1, r2, r3, r4, r5⟩, h1, h6, h8, h7⟩ := h.atApply hph hr
  unfold batchEnd
  split
  · rename_i he
    exact ⟨rfl, hr, hb, h1, r1.le, r2, r3, r4, h6, h7, by simpa [DPhaseInv, he] using ⟨r1, r2⟩⟩
  · rename_i he
    have hcap : 1 ≤ s.cfg.batchCap := hp.2.2.2.2.2.2
    have hlen : 1 ≤ s.cfg.lenBits := hp.lenBits_pos
    refine ⟨rfl, hr, hb, h1, r1.le, r2, r3, r4, Nat.zero_le _, fun i hi => absurd hi (Nat.not_lt_zero _), ?_⟩
    simp only [DPhaseInv]
    refine ⟨r1, by simpa using he, by omega, fun c rest hc => ?_⟩
    have := decodeCode_code hp hc
    have h2 := congrArg List.length this.2
    simp [encodeCode] at h2
    omega

/-- One pass of DECODE_BATCH (R162): the errors are TruncatedStream and IOFailure. -/
theorem decodeStep_inv {got : List Bool} {s : State} (hp : s.cfg.Legal) (hr : Memory.wf s.ring) (hb : Memory.wf s.batch)
    (h : DecompInv s) (hph : s.dphase = .decode got) : (decodeStep got s).Meets (DecompOk s) (DecompOk s)
      (fun e _ => e = .truncatedStream ∨ e = .ioFailure) False := by
  obtain ⟨h1, h2, h3, h4, h5, h6, h7, h8⟩ := h
  simp only [DPhaseInv, hph] at h8
  obtain ⟨d1, d2, d3, d4⟩ := h8
  have hlen : 1 ≤ s.cfg.lenBits := hp.lenBits_pos
  have hnil : ∀ c rest, decodeCode s.cfg [] ≠ .code c rest := by
    intro c rest hc
    have := congrArg List.length (decodeCode_code hp hc).2
    simp [encodeCode] at this
    omega
  unfold decodeStep
  refine Res.Meets.seq ((takeCode_inv _ got hp h1).mono (fun _ h => h) ?_ (fun _ _ h => Or.inr h) id) ?_
  · rintro t ⟨⟨t1, t2, t3, t4, t5, t6, t7, t8, t9⟩, got', hg, hne⟩
    refine ⟨t2, by rwa [t7], by rwa [t8], t1, by rwa [t3, t2], by rwa [t3, t4], by rwa [t4, t2], by rwa [t3, t7],
      by rwa [t5, t2], by rwa [t5, t8, t2], ?_⟩
    simp only [DPhaseInv, hg, t2, t3, t5, t6]
    exact ⟨d1, d2, d3, hne⟩
  · rintro ⟨d, t⟩ ⟨⟨t1, t2, t3, t4, t5, t6, t7, t8, t9⟩, hc⟩
    simp only at t1 t2 t3 t4 t5 t6 t7 t8 t9
    cases d with
    | code c rest =>
      have hv : Code.Valid s.cfg c := hc c rest rfl
      have hset : setCode c t = .ok { t with creg := c } := by
        unfold setCode
        rw [t2, if_pos ⟨hv.2.1, hv.2.2⟩]
      have hbw : batchWrite t.bcnt c { t with creg := c } = .ok { t with creg := c, batch := memSet t.batch t.bcnt c } := by
        unfold batchWrite
        rw [if_pos (by simp only [t2, t5]; exact d3)]
      have hbc : ∀ i, i < t.bcnt + 1 → ∃ c', memGet (memSet t.batch t.bcnt c) i = some c' ∧ Code.Valid s.cfg c' := by
        intro i hi
        rw [memGet_memSet]
        split
        · exact ⟨c, rfl, hv⟩
        · rw [t8]; exact h7 i (by omega)
      have hwfb : Memory.wf (memSet t.batch t.bcnt c) := memSet_wf _ _ (by rwa [t8])
      simp only [storeCode, hset, andThen_ok, hbw]
      split
      · rename_i hlt
        refine ⟨t2, by simpa only [t7] using hr, hwfb, t1, by simpa only [t2, t3] using h2, by simpa only [t3, t4] using h3,
          by simpa only [t2, t4] using h4, by simpa only [t3, t7] using h5, hlt.le, by simpa only [t2] using hbc, ?_⟩
        simp only [DPhaseInv]
        exact ⟨by rw [t2, t3]; exact d1, by rw [t6]; exact d2, hlt, by rw [t2]; exact hnil⟩
      · rename_i hlt
        refine ⟨t2, by simpa only [t7] using hr, hwfb, t1, by simpa only [t2, t3] using h2, by simpa only [t3, t4] using h3,
          by simpa only [t2, t4] using h4, by simpa only [t3, t7] using h5, by simp only [t2, t5]; omega,
          by simpa only [t2] using hbc, ?_⟩
        simp only [DPhaseInv]
        exact ⟨by rw [t2, t3]; exact d1, Nat.zero_le _⟩
    | endOfStream =>
      refine ⟨t2, by simpa only [t7] using hr, by simpa only [t8] using hb, t1, by simpa only [t2, t3] using h2,
        by simpa only [t3, t4] using h3, by simpa only [t2, t4] using h4, by simpa only [t3, t7] using h5,
        by simpa only [t5, t2] using h6, by simpa only [t5, t8, t2] using h7, ?_⟩
      simp only [DPhaseInv]
      exact ⟨by rw [t2, t3]; exact d1, Nat.zero_le _⟩
    | truncated => exact Or.inl rfl

/-- A ring flush going on (R167), and the rest of its Code. -/
theorem flushStep_inv {i : Nat} {acts : List Act} {s : State} (hp : s.cfg.Legal) (hr : Memory.wf s.ring)
    (hb : Memory.wf s.batch) (h : DecompInv s) (hph : s.dphase = .ringFlush i acts) : (flushStep i acts s).Meets
      (DecompOk s) (DecompOk s) (fun e _ => e = .corruptStream ∨ e = .ioFailure) False := by
  obtain ⟨h1, h2, h3, h4, h5, h6, h7, h8⟩ := h
  simp only [DPhaseInv, hph] at h8
  obtain ⟨d1, d2, d3, d4, d5⟩ := h8
  unfold flushStep
  refine Res.Meets.seq ((ringFlushFrom_inv hp d1 d2 h4 d3 h5 hr).mono (fun _ h => h) ?_ (fun _ _ h => Or.inr h) id) ?_
  · rintro t ⟨t1, t2⟩
    exact decomp_of_parked h1 h6 hb h7 d4 ⟨t2, acts, t1, d5⟩
  · rintro t ⟨t1, t2, t3⟩
    have hcfg : t.cfg = s.cfg := t2.1
    refine (runActs_inv acts (s := t) (by rwa [hcfg]) t1 (by rwa [hcfg]) fun off ho => ?_).mono ?_ ?_ (fun _ _ h => Or.inr h) id
    · rw [t3, hcfg]; exact (d5 _ ho : ActValid s.cfg (.copy off)).2
    · rintro u ⟨u1, u2, u3⟩; exact decomp_of_applied h1 h6 hb h7 d4 ⟨u1, t2.trans u2, u3⟩
    · rintro u ⟨u1, rest, u2, u3⟩
      exact decomp_of_parked h1 h6 hb h7 d4 ⟨t2.trans u1, rest, u2, by rwa [hcfg] at u3⟩

/-- FINAL_FLUSH (R168): it waits, or completes the operation. -/
theorem finalStep_inv {i : Nat} {s : State} (hr : Memory.wf s.ring) (hb : Memory.wf s.batch)
    (h : DecompInv s) (hph : s.dphase = .final i) : (finalStep i s).Meets
      (fun t => ∃ u, t = complete u ∧ u.cfg = s.cfg ∧ Memory.wf u.ring ∧ Memory.wf u.batch) (DecompOk s)
      (fun e _ => e = .ioFailure) False := by
  obtain ⟨h1, h2, h3, h4, h5, h6, h7, h8⟩ := h
  simp only [DPhaseInv, hph] at h8
  obtain ⟨d1, d2, d3, d4⟩ := h8
  unfold finalStep
  refine Res.Meets.seq ((sendRing_meets DPhase.final (s.wp - i) i h5 (by omega) (by omega)).mono (fun _ h => h) ?_
    (fun _ _ h => h.1) id) ?_
  · rintro t ⟨m, hm, rfl⟩
    exact ⟨rfl, hr, hb, h1, h2, h3, h4, h5, h6, h7, d1, by simp only; omega, by simp only; omega, d4⟩
  · rintro t ⟨ans, rfl⟩
    exact ⟨_, rfl, rfl, hr, hb⟩

end Sys2Proof.Machine
end

