-- ==== Sys2Proof/Laws/PerInstr.lean ====
section
/-! SUPPORT. The statements made for every instruction: the number of bits of its encoding (30_encoding.md R81, R82, R86;
10_state.md R23 for the CTRL byte). -/

namespace Sys2Proof.Laws.EncodeWidth

/-- The bits of an instruction's encoding: LEN_BITS + 8 for LIT, LEN_BITS + OFF_BITS + 8 for a copy, 8 for a CTRL write. -/
def bits (p : Params) (i : Instr) : Nat :=
  match i.toCode with
  | some c => if c.len = 0 then p.lenBits + 8 else p.lenBits + p.offBits + 8
  | none => 8

/-- The encoding of `i` has the width of its format, under every parameter set. -/
def Statement (i : Instr) : Prop := ∀ p : Params, (encode p i).length = bits p i

/-- The encoding of a copy Code. -/
theorem encodeCode_copy (p : Params) (off n : Nat) (c : Byte) (h : 0 < n) :
    (encodeCode p ⟨off, n, c⟩).length = p.lenBits + p.offBits + 8 := by
  simp [encodeCode, h, litBits]
  omega

theorem lit (c : Byte) : Statement (.lit c) := fun p => by simp [encode, encodeCode, bits, Instr.toCode, litBits]
theorem copy1 (off : Nat) (c : Byte) : Statement (.copy1 off c) := fun p => encodeCode_copy p off 1 c (by decide)
theorem copy2 (off : Nat) (c : Byte) : Statement (.copy2 off c) := fun p => encodeCode_copy p off 2 c (by decide)
theorem copy3 (off : Nat) (c : Byte) : Statement (.copy3 off c) := fun p => encodeCode_copy p off 3 c (by decide)
theorem copy4 (off : Nat) (c : Byte) : Statement (.copy4 off c) := fun p => encodeCode_copy p off 4 c (by decide)
theorem copy5 (off : Nat) (c : Byte) : Statement (.copy5 off c) := fun p => encodeCode_copy p off 5 c (by decide)
theorem copy6 (off : Nat) (c : Byte) : Statement (.copy6 off c) := fun p => encodeCode_copy p off 6 c (by decide)
theorem copy7 (off : Nat) (c : Byte) : Statement (.copy7 off c) := fun p => encodeCode_copy p off 7 c (by decide)
theorem startCompress : Statement .startCompress := fun _ => rfl
theorem startDecompress : Statement .startDecompress := fun _ => rfl

end Sys2Proof.Laws.EncodeWidth
end

