-- ==== Sys2Proof/Laws/Turns.lean ====
section
/-! SUPPORT. The block's turn as one answer (`turnRes`), and the fields of a state to which the host has answered more
(`State.answered`): only `src` and `snkAns` differ. -/

namespace Sys2Proof.Machine

/-- The meaning of a Code (43_decompress.md R163) is its answer, as a step ends with it. -/
theorem execCode_eq_codeRes (c : Code) (s : State) : execCode c s = (codeRes c s).toOutcome := by
  unfold execCode codeRes
  cases h : Instr.ofCode c with
  | none =>
    simp only
    rw [if_neg]
    intro h0; simp [Instr.ofCode, h0] at h
  | some i =>
    simp only
    rcases c with ⟨o, l, b⟩
    unfold Instr.ofCode at h
    split at h <;> simp at h <;> subst h <;> rename_i hl <;> simp only at hl <;> subst hl <;> rfl

theorem decompressStep_eq (s : State) : decompressStep s = (decompressRes s).toOutcome := by
  unfold decompressStep decompressRes
  cases hd : s.dphase with
  | decode => rfl
  | ringFlush => rfl
  | final => rfl
  | apply =>
    simp only [applyStep]
    split
    · cases batchRead s.aidx s <;> simp [execCode_eq_codeRes, hd]
    · rfl

/-- Under legal parameters the block's turn ends as `turnRes` answers. -/
theorem blockTurn_eq {s : State} (h : s.cfg.Legal) : blockTurn s = (turnRes s).toOutcome := by
  unfold blockTurn turnRes
  cases s.mode <;> simp only
  · rfl
  · rw [if_pos h]
  · rw [if_pos h, decompressStep_eq]

/-! ### A state to which the host has answered more -/

section
variable (s : State) (xs : List SrcAnswer) (ys : List SnkAnswer)

@[simp] theorem answered_src : (s.answered xs ys).src = s.src ++ xs := rfl
@[simp] theorem answered_snkAns : (s.answered xs ys).snkAns = s.snkAns ++ ys := rfl
@[simp] theorem answered_endGiven : (s.answered xs ys).endGiven = s.endGiven := rfl
@[simp] theorem answered_cfg : (s.answered xs ys).cfg = s.cfg := rfl
@[simp] theorem answered_mode : (s.answered xs ys).mode = s.mode := rfl
@[simp] theorem answered_acc : (s.answered xs ys).acc = s.acc := rfl
@[simp] theorem answered_fill : (s.answered xs ys).fill = s.fill := rfl
@[simp] theorem answered_creg : (s.answered xs ys).creg = s.creg := rfl
@[simp] theorem answered_clen : (s.answered xs ys).clen = s.clen := rfl
@[simp] theorem answered_pos : (s.answered xs ys).pos = s.pos := rfl
@[simp] theorem answered_wstart : (s.answered xs ys).wstart = s.wstart := rfl
@[simp] theorem answered_inEof : (s.answered xs ys).inEof = s.inEof := rfl
@[simp] theorem answered_wp : (s.answered xs ys).wp = s.wp := rfl
@[simp] theorem answered_fbase : (s.answered xs ys).fbase = s.fbase := rfl
@[simp] theorem answered_bcnt : (s.answered xs ys).bcnt = s.bcnt := rfl
@[simp] theorem answered_aidx : (s.answered xs ys).aidx = s.aidx := rfl
@[simp] theorem answered_eos : (s.answered xs ys).eos = s.eos := rfl
@[simp] theorem answered_chunk : (s.answered xs ys).chunk = s.chunk := rfl
@[simp] theorem answered_ring : (s.answered xs ys).ring = s.ring := rfl
@[simp] theorem answered_batch : (s.answered xs ys).batch = s.batch := rfl
@[simp] theorem answered_cphase : (s.answered xs ys).cphase = s.cphase := rfl
@[simp] theorem answered_dphase : (s.answered xs ys).dphase = s.dphase := rfl
@[simp] theorem answered_snk : (s.answered xs ys).snk = s.snk := rfl
end

end Sys2Proof.Machine
end

