-- ==== Sys2Proof/Tests/Slice0.lean ====
section
/-! SUPPORT. Small tests of one operation or one step each, with results from spec/95_test_vectors.md or worked out by hand from
the rules cited; and for every obligation with hypotheses a witness: concrete states and operands that meet them together. -/

namespace Sys2Proof.Tests

open Sys2Proof.Machine

/-! ### Small states -/

/-- The configuration SMALL of 95_test_vectors.md. -/
def small : Params := { windowSize := 4, lookaheadSize := 4, chunkCap := 16, ringCap := 8, batchCap := 2 }

/-- A parameter set that is not legal: WINDOW_SIZE is no power of two (R4). -/
def illegal : Params := { small with windowSize := 3 }

/-- The entries of a buffer that holds `bs` from index `i` on. -/
def cellsFrom (i : Nat) : List Byte → List Host.Cell
  | [] => []
  | b :: bs => (i, b) :: cellsFrom (i + 1) bs

/-- The compressor at the test of its inner loop, with a chunk and POS. -/
def comp (p : Params) (chunk : List Byte) (pos : Nat) : State :=
  { State.resetWith p with
    mode := .comp, busy := true, chunk := cellsFrom 0 chunk, clen := chunk.length, pos := pos
    wstart := pos - p.windowSize, inEof := true, cphase := .scan }

/-- The decompressor at the loop of APPLY_BATCH, with RING[0 .. WP − 1]. -/
def decomp (p : Params) (ring : List Byte) : State :=
  { State.resetWith p with
    mode := .decomp, busy := true, ring := cellsFrom 0 ring, wp := ring.length, dphase := .apply }

/-- "abcabca", the ring of 95_test_vectors.md P3 before its last Code. -/
def abcabca : List Byte := [0x61, 0x62, 0x63, 0x61, 0x62, 0x63, 0x61]

/-- "aaaaaaaaaa", the input of V29. -/
def tenA : List Byte := List.replicate 10 0x61

/-- Whether an outcome is a next state for which `p` holds. -/
def after (o : Host.Outcome State Fault Refusal) (p : State → Bool) : Bool :=
  match o with
  | .next t => p t
  | .fault _ => false
  | .refused _ => false

/-- Whether an operation finishes with an answer for which `p` holds. -/
def okAnd {α : Type} (r : Res α) (p : α → Bool) : Bool :=
  match r with
  | .ok a => p a
  | .wait _ => false
  | .raise _ _ => false
  | .fault _ => false
  | .refuse _ => false

/-! ### Well-formedness: an ill-formed term for each check (R9, R165) -/

theorem test_offset_zero_refused : Instr.wellFormed small (.copy1 0 0x61) = false := by decide

theorem test_offset_beyond_window_refused : Instr.wellFormed Config.reference (.copy2 8193 0x61) = false := by decide

theorem test_length_beyond_max_match_refused :
    Instr.wellFormed small (.copy3 4 0x61) = true ∧ Instr.wellFormed small (.copy4 4 0x61) = false ∧
    Instr.wellFormed small (.copy5 4 0x61) = false ∧ Instr.wellFormed small (.copy6 4 0x61) = false ∧
    Instr.wellFormed small (.copy7 4 0x61) = false := by decide

theorem test_illegal_parameters : ¬ illegal.Legal ∧ ¬ ({ small with ringCap := 7 } : Params).Legal ∧
    ¬ ({ small with lookaheadSize := 1 } : Params).Legal ∧ ¬ ({ small with batchCap := 0 } : Params).Legal := by decide

/-! ### Decoding: words written out from R81, R82, R84 -/

/-- 000 01100001. -/
theorem test_decode_lit : decodeTableWord 16 0b00001100001 = some (.lit 0x61) := by decide

/-- 001 0000000000000 01100001 (V41). -/
theorem test_decode_copy1 : decodeTableWord 24 0b001000000000000001100001 = some (.copy1 1 0x61) := by decide

/-- 010 0000000000001 01100010. -/
theorem test_decode_copy2 : decodeTableWord 24 0b010000000000000101100010 = some (.copy2 2 0x62) := by decide

/-- 011 0000000000111 01011010 (V23). -/
theorem test_decode_copy3 : decodeTableWord 24 0b011000000000011101011010 = some (.copy3 8 0x5A) := by decide

/-- 100 1000000000000 10000001. -/
theorem test_decode_copy4 : decodeTableWord 24 0b100100000000000010000001 = some (.copy4 4097 0x81) := by decide

/-- 101 0000000000001 01100010 (P1). -/
theorem test_decode_copy5 : decodeTableWord 24 0b101000000000000101100010 = some (.copy5 2 0x62) := by decide

/-- 110 1111111111111 00000000. -/
theorem test_decode_copy6 : decodeTableWord 24 0b110111111111111100000000 = some (.copy6 8192 0x00) := by decide

/-- 111 0000000001000 01100001 (P2). -/
theorem test_decode_copy7 : decodeTableWord 24 0b111000000000100001100001 = some (.copy7 9 0x61) := by decide

/-- CTRL bit 0 is START, bit 1 MODE_SEL, the others are ignored (R23). -/
theorem test_decode_ctrl : decodeTableWord 8 0x01 = some .startCompress ∧ decodeTableWord 8 0x03 = some .startDecompress ∧
    decodeTableWord 8 0xFD = some .startCompress ∧ decodeTableWord 8 0xFE = none := by decide

/-- A word with a bit above the 11 bits of LIT is no LIT word. -/
theorem test_decode_lit_high_bit : decodeTableWord 16 0x861 = none := by decide

/-- The end of a stream in SMALL: nothing; five zero bits (V32's rule); a whole zero byte; a nonzero rest (R161, C2). -/
theorem test_stream_end : decodeCode small [] = .endOfStream ∧ decodeCode small (List.replicate 7 false) = .endOfStream ∧
    decodeCode small (List.replicate 8 false) = .truncated ∧ decodeCode small [false, false, true] = .truncated := by
  decide

/-! ### BitCodec -/

/-- V1. -/
theorem test_encode_bits : okAnd (encodeFields [(5, 3), (0x1FFF, 13), (0x41, 8)]
    { State.reset with snkAns := [.ok, .ok, .ok] }) (fun t => t.snk = [0xBF, 0xFF, 0x41] ∧ t.acc = 0 ∧ t.fill = 0) = true := by
  decide

/-- V2. -/
theorem test_flush_bits : okAnd ((encodeFields [(0, 3), (0x41, 8)] { State.reset with snkAns := [.ok, .ok] }).andThen fun t =>
    if t.acc = 0x20 ∧ t.fill = 3 then flushBits t else .wait t) (fun t => t.snk = [0x08, 0x20] ∧ t.fill = 0) = true := by
  decide

/-- V5, its first three bits. -/
theorem test_put_bit : okAnd (putBits [true, false, true] State.reset) (fun t => t.acc = 0xA0 ∧ t.fill = 3) = true := by
  decide

/-- V8: the first bit of A5, the ninth call answers Exhausted. -/
theorem test_get_bit :
    okAnd (getBit { State.reset with src := [.byte 0xA5, .eof] })
      (fun r => r.1 = some true ∧ r.2.acc = 0xA5 ∧ r.2.fill = 7) = true ∧
    okAnd (getBit { State.reset with acc := 0xA5, src := [.eof] })
      (fun r => r.1 = none ∧ r.2.acc = 0xA5 ∧ r.2.fill = 0) = true := by decide

/-- V7: Short(5, 8). -/
theorem test_decode_bits_short : takeField 3 (byteBits 0x08) = .ok 0 [false, true, false, false, false] ∧
    takeField 8 [false, true, false, false, false] = .short 5 8 := by decide

/-! ### MatchFinder -/

/-- V12: "abcXabcYabcZ123456789", POS 8: among equal lengths the larger offset. -/
theorem test_tie_break : okAnd (findLongestMatch (comp Config.reference
    [0x61, 0x62, 0x63, 0x58, 0x61, 0x62, 0x63, 0x59, 0x61, 0x62, 0x63, 0x5A, 0x31, 0x32, 0x33, 0x34, 0x35, 0x36, 0x37, 0x38,
      0x39] 8)) (fun c => c = ⟨8, 3, 0x5A⟩) = true := by decide

/-- V15: "abcXabcdYabcd123456789", POS 9: the longer match wins although it is nearer. -/
theorem test_longest_wins : okAnd (findLongestMatch (comp Config.reference
    [0x61, 0x62, 0x63, 0x58, 0x61, 0x62, 0x63, 0x64, 0x59, 0x61, 0x62, 0x63, 0x64, 0x31, 0x32, 0x33, 0x34, 0x35, 0x36, 0x37,
      0x38, 0x39] 9)) (fun c => c = ⟨5, 4, 0x31⟩) = true := by decide

/-- V19 and V19b: "abcabcabcabc" with 9 unread bytes is scanned, with 8 it is not. -/
theorem test_near_end :
    okAnd (findLongestMatch (comp Config.reference
      [0x61, 0x62, 0x63, 0x61, 0x62, 0x63, 0x61, 0x62, 0x63, 0x61, 0x62, 0x63] 3)) (fun c => c = ⟨3, 7, 0x62⟩) = true ∧
    okAnd (findLongestMatch (comp Config.reference
      [0x61, 0x62, 0x63, 0x61, 0x62, 0x63, 0x61, 0x62, 0x63, 0x61, 0x62] 3)) (fun c => c = ⟨0, 0, 0x61⟩) = true := by
  decide

/-- V29, POS 5: the Window holds WINDOW_SIZE bytes; the Code COPY 4, 3, 'a' is 11 11 01100001. -/
theorem test_emit_code : after (step { comp small tenA 5 with snkAns := [.ok] }) (fun t =>
    t.creg = ⟨4, 3, 0x61⟩ ∧ t.snk = [0xF6] ∧ t.acc = 0x10 ∧ t.fill = 4 ∧ t.pos = 9 ∧ t.wstart = 5) = true := by decide

/-! ### The meanings of LIT and COPY -/

/-- V41: COPY 1, 1, 'a' at WP = 0. -/
theorem test_corrupt_stream : after (exec (.copy1 1 0x61) (decomp Config.reference []))
    (fun t => t.err = .corruptStream ∧ t.mode = .idle ∧ t.busy = false ∧ t.done = false ∧ t.snk = []) = true := by decide

/-- P1, its first Code. -/
theorem test_lit : after (exec (.lit 0x61) (decomp Config.reference []))
    (fun t => t.wp = 1 ∧ memGet t.ring 0 = some 0x61) = true := by decide

/-- P1, its third Code: a copy that reads what it wrote. -/
theorem test_copy5_overlap : after (exec (.copy5 2 0x62) (decomp Config.reference [0x61, 0x62]))
    (fun t => t.wp = 8 ∧ t.ring = cellsFrom 0 [0x61, 0x62, 0x61, 0x62, 0x61, 0x62, 0x61, 0x62]) = true := by decide

/-- P2, its third Code: the offset is WP. -/
theorem test_copy7 : after (exec (.copy7 9 0x61) (decomp Config.reference (List.replicate 9 0x61)))
    (fun t => t.wp = 17 ∧ memGet t.ring 16 = some 0x61) = true := by decide

/-- The other lengths, by hand from R165, on "abcd" with offset 4 (offset 3 for COPY6: "bcdbcd"). -/
theorem test_copy_lengths :
    after (exec (.copy1 4 0x7A) (decomp Config.reference [0x61, 0x62, 0x63, 0x64]))
      (fun t => t.wp = 6 ∧ t.ring = cellsFrom 0 [0x61, 0x62, 0x63, 0x64, 0x61, 0x7A]) = true ∧
    after (exec (.copy2 4 0x7A) (decomp Config.reference [0x61, 0x62, 0x63, 0x64]))
      (fun t => t.wp = 7 ∧ t.ring = cellsFrom 0 [0x61, 0x62, 0x63, 0x64, 0x61, 0x62, 0x7A]) = true ∧
    after (exec (.copy4 4 0x7A) (decomp Config.reference [0x61, 0x62, 0x63, 0x64]))
      (fun t => t.wp = 9 ∧ t.ring = cellsFrom 0 [0x61, 0x62, 0x63, 0x64, 0x61, 0x62, 0x63, 0x64, 0x7A]) = true ∧
    after (exec (.copy6 3 0x7A) (decomp Config.reference [0x61, 0x62, 0x63, 0x64]))
      (fun t => t.wp = 11 ∧
        t.ring = cellsFrom 0 [0x61, 0x62, 0x63, 0x64, 0x62, 0x63, 0x64, 0x62, 0x63, 0x64, 0x7A]) = true := by decide

/-- P3, its last Code: a copy that straddles a ring flush. -/
theorem test_copy3_straddles_flush :
    after (exec (.copy3 3 0x64) { decomp small abcabca with snkAns := List.replicate 8 .ok }) (fun t =>
      t.snk = [0x61, 0x62, 0x63, 0x61, 0x62, 0x63, 0x61, 0x62] ∧ t.wp = 7 ∧ t.fbase = 4 ∧ t.snkAns = [] ∧
      ringSlice t 0 7 = [0x62, 0x63, 0x61, 0x62, 0x63, 0x61, 0x64]) = true := by decide

/-- The same Code with a sink that answers three times only: the flush waits with RING[3] (R235), and goes on from there. -/
theorem test_flush_blocked :
    after (exec (.copy3 3 0x64) { decomp small abcabca with snkAns := List.replicate 3 .ok }) (fun t =>
      t.snk = [0x61, 0x62, 0x63] ∧ t.wp = 8 ∧ t.dphase = .ringFlush 3 [.copy 3, .copy 3, .lit 0x64] ∧
      after (step { t with snkAns := List.replicate 5 .ok }) (fun u =>
        u.snk = [0x61, 0x62, 0x63, 0x61, 0x62, 0x63, 0x61, 0x62] ∧ u.wp = 7 ∧ u.fbase = 4)) = true := by decide

/-- P1's stream 0C 21 8A 80 05 88, its first Code. -/
theorem test_decode_step : after (step { State.reset with
      mode := .decomp, busy := true, src := [.byte 0x0C, .byte 0x21, .byte 0x8A, .byte 0x80, .byte 0x05, .byte 0x88, .eof] })
    (fun t => t.creg = ⟨0, 0, 0x61⟩ ∧ t.batch = [(0, ⟨0, 0, 0x61⟩)] ∧ t.bcnt = 1 ∧ bitPosition t = 11) = true := by
  decide

/-! ### START, registers, errors, reset -/

/-- V46: STATUS 0x21 during a compression. -/
theorem test_start_compress : after (step { State.reset with script := [.host (.write .ctrl 0x01)] })
    (fun t => readReg .status t = 0x21 ∧ t.mode = .comp ∧ t.cphase = .load) = true := by decide

/-- V47: STATUS 0x41 during a decompression. -/
theorem test_start_decompress : after (step { State.reset with script := [.host (.write .ctrl 0x03)] })
    (fun t => readReg .status t = 0x41 ∧ t.mode = .decomp ∧ t.wp = 0) = true := by decide

/-- V49: START while busy. -/
theorem test_start_while_busy : after (exec .startDecompress (comp small tenA 5)) (fun t => t = comp small tenA 5) = true := by
  decide

/-- V47, V45: STATUS after CorruptStream, and at reset. -/
theorem test_status :
    after (exec (.copy1 1 0x61) (decomp Config.reference [])) (fun t => readReg .status t = 0x08) = true ∧
    readReg .status State.reset = 0x00 := by decide

/-- V48: the source fails on the first call. -/
theorem test_io_failure : after (step { State.reset with mode := .comp, busy := true, src := [.fail] })
    (fun t => readReg .status t = 0x10 ∧ t.snk = []) = true := by decide

/-- V46: the end of a compression, 3 bits pending: DONE, STATUS 0x02. -/
theorem test_completion :
    after (step { comp small [] 0 with cphase := .flush, acc := 0x20, fill := 3, snk := [0x08], snkAns := [.ok] })
    (fun t => readReg .status t = 0x02 ∧ t.snk = [0x08, 0x20]) = true := by decide

/-- R220: reset from the middle of a compression; the stream stays. -/
theorem test_reset_event :
    after (step { comp small tenA 5 with script := [.host .reset], src := [.eof], snk := [0x18] })
    (fun t => t = { State.resetWith small with src := [.eof], snk := [0x18] }) = true := by decide

/-- A placed instruction is the one the next step runs: LIT 'a' (log entry 6). -/
theorem test_with_fetch_word : nextInstr (State.reset.withFetchWord 16 0x061) = some (.lit 0x61) ∧
    nextInstr (State.reset.withFetchWord 24 0x200061) = some (.copy1 1 0x61) ∧
    nextInstr (State.reset.withFetchWord 8 0x01) = some .startCompress ∧
    after (step (State.reset.withFetchWord 16 0x061)) (fun t => t.wp = 1 ∧ memGet t.ring 0 = some 0x61) = true := by
  decide


/-! ### Witnesses: for each obligation with hypotheses, data that meet them together -/

theorem small_legal : small.Legal := by decide

/-- The least legal parameter set (R4, R6). -/
def least : Params := { windowSize := 2, lookaheadSize := 2, chunkCap := 1, ringCap := 4, batchCap := 1 }

theorem least_legal : least.Legal := by decide

theorem reference_legal : Config.reference.Legal := by decide

/-- Both ends of the offset field, the first and the last length. -/
theorem witness_OpcodeMap : 1 ≤ 1 ∧ 1 ≤ 8192 ∧ 8192 ≤ 8192 ∧ (1, Instr.copy1) ∈ copyForms ∧ (7, Instr.copy7) ∈ copyForms := by
  simp [copyForms]

/-- The reference configuration at both ends of the offset, and a literal under the least parameters. -/
theorem witness_WireRoundTrip :
    Config.reference.Legal ∧ Instr.wellFormed Config.reference (.copy7 8192 0xFF) = true ∧
    Instr.wellFormed Config.reference (.copy1 1 0x00) = true ∧ Instr.toCode (.copy7 8192 0xFF) ≠ none ∧
    Instr.toCode (.copy1 1 0x00) ≠ none ∧ least.Legal ∧ Instr.wellFormed least (.lit 0x61) = true ∧
    Instr.toCode (.lit 0x61) ≠ none := by decide

/-- One byte for each clause, with every ignored bit one. -/
theorem witness_CtrlByte : (0xFE#8).getLsbD 0 = false ∧
    ((0xFD#8).getLsbD 0 = true ∧ (0xFD#8).getLsbD 1 = false) ∧ ((0xFF#8).getLsbD 0 = true ∧ (0xFF#8).getLsbD 1 = true) := by
  decide

/-- 11 11 01100001 in SMALL (V29), and what follows it. -/
def wireCopy : List Bool :=
  [true, true, true, true, false, true, true, false, false, false, false, true]

/-- Both sides of the equivalence hold, and one where both fail. -/
theorem witness_DecodeExact : small.Legal ∧ decodeCode small (wireCopy ++ [true]) = .code ⟨4, 3, 0x61⟩ [true] ∧
    Code.Valid small ⟨4, 3, 0x61⟩ ∧ wireCopy ++ [true] = encodeCode small ⟨4, 3, 0x61⟩ ++ [true] ∧
    decodeCode small [] ≠ .code ⟨4, 3, 0x61⟩ [] := by decide

/-- The shortest strings of each clause. -/
theorem witness_NoIllegalPattern : small.Legal ∧
    (small.lenBits + 8 ≤ (List.replicate 10 false).length ∧ ∀ b ∈ (List.replicate 10 false).take small.lenBits, b = false) ∧
    small.lenBits + small.offBits + 8 ≤ wireCopy.length := by decide

/-- A literal and a copy with no bit after them. -/
theorem witness_CodeLength : small.Legal ∧
    (decodeCode small (List.replicate 10 false) = .code ⟨0, 0, 0x00⟩ [] ∧
      ∀ b ∈ (List.replicate 10 false).take small.lenBits, b = false) ∧
    (decodeCode small wireCopy = .code ⟨4, 3, 0x61⟩ [] ∧ ∃ b ∈ wireCopy.take small.lenBits, b = true) := by decide

/-- Seven zero bits are the most that end a stream; eight, or a one among fewer, are the least that do not. -/
theorem witness_StreamEndRule : small.Legal ∧
    ((List.replicate 7 false).length ≤ 7 ∧ ∀ b ∈ List.replicate 7 false, b = false) ∧
    (8 ≤ (List.replicate 8 false).length ∧ decodeCode small (List.replicate 8 false) = .truncated) ∧
    ((∃ b ∈ [true], b = true) ∧ decodeCode small [true] = .truncated) := by decide

/-- Each clause at its boundary: FILL 0, 6 and 7, with a sink that accepts and one that fails. -/
theorem witness_PutBit :
    (State.reset.fill ≤ 7 ∧ State.reset.fill < 7) ∧
    (let s := { State.reset with acc := 0xFC, fill := 6 }; s.fill ≤ 7 ∧ s.fill < 7) ∧
    (let s := { State.reset with acc := 0xFE, fill := 7, snkAns := [.ok] }; s.fill ≤ 7 ∧ s.fill = 7 ∧ s.snkAns = .ok :: []) ∧
    (let s := { State.reset with acc := 0xFE, fill := 7, snkAns := [.fail] };
      s.fill ≤ 7 ∧ s.fill = 7 ∧ s.snkAns = .fail :: []) := by decide

/-- V1's second field from FILL = 3 sends two bytes; a field of width 0; the least value that does not fit 3 bits. -/
theorem witness_EncodeBits :
    (let s := { State.reset with fill := 3, acc := 0x20, snkAns := [.ok, .ok] };
      8191 < 2 ^ 13 ∧ s.fill ≤ 7 ∧ SinkAccepts ((s.fill + 13) / 8) s) ∧
    (0 < 2 ^ 0 ∧ State.reset.fill ≤ 7 ∧ SinkAccepts ((State.reset.fill + 0) / 8) State.reset) ∧ 2 ^ 3 ≤ 8 := by decide

/-- Nothing pending; one bit and seven bits pending; a sink that fails. -/
theorem witness_FlushBits :
    State.reset.fill = 0 ∧
    (let s := { State.reset with acc := 0x80, fill := 1, snkAns := [.ok] };
      0 < s.fill ∧ s.fill ≤ 7 ∧ (∀ j, j < 8 - s.fill → s.acc.getLsbD j = false) ∧ s.snkAns = .ok :: []) ∧
    (let s := { State.reset with acc := 0xFE, fill := 7, snkAns := [.ok] };
      0 < s.fill ∧ s.fill ≤ 7 ∧ (∀ j, j < 8 - s.fill → s.acc.getLsbD j = false) ∧ s.snkAns = .ok :: []) ∧
    (let s := { State.reset with acc := 0x80, fill := 1, snkAns := [.fail] }; 0 < s.fill ∧ s.snkAns = .fail :: []) := by
  decide

/-- FILL 1 and 8, and each answer of the source with FILL 0. -/
theorem witness_GetBit :
    (let s := { State.reset with fill := 1 }; 1 ≤ s.fill ∧ s.fill ≤ 8) ∧
    (let s := { State.reset with fill := 8 }; 1 ≤ s.fill ∧ s.fill ≤ 8) ∧
    (let s := { State.reset with src := [.byte 0xA5] }; s.fill = 0 ∧ s.src = .byte 0xA5 :: []) ∧
    (let s := { State.reset with src := [.eof] }; s.fill = 0 ∧ s.src = .eof :: []) ∧
    (let s := { State.reset with src := [.fail] }; s.fill = 0 ∧ s.src = .fail :: []) := by decide

/-- The last bit of the window, and an empty window before a byte. -/
theorem witness_BitsInOrder :
    (let s := { State.reset with acc := 0x01, fill := 1 }; s.fill ≤ 8 ∧ unreadBits s ≠ []) ∧
    (let s := { State.reset with src := [.byte 0xA5, .eof] }; s.fill ≤ 8 ∧ unreadBits s ≠ []) := by decide

/-- V9, and V2's fields, which leave five padding bits. -/
theorem witness_LosslessFields :
    (let fs : List (Nat × Nat) := [(1, 3), (0, 13), (0x61, 8)]
     let s := { State.reset with snkAns := List.replicate 3 .ok }
     (∀ f ∈ fs, f.1 < 2 ^ f.2) ∧ s.acc = 0#8 ∧ s.fill = 0 ∧ SinkAccepts (((fs.map Prod.snd).sum + 7) / 8) s) ∧
    (let fs : List (Nat × Nat) := [(0, 3), (0x41, 8)]
     let s := { State.reset with snkAns := List.replicate 2 .ok }
     (∀ f ∈ fs, f.1 < 2 ^ f.2) ∧ s.acc = 0#8 ∧ s.fill = 0 ∧ SinkAccepts (((fs.map Prod.snd).sum + 7) / 8) s) := by decide

theorem scanReady_small : ScanReady (comp small tenA 5) :=
  ⟨by decide, by decide, by decide, by decide⟩

/-- V29, POS 5: exactly LOOKAHEAD_SIZE + 1 unread bytes. -/
theorem witness_ScanClosedForm : (comp small tenA 5).cfg.Legal ∧ ScanReady (comp small tenA 5) ∧
    (comp small tenA 5).cfg.lookaheadSize + 1 = (comp small tenA 5).clen - (comp small tenA 5).pos :=
  ⟨small_legal, scanReady_small, by decide⟩

/-- Exactly LOOKAHEAD_SIZE unread bytes, and one. -/
theorem witness_NearEndLiteral :
    (let s := comp small tenA 6; s.clen - s.pos = s.cfg.lookaheadSize ∧ s.pos < s.cfg.chunkCap ∧
      memGet s.chunk s.pos = some 0x61) ∧
    (let s := comp small tenA 9; s.clen - s.pos ≤ s.cfg.lookaheadSize ∧ s.pos < s.cfg.chunkCap ∧
      memGet s.chunk s.pos = some 0x61) := by decide

/-- The scan runs. -/
theorem witness_MatchInRange : (comp small tenA 5).cfg.Legal ∧ ScanReady (comp small tenA 5) ∧
    (comp small tenA 5).cfg.lookaheadSize + 1 ≤ (comp small tenA 5).clen - (comp small tenA 5).pos :=
  ⟨small_legal, scanReady_small, by decide⟩

/-- A Code that ends the chunk: POS becomes CLEN. -/
theorem witness_Advance : (let s := { comp small tenA 6 with creg := ⟨1, 3, 0x61⟩ }; s.pos + s.creg.len + 1 = s.clen) := by
  decide

/-- An empty input; one byte less than the chunk, the last one after a wait; a full chunk with more behind it; too few bytes. -/
theorem witness_LoadChunk :
    (let s := { State.resetWith small with mode := .comp, busy := true, src := [.eof] }
     let bs : List Byte := []; let rest : List SrcAnswer := [.eof]
     s.cphase = .load ∧ s.inEof = false ∧ s.src = bs.map SrcAnswer.byte ++ rest ∧
      s.clen + bs.length < s.cfg.chunkCap ∧ rest.head? = some .eof) ∧
    (let bs : List Byte := [0x61]; let rest : List SrcAnswer := [.eof]
     let s := { comp small (List.replicate 14 0x61) 0 with inEof := false, cphase := .load, src := bs.map SrcAnswer.byte ++ rest }
     s.cphase = .load ∧ s.inEof = false ∧ s.src = bs.map SrcAnswer.byte ++ rest ∧
      s.clen + bs.length < s.cfg.chunkCap ∧ rest.head? = some .eof) ∧
    (let bs : List Byte := List.replicate 16 0x61; let rest : List SrcAnswer := [.byte 0x62, .eof]
     let s := { State.resetWith small with mode := .comp, busy := true, src := bs.map SrcAnswer.byte ++ rest }
     s.cphase = .load ∧ s.inEof = false ∧ s.src = bs.map SrcAnswer.byte ++ rest ∧ s.clen + bs.length = s.cfg.chunkCap) ∧
    (let bs : List Byte := [0x61]; let rest : List SrcAnswer := []
     let s := { comp small (List.replicate 14 0x61) 0 with inEof := false, cphase := .load, src := bs.map SrcAnswer.byte ++ rest }
     s.cphase = .load ∧ s.inEof = false ∧ s.src = bs.map SrcAnswer.byte ++ rest ∧
      s.clen + bs.length < s.cfg.chunkCap ∧ rest = []) := by
  decide

theorem compInv_small : CompInv { comp small tenA 5 with snkAns := List.replicate 2 .ok } := by
  refine ⟨by decide, by decide, by decide, by decide, by decide, ?_⟩
  show State.fill _ ≤ 7
  decide

/-- COPY 4, 3, 'a' at POS 5 of V29, blocked with four bits left to put, and a sink that accepts one byte. -/
def emitting : State :=
  { comp small tenA 5 with
    fill := 8, acc := 0xF6, creg := ⟨4, 3, 0x61⟩, cphase := .emit [false, false, false, true], snkAns := [.ok] }

theorem compInv_emitting : CompInv emitting := by
  refine ⟨by decide, by decide, by decide, by decide, by decide, ?_⟩
  show emitting.fill = 8 ∧ emitting.pos + emitting.creg.len + 1 ≤ emitting.clen
  decide

/-- V29, POS 5, with an empty accumulator; and blocked inside the Code. -/
theorem witness_EmitsOneCode : (let s := { comp small tenA 5 with snkAns := List.replicate 2 .ok }
    s.cfg.Legal ∧ CompInv s ∧ s.cphase = .scan ∧ s.pos < s.clen ∧ SinkAccepts ((s.fill + s.cfg.maxCodeBits) / 8) s) ∧
    (emitting.cfg.Legal ∧ CompInv emitting ∧ emitting.cphase = .emit [false, false, false, true] ∧
      SinkAccepts ((emitting.fill + [false, false, false, true].length) / 8) emitting) :=
  ⟨⟨small_legal, compInv_small, rfl, by decide, by decide⟩, small_legal, compInv_emitting, rfl, by decide⟩

/-- Of COPY 4, 3, 'a', the bits 11 11 01100001 (R86), eight are in the accumulator and four are left (R235). -/
theorem test_emit_parks : ∃ w, turnRes (comp small tenA 5) = .wait w ∧ w.acc = 0xF6 ∧ w.fill = 8 ∧
    w.cphase = .emit [false, false, false, true] ∧ w.pos = 5 ∧ w.creg = ⟨4, 3, 0x61⟩ := ⟨_, rfl, rfl, rfl, rfl, rfl, rfl⟩

/-- Going on there, the byte F6 is sent, the four bits follow and POS becomes 9 (R100, R145, R235). -/
theorem test_emit_goes_on : ∃ t, turnRes emitting = .ok t ∧ t.snk = [0xF6] ∧ t.acc = 0x10 ∧ t.fill = 4 ∧ t.pos = 9 :=
  ⟨_, rfl, rfl, rfl, rfl, rfl⟩

/-- POS = CLEN, with and without the end mark seen. -/
theorem witness_ScanLoopEnd :
    (let s := comp small tenA 10; s.cphase = .scan ∧ s.clen ≤ s.pos ∧ s.inEof = true) ∧
    (let s := { comp small tenA 10 with inEof := false }; s.cphase = .scan ∧ s.clen ≤ s.pos ∧ s.inEof = false) := by decide

/-- Nothing pending and no answer of the sink; seven bits pending. -/
theorem witness_CompressEnds :
    (let s := { comp small [] 0 with cphase := .flush }
     s.cphase = .flush ∧ s.fill ≤ 7 ∧ (∀ j, j < 8 - s.fill → s.acc.getLsbD j = false) ∧
      (0 < s.fill → s.snkAns.head? = some .ok)) ∧
    (let s := { comp small [] 0 with cphase := .flush, acc := 0xFE, fill := 7, snkAns := [.ok] }
     s.cphase = .flush ∧ s.fill ≤ 7 ∧ (∀ j, j < 8 - s.fill → s.acc.getLsbD j = false) ∧
      (0 < s.fill → s.snkAns.head? = some .ok)) := by decide

/-- V29, POS 5: COPY 4, 3, 'a' on the output "aaaaa". -/
theorem witness_CodeRestoresChunk : ScanReady (comp small tenA 5) ∧ Code.Valid (comp small tenA 5).cfg ⟨4, 3, 0x61⟩ ∧
    CodeStandsFor (comp small tenA 5) ⟨4, 3, 0x61⟩ ∧ chunkSlice (comp small tenA 5) 0 5 <:+ List.replicate 5 0x61 := by
  refine ⟨scanReady_small, by decide, ⟨by decide, by decide, by decide, ?_⟩, by decide⟩
  intro k hk
  have hk' : k < 3 := hk
  interval_cases k <;> exact ⟨0x61, by decide, by decide⟩

/-- An empty ring, and the last entry but one. -/
theorem witness_LitAppends : (decomp small []).wp + 1 < small.ringCap ∧
    (decomp small [0x61, 0x62, 0x63, 0x61, 0x62, 0x63]).wp + 1 = small.ringCap - 1 := by decide

theorem applyReady_abcabca (n : Nat) : ApplyReady { decomp small abcabca with snkAns := List.replicate n .ok } :=
  ⟨small_legal, show 7 < 8 by decide, Nat.zero_le _,
    show ∀ i, i < 7 → (memGet (cellsFrom 0 abcabca) i).isSome by decide⟩

/-- P3's ring: one entry of room. -/
theorem witness_LitFlushes : (let s := { decomp small abcabca with snkAns := List.replicate 8 .ok }
    ApplyReady s ∧ s.wp + 1 = s.cfg.ringCap ∧ SinkAccepts (s.cfg.ringCap - s.fbase) s) :=
  ⟨applyReady_abcabca 8, by decide, by decide⟩

/-- The offset is WP; the offset is 1, and the Code ends one entry below the capacity. -/
theorem witness_CopyAppends : ((1, Instr.copy1) ∈ copyForms ∧ (3, Instr.copy3) ∈ copyForms) ∧
    (let s := decomp small [0x61, 0x62, 0x63, 0x61]
     CopyOperands s.cfg 4 1 ∧ 4 = s.wp ∧ s.wp + 1 + 1 < s.cfg.ringCap ∧
      ∀ i, s.wp - 4 ≤ i → i < s.wp → (memGet s.ring i).isSome) ∧
    (let s := decomp small [0x61, 0x62, 0x63]
     CopyOperands s.cfg 1 3 ∧ 1 ≤ s.wp ∧ s.wp + 3 + 1 = s.cfg.ringCap - 1 ∧
      ∀ i, s.wp - 1 ≤ i → i < s.wp → (memGet s.ring i).isSome) := by
  refine ⟨by simp [copyForms], ⟨by decide, by decide, by decide, fun i _ h => ?_⟩,
    by decide, by decide, by decide, fun i _ h => ?_⟩
  · have h' : i < 4 := h
    interval_cases i <;> decide
  · have h' : i < 3 := h
    interval_cases i <;> decide

/-- A ring flush inside a Code, blocked at the last byte of the ring: the bytes before it have been sent. -/
def flushing : State :=
  { decomp small (abcabca ++ [0x62]) with
    dphase := .ringFlush 7 [.copy 3, .lit 0x64], snk := abcabca, snkAns := List.replicate 3 .ok }

/-- P3, its last Code. -/
theorem witness_LogicalOutput : (let s := { decomp small abcabca with snkAns := List.replicate 11 .ok }
    ApplyReady s ∧ s.dphase = .apply ∧ window s <:+ outBytes s ∧ Instr.wellFormed s.cfg (.copy3 3 0x64) = true ∧
    Instr.toCode (.copy3 3 0x64) = some ⟨3, 3, 0x64⟩ ∧ 3 ≤ s.wp ∧ SinkAccepts (s.wp - s.fbase + 3 + 1) s) ∧
    (flushing.cfg.Legal ∧ flushing.dphase = .ringFlush 7 [.copy 3, .lit 0x64] ∧ flushing.wp = flushing.cfg.ringCap ∧
      7 < flushing.wp ∧ (∀ j, j < flushing.wp → (memGet flushing.ring j).isSome) ∧
      (∀ a ∈ [Act.copy 3, Act.lit 0x64], ActValid flushing.cfg a) ∧ window flushing <:+ outBytes flushing ∧
      SinkAccepts (flushing.wp - 7 + [Act.copy 3, Act.lit 0x64].length) flushing) :=
  ⟨⟨applyReady_abcabca 11, rfl, by decide, by decide, rfl, by decide, by decide⟩, small_legal, rfl, rfl, by decide, by decide,
    by simp [ActValid]; decide, by decide, by decide⟩

/-- Going on there (R165, R167, R235), 'b' is sent, the ring is reseeded with "bcab", the copy appends the byte three behind, 'c',
and the literal 'd' follows. -/
theorem test_flush_goes_on : ∃ t, turnRes flushing = .ok t ∧ t.snk = abcabca ++ [0x62] ∧ t.fbase = 4 ∧ t.wp = 6 ∧
    ringSlice t 0 6 = [0x62, 0x63, 0x61, 0x62, 0x63, 0x64] := ⟨_, rfl, rfl, rfl, rfl, rfl⟩

/-- The offset one above WP (V42), and equal to it: there the Code is applied. -/
theorem witness_CorruptOffset : (1, Instr.copy1) ∈ copyForms ∧
    (CopyOperands (decomp small [0x61]).cfg 2 1 ∧ (decomp small [0x61]).wp < 2) ∧
    (CopyOperands (decomp small [0x61]).cfg 1 1 ∧ 1 ≤ (decomp small [0x61]).wp ∧
      (decomp small [0x61]).err ≠ .corruptStream ∧ ∃ t, exec (.copy1 1 0x62) (decomp small [0x61]) = .next t) :=
  ⟨by simp [copyForms], by decide, by decide, by decide, by decide, ⟨_, rfl⟩⟩

/-- An offset above WINDOW_SIZE, one of 0, and a length above MAX_MATCH. -/
theorem witness_OperandsOfNoCode : ((1, Instr.copy1) ∈ copyForms ∧ (4, Instr.copy4) ∈ copyForms) ∧
    ¬ CopyOperands small 5 1 ∧ ¬ CopyOperands small 0 1 ∧ ¬ CopyOperands small 1 4 := by
  refine ⟨by simp [copyForms], ?_⟩
  decide

/-- A full ring at the first flush, and at a later one, where FBASE = WINDOW_SIZE. -/
theorem witness_RingFlush :
    (let s := { decomp small (abcabca ++ [0x62]) with snkAns := List.replicate 8 .ok }
     s.cfg.Legal ∧ s.wp = s.cfg.ringCap ∧ s.fbase ≤ s.wp ∧ (∀ i, i < s.wp → (memGet s.ring i).isSome) ∧
      SinkAccepts (s.cfg.ringCap - s.fbase) s) ∧
    (let s := { decomp small (abcabca ++ [0x62]) with fbase := 4, snkAns := List.replicate 4 .ok }
     s.cfg.Legal ∧ s.wp = s.cfg.ringCap ∧ s.fbase ≤ s.wp ∧ (∀ i, i < s.wp → (memGet s.ring i).isSome) ∧
      SinkAccepts (s.cfg.ringCap - s.fbase) s) := by decide

/-- P3's last three bytes to send, and nothing to send. -/
theorem witness_FinalFlush :
    (let s := { decomp small abcabca with fbase := 4, dphase := .final 4, snkAns := List.replicate 3 .ok }
     s.dphase = .final 4 ∧ 4 ≤ s.wp ∧ s.wp ≤ s.cfg.ringCap ∧ (∀ j, j < s.wp → (memGet s.ring j).isSome) ∧
      SinkAccepts (s.wp - 4) s) ∧
    (let s := { decomp small [] with dphase := .final 0 }
     s.dphase = .final 0 ∧ 0 ≤ s.wp ∧ s.wp ≤ s.cfg.ringCap ∧ (∀ j, j < s.wp → (memGet s.ring j).isSome) ∧
      SinkAccepts (s.wp - 0) s) := by decide

/-- The decompressor inside DECODE_BATCH with source bytes. -/
def decoding (src : List SrcAnswer) : State :=
  { State.resetWith small with mode := .decomp, busy := true, src := src }

theorem no_code_of_empty : ∀ c rest, decodeCode small [] ≠ .code c rest := by
  intro c rest h
  cases h

/-- P3's first Code from its stream 18 46: as the first of a batch, and as the last. -/
theorem witness_DecodeStores :
    (let s := decoding [.byte 0x18, .byte 0x46]
     s.cfg.Legal ∧ s.fill ≤ 8 ∧ s.bcnt < s.cfg.batchCap ∧ (∀ c' r, decodeCode s.cfg [] ≠ .code c' r) ∧
      decodeCode s.cfg ([] ++ unreadBits s) = .code ⟨0, 0, 0x61⟩ [false, false, false, true, true, false] ∧
      s.bcnt + 1 < s.cfg.batchCap) ∧
    (let s := { decoding [.byte 0x18, .byte 0x46] with bcnt := 1, batch := [(0, ⟨0, 0, 0x61⟩)] }
     s.cfg.Legal ∧ s.fill ≤ 8 ∧ s.bcnt < s.cfg.batchCap ∧ (∀ c' r, decodeCode s.cfg [] ≠ .code c' r) ∧
      decodeCode s.cfg ([] ++ unreadBits s) = .code ⟨0, 0, 0x61⟩ [false, false, false, true, true, false] ∧
      s.bcnt + 1 = s.cfg.batchCap) :=
  ⟨⟨small_legal, by decide, by decide, no_code_of_empty, by decide, by decide⟩,
    small_legal, by decide, by decide, no_code_of_empty, by decide, by decide⟩

/-- No bit left; a whole zero byte. -/
theorem witness_DecodeEnds :
    (let s := decoding [.eof]
     s.cfg.Legal ∧ s.fill ≤ 8 ∧ s.src = ([] : List Byte).map SrcAnswer.byte ++ .eof :: [] ∧
      decodeCode s.cfg ([] ++ unreadBits s) = .endOfStream) ∧
    (let s := decoding [.byte 0x00, .eof]
     s.cfg.Legal ∧ s.fill ≤ 8 ∧ s.src = [0x00#8].map SrcAnswer.byte ++ .eof :: [] ∧
      decodeCode s.cfg ([] ++ unreadBits s) = .truncated) := by decide

/-- An empty batch, with and without the end of the stream. -/
theorem witness_BatchEnds :
    (let s := { decomp small [] with eos := true }; s.dphase = .apply ∧ s.bcnt ≤ s.aidx ∧ s.eos = true) ∧
    (let s := decomp small []; s.dphase = .apply ∧ s.bcnt ≤ s.aidx ∧ s.eos = false) := by decide

/-- P3's state before its last Code, which is the only one of the batch. -/
def lastCode : State :=
  { decomp small abcabca with snkAns := List.replicate 8 .ok, bcnt := 1, batch := [(0, ⟨3, 3, 0x64⟩)] }

theorem batch_lastCode : ∀ i, i < 1 → ∃ c, memGet lastCode.batch i = some c ∧ Code.Valid small c := by
  intro i hi
  interval_cases i
  exact ⟨⟨3, 3, 0x64⟩, rfl, by decide⟩

theorem inv_lastCode : Inv lastCode :=
  ⟨small_legal, by decide, by decide, fun h => (nomatch h), fun _ =>
    ⟨by decide, by decide, by decide, by decide, by decide, by decide, batch_lastCode, ⟨by decide, by decide⟩⟩⟩

/-- The final flush of P3's state after its last Code. -/
def finalState : State :=
  { decomp small abcabca with fbase := 4, eos := true, dphase := .final 4, snkAns := List.replicate 3 .ok }

theorem inv_finalState : Inv finalState :=
  ⟨small_legal, by decide, by decide, fun h => (nomatch h), fun _ =>
    ⟨by decide, by decide, by decide, by decide, by decide, by decide, fun i hi => absurd hi (Nat.not_lt_zero i),
      ⟨by decide, by decide, by decide, rfl⟩⟩⟩

/-- A Code that flushes inside, and the step that completes. -/
theorem witness_OutputGrows :
    (Inv lastCode ∧ lastCode.mode = .decomp ∧ ∃ t, blockTurn lastCode = .next t ∧ t.mode = .decomp) ∧
    (Inv finalState ∧ finalState.mode = .decomp ∧ ∃ t, blockTurn finalState = .next t ∧ t.done = true) :=
  ⟨⟨inv_lastCode, rfl, ⟨_, rfl, rfl⟩⟩, inv_finalState, rfl, ⟨_, rfl, rfl⟩⟩

theorem witness_StartCompress : State.reset.cfg.Legal ∧ State.reset.mode = .idle := ⟨reference_legal, rfl⟩

theorem witness_StartDecompress : (State.resetWith small).cfg.Legal ∧ (State.resetWith small).mode = .idle := ⟨small_legal, rfl⟩

theorem witness_StartIgnored : ((comp small tenA 5).cfg.Legal ∧ (comp small tenA 5).mode ≠ .idle) ∧
    ((decomp small []).cfg.Legal ∧ (decomp small []).mode ≠ .idle) := by decide

theorem witness_IllegalParameters : ¬ (State.resetWith illegal).cfg.Legal ∧
    (¬ (decomp illegal []).cfg.Legal ∧ (decomp illegal []).mode ≠ .idle) := by decide

/-- A write of STATUS, and a write of CTRL with every bit one but bit 0. -/
theorem witness_IgnoredWrites : Reg.status ≠ Reg.ctrl ∧ (0xFE#8).getLsbD 0 = false := by decide

/-- V41's error: a step in which nearly every field changes. -/
theorem witness_ConfigConstant : ∃ t, step { decomp small [] with bcnt := 1, batch := [(0, ⟨1, 1, 0x61⟩)] } = .next t :=
  ⟨_, rfl⟩

/-- No turn listed; the block's turn listed. -/
theorem witness_IdleWaits : (State.reset.mode = .idle ∧ BlockNext State.reset) ∧
    (let s := { State.reset with script := [.block] }; s.mode = .idle ∧ BlockNext s) := by decide

/-- A START, and P3's last Code. -/
theorem witness_StepRunsInstr :
    (let s := { State.reset with script := [.host (.write .ctrl 0x01)] }
     s.script = .host (.write .ctrl 0x01) :: [] ∧ decodeCtrl 0x01 = some .startCompress) ∧
    (lastCode.cfg.Legal ∧ BlockNext lastCode ∧ lastCode.mode = .decomp ∧ lastCode.dphase = .apply ∧
      lastCode.aidx < lastCode.bcnt ∧ lastCode.aidx < lastCode.cfg.batchCap ∧
      memGet lastCode.batch lastCode.aidx = some ⟨3, 3, 0x64⟩ ∧ Instr.ofCode ⟨3, 3, 0x64⟩ = some (.copy3 3 0x64)) := by
  decide

/-- A literal without a flush, and P3's last Code with one. -/
theorem witness_LitCopyFrame :
    (Instr.toCode (.lit 0x61) = some ⟨0, 0, 0x61⟩ ∧ (decomp small []).mode = .decomp ∧
      ∃ t, exec (.lit 0x61) (decomp small []) = .next t ∧ t.mode = .decomp) ∧
    (Instr.toCode (.copy3 3 0x64) = some ⟨3, 3, 0x64⟩ ∧ lastCode.mode = .decomp ∧
      ∃ t, exec (.copy3 3 0x64) lastCode = .next t ∧ t.mode = .decomp) :=
  ⟨⟨rfl, rfl, _, rfl, rfl⟩, rfl, rfl, _, rfl, rfl⟩

/-- A step inside a compression, and the one that completes it. -/
theorem witness_CompOwnership :
    ((comp small tenA 10).mode = .comp ∧ ∃ t, blockTurn (comp small tenA 10) = .next t ∧ t.mode = .comp) ∧
    (let s := { comp small [] 0 with cphase := .flush }
     s.mode = .comp ∧ ∃ t, blockTurn s = .next t ∧ t.done = true) :=
  ⟨⟨rfl, _, rfl, rfl⟩, rfl, _, rfl, rfl⟩

/-- A step inside a decompression, and the one that completes it. -/
theorem witness_DecompOwnership :
    (lastCode.mode = .decomp ∧ ∃ t, blockTurn lastCode = .next t ∧ t.mode = .decomp) ∧
    (finalState.mode = .decomp ∧ ∃ t, blockTurn finalState = .next t ∧ t.done = true) :=
  ⟨⟨rfl, _, rfl, rfl⟩, rfl, _, rfl, rfl⟩

/-- A step that sends eight bytes. -/
theorem witness_SinkAppendOnly : ∃ t, step lastCode = .next t ∧ t.snk.length = 8 := ⟨_, rfl, rfl⟩

/-- A step that takes two bytes; a source that is open, and one whose end mark has been given; a source with the end mark last,
and one with a byte behind it. -/
theorem witness_SourceHeadOnly :
    (∃ t, blockTurn (decoding [.byte 0x18, .byte 0x46, .eof]) = .next t ∧ t.src = [.eof]) ∧
    ((decoding []).endGiven = false ∧ ({ decoding [.eof] with endGiven := true }).endGiven = true) ∧
    (SrcAnswer.eof ∉ [SrcAnswer.byte 0x61, .eof].dropLast ∧ SrcAnswer.eof ∈ [SrcAnswer.eof, .byte 0x61].dropLast) :=
  ⟨⟨_, rfl, rfl⟩, by decide, by decide⟩

/-- The end mark given is the last answer of its source: a byte behind it is refused (R207, U19), and connecting opens a new one. -/
theorem test_give_after_end :
    hostTurn (.giveSrc (.byte 0x61)) { decoding [] with endGiven := true } = .refused .afterEndMark ∧
    after (hostTurn (.connect [.byte 0x61] []) { decoding [] with endGiven := true }) (fun t => !t.endGiven) = true ∧
    after (hostTurn (.giveSrc .eof) (decoding [])) (fun t => t.endGiven && t.src == [.eof]) = true :=
  ⟨rfl, by decide, by decide⟩

/-- A decompressor that waits for the first bit of a Code with nothing given, or with a port that answers `a`. -/
theorem waits_decoding (src : List SrcAnswer) : WaitsForSource (decoding src) :=
  .inr ⟨rfl, rfl, [], rfl, no_code_of_empty⟩

/-- The compressor in LOAD_CHUNK with one entry free. -/
theorem waits_loading (src : List SrcAnswer) :
    WaitsForSource { comp small (List.replicate 15 0x61) 0 with inEof := false, cphase := .load, src := src } :=
  .inl ⟨rfl, rfl, show 15 < 16 by decide, rfl⟩

/-- Each of the four places at which the sink is used. -/
theorem waits_sink (ans : List SnkAnswer) :
    WaitsForSink { comp small tenA 5 with fill := 8, cphase := .emit [], snkAns := ans } ∧
    WaitsForSink { comp small tenA 10 with fill := 1, cphase := .flush, snkAns := ans } ∧
    WaitsForSink { decomp small (abcabca ++ [0x62]) with dphase := .ringFlush 7 [.lit 0x64], snkAns := ans } ∧
    WaitsForSink { decomp small abcabca with dphase := .final 6, snkAns := ans } :=
  ⟨.inl ⟨rfl, rfl, _, rfl⟩, .inr (.inl ⟨rfl, show 0 < 1 by decide, rfl⟩),
    .inr (.inr (.inl ⟨rfl, 7, _, rfl, show 7 < 8 by decide, rfl⟩)),
    .inr (.inr (.inr ⟨rfl, 6, rfl, show 6 < 7 by decide, show 6 < 8 by decide, rfl⟩))⟩

/-- LOAD_CHUNK with two entries free and one byte given. -/
def shortChunk : State :=
  { comp small (List.replicate 14 0x61) 0 with inEof := false, cphase := .load, src := [.byte 0x62] }

/-- P3's last Code, with a sink that accepts one byte of the flush inside it. -/
def blockedCode : State :=
  { decomp small abcabca with snkAns := [.ok], bcnt := 1, batch := [(0, ⟨3, 3, 0x64⟩)] }

/-- Parked before the first access, and inside a LOAD_CHUNK, a Code being put and a Code being applied. -/
theorem witness_BlockedWaits :
    ((decoding []).cfg.Legal ∧ WaitsForSource (decoding []) ∧ (decoding []).src = []) ∧
    (let s := { comp small tenA 10 with fill := 1, cphase := .flush, snkAns := [] }
     s.cfg.Legal ∧ WaitsForSink s ∧ s.snkAns = []) ∧
    (small.Legal ∧ (∃ w, turnRes shortChunk = .wait w) ∧ (∃ w, turnRes (comp small tenA 5) = .wait w) ∧
      (∃ w, turnRes blockedCode = .wait w)) :=
  ⟨⟨small_legal, waits_decoding [], rfl⟩, ⟨small_legal, (waits_sink []).2.1, rfl⟩, small_legal, ⟨_, rfl⟩, ⟨_, rfl⟩, _, rfl⟩

theorem witness_FailedPort :
    ((decoding [.fail]).cfg.Legal ∧ WaitsForSource (decoding [.fail]) ∧ (decoding [.fail]).src = .fail :: []) ∧
    (let s := { comp small tenA 10 with fill := 1, cphase := .flush, snkAns := [.fail] }
     s.cfg.Legal ∧ WaitsForSink s ∧ s.snkAns = .fail :: []) ∧
    (shortChunk.cfg.Legal ∧ ∃ w, turnRes shortChunk = .wait w ∧ WaitsForSource w ∧ w.src = []) ∧
    (blockedCode.cfg.Legal ∧ ∃ w, turnRes blockedCode = .wait w ∧ WaitsForSink w ∧ w.snkAns = []) :=
  ⟨⟨small_legal, waits_decoding [.fail], rfl⟩, ⟨small_legal, (waits_sink [.fail]).2.1, rfl⟩,
    ⟨small_legal, _, rfl, .inl ⟨rfl, rfl, show 15 < 16 by decide, rfl⟩, rfl⟩,
    small_legal, _, rfl, .inr (.inr (.inl ⟨rfl, 1, _, rfl, show 1 < 8 by decide, rfl⟩)), rfl⟩

/-- A Fail behind an answered byte raises IOFailure in the same turn (R194, R196). -/
theorem test_fail_behind_byte : after (blockTurn (shortChunk.answered [.fail] [])) (fun t => t.err == .ioFailure && t.mode == .idle) = true := by
  decide

/-- A Fail behind one accepted byte of a ring flush: that byte is in SNK (R194, R197). -/
theorem test_fail_in_flush : after (blockTurn (blockedCode.answered [] [.fail])) (fun t => t.err == .ioFailure && t.snk == [0x61]) = true := by
  decide

theorem inv_comp : Inv { comp small tenA 5 with snkAns := List.replicate 2 .ok } :=
  ⟨small_legal, by decide, by decide, fun _ => compInv_small, fun h => (nomatch h)⟩

/-- A step of each pipeline from a state of the invariant; and a host that gives the end mark. -/
theorem witness_InvEveryStep :
    (let s := { comp small tenA 5 with snkAns := List.replicate 2 .ok }; Inv s ∧ ∃ t, step s = .next t ∧ t.pos = 9) ∧
    (Inv lastCode ∧ SourceInv lastCode ∧ ∃ t, step lastCode = .next t ∧ t.wp = 7) ∧
    (let s := { State.reset with script := [.host (.giveSrc .eof)] }
     Inv s ∧ SourceInv s ∧ ∃ t, step s = .next t ∧ t.src = [.eof] ∧ t.endGiven = true) :=
  ⟨⟨inv_comp, _, rfl, rfl⟩, ⟨inv_lastCode, by decide, _, rfl, rfl⟩,
    ⟨reference_legal, by decide, by decide, fun h => (nomatch h), fun h => (nomatch h)⟩, by decide, _, rfl, rfl, rfl⟩

/-- A host that gives a byte after the end mark. -/
def afterEnd : State := { State.reset with endGiven := true, script := [.host (.giveSrc (.byte 0x61))] }

/-- The block's turn; and a host that would answer, or connect, behind the end mark. -/
theorem witness_NoStop :
    (Inv lastCode ∧ Inv finalState ∧ Inv { comp small tenA 5 with snkAns := List.replicate 2 .ok } ∧
      ¬ SuppliesAfterEnd lastCode) ∧
    (Inv afterEnd ∧ SuppliesAfterEnd afterEnd) ∧
    SuppliesAfterEnd { afterEnd with endGiven := false, script := [.host (.connect [.eof, .byte 0x61] [])] } := by
  refine ⟨⟨inv_lastCode, inv_finalState, inv_comp, ?_⟩,
    ⟨⟨reference_legal, by decide, by decide, fun h => (nomatch h), fun h => (nomatch h)⟩, .inl ⟨_, _, rfl, rfl⟩⟩,
    .inr ⟨_, _, _, rfl, by decide⟩⟩
  rintro (⟨a, rest, h, -⟩ | ⟨src, ans, rest, h, -⟩) <;> exact nomatch h

/-- The batch of one Code COPY 4, 1, 'a' on an empty ring: the step raises CorruptStream. -/
def corruptNext : State := { decomp small [] with bcnt := 1, batch := [(0, ⟨4, 1, 0x61⟩)] }

theorem inv_corruptNext : Inv corruptNext := by
  refine ⟨small_legal, by decide, by decide, fun h => (nomatch h), fun _ =>
    ⟨by decide, by decide, by decide, by decide, by decide, by decide, ?_, ⟨by decide, by decide⟩⟩⟩
  intro i hi
  have hi' : i < 1 := hi
  interval_cases i
  exact ⟨⟨4, 1, 0x61⟩, rfl, by decide⟩

/-- A step without an error, and one that raises CorruptStream. -/
theorem witness_ErrorsByMode :
    (Inv lastCode ∧ ∃ t, step lastCode = .next t ∧ t.err = lastCode.err) ∧
    (Inv corruptNext ∧ ∃ t, step corruptNext = .next t ∧ t.err = .corruptStream) :=
  ⟨⟨inv_lastCode, _, rfl, rfl⟩, inv_corruptNext, _, rfl, rfl⟩

theorem witness_WindowIsOutput : Inv lastCode ∧ OutputInv lastCode ∧ ∃ t, step lastCode = .next t ∧ t.fbase = 4 :=
  ⟨inv_lastCode, fun _ => by decide, _, rfl, rfl⟩

/-- The input "A" (V21), which compresses to 08 20 in the reference configuration, and an empty one. -/
theorem witness_RoundTrip :
    (let s := { State.reset with
        script := [.host (.write .ctrl 0x01#8)], src := [0x41#8].map SrcAnswer.byte ++ [SrcAnswer.eof], snkAns := List.replicate 24 .ok }
     s.cfg.Legal ∧ s.mode = .idle ∧ s.script = [.host (.write .ctrl 0x01#8)] ∧ s.src = [0x41#8].map SrcAnswer.byte ++ [SrcAnswer.eof] ∧
      s.snkAns = List.replicate 24 .ok ∧ [0x41#8].length * s.cfg.maxCodeBits ≤ 24) ∧
    (let d := { State.reset with
        script := [.host (.write .ctrl 0x03#8)], src := [0x08#8, 0x20#8].map SrcAnswer.byte ++ [SrcAnswer.eof], snkAns := [.ok] }
     d.cfg.Legal ∧ d.cfg.windowSize = State.reset.cfg.windowSize ∧ d.cfg.lookaheadSize = State.reset.cfg.lookaheadSize ∧
      d.mode = .idle ∧ d.script = [.host (.write .ctrl 0x03#8)] ∧ d.src = [0x08#8, 0x20#8].map SrcAnswer.byte ++ [SrcAnswer.eof] ∧
      d.snkAns = List.replicate 1 .ok ∧ [0x41#8].length ≤ 1) := by decide

end Sys2Proof.Tests
end

section
/-! PROOFS of 00_scope.md: what the model answers to an instance whose parameters are not legal (R4, R6). -/

namespace Sys2Proof.Machine

/-- The host's first command is START (60_exceptions.md R205) with the initialisation of the compressor. -/
theorem exec_startCompress (s : State) : exec .startCompress s = startWith initCompress s := by
  rfl

/-- The host's second command is START (60_exceptions.md R205) with the initialisation of the decompressor. -/
theorem exec_startDecompress (s : State) : exec .startDecompress s = startWith initDecompress s := by
  rfl

/-- START looks at the parameters before MODE: an illegal instance is refused even where R205 would ignore the write. -/
theorem startWith_of_not_legal {s : State} (init : State → State) (h : ¬ s.cfg.Legal) :
    startWith init s = .refused .illegalParameters :=
  if_neg h

/-- Both active pipelines are guarded by the parameters; only the idle turn is not. -/
theorem blockTurn_of_not_legal {s : State} (h : ¬ s.cfg.Legal) (hm : s.mode ≠ .idle) :
    blockTurn s = .refused .illegalParameters := by
  unfold blockTurn
  cases hmode : s.mode with
  | idle => exact absurd hmode hm
  | comp => exact if_neg h
  | decomp => exact if_neg h

/-- Settles O39: both STARTs are `startWith`, which tests the parameters first, and so do both arms of an active turn. -/
theorem illegalParameters : Obligations.IllegalParameters := by
  intro s h
  rw [exec_startCompress, exec_startDecompress]
  exact ⟨startWith_of_not_legal initCompress h, startWith_of_not_legal initDecompress h, blockTurn_of_not_legal h⟩

end Sys2Proof.Machine
end

section
/-! PROOFS of 10_state.md: whose turn a step is and how it ends, the frame and the invariant of every step, the registers the host
reads and writes (R20 to R38). -/

namespace Sys2Proof.Machine

/-! ### Whose turn a step is -/

/-- A step on the block's turn. -/
theorem step_eq_blockTurn {s : State} (h : BlockNext s) : step s = blockTurn { s with script := s.script.tail } := by
  unfold step takeTurn
  cases hs : s.script with
  | nil => cases s; cases hs; rfl
  | cons x rest =>
    obtain rfl : x = .block := by simpa [BlockNext, hs] using h
    rfl

/-- A step on the host's turn. -/
theorem step_eq_hostTurn {s : State} {e : HostEvent} {rest : List Turn} (h : s.script = .host e :: rest) :
    step s = hostTurn e { s with script := rest } := by
  simp [step, takeTurn, h]

theorem blockNext_or_host (s : State) : BlockNext s ∨ ∃ e rest, s.script = .host e :: rest := by
  cases hs : s.script with
  | nil => exact .inl (.inl hs)
  | cons x rest =>
    cases x with
    | block => exact .inl (.inr (by simp [hs]))
    | host e => exact .inr ⟨e, rest, rfl⟩

theorem blockTurn_of_idle {s : State} (h : s.mode = .idle) : blockTurn s = .next s := by
  simp [blockTurn, h]

/-! ### The host's turn -/

theorem decodeCtrl_of_start_clear {v : Byte} (h : v.getLsbD 0 = false) : decodeCtrl v = none := if_pos h

theorem decodeCtrl_compress {v : Byte} (h0 : v.getLsbD 0 = true) (h1 : v.getLsbD 1 = false) :
    decodeCtrl v = some .startCompress := by
  rw [decodeCtrl, if_neg (ne_of_eq_of_ne h0 (by decide)), if_pos h1]

theorem decodeCtrl_decompress {v : Byte} (h0 : v.getLsbD 0 = true) (h1 : v.getLsbD 1 = true) :
    decodeCtrl v = some .startDecompress := by
  rw [decodeCtrl, if_neg (ne_of_eq_of_ne h0 (by decide)), if_neg (ne_of_eq_of_ne h1 (by decide))]

/-- Only a write of CTRL with START set does anything (R23). -/
theorem writeReg_ignored {r : Reg} {v : Byte} (s : State) (h : r ≠ .ctrl ∨ v.getLsbD 0 = false) :
    writeReg r v s = .next s := by
  cases r with
  | ctrl =>
    have h0 := h.resolve_left (by simp)
    simp [writeReg, decodeCtrl_of_start_clear h0]
  | _ => rfl

/-- What a write of a register comes to (R23, 60_exceptions.md R205). -/
theorem writeReg_cases (r : Reg) (v : Byte) (s : State) : writeReg r v s = .next s ∨
    writeReg r v s = startWith initCompress s ∨ writeReg r v s = startWith initDecompress s := by
  by_cases h : r ≠ .ctrl ∨ v.getLsbD 0 = false
  · exact .inl (writeReg_ignored s h)
  · obtain ⟨rfl, h0⟩ : r = .ctrl ∧ v.getLsbD 0 = true := by simpa using h
    cases h1 : v.getLsbD 1 with
    | false => simp [writeReg, decodeCtrl_compress h0 h1, exec_startCompress]
    | true => simp [writeReg, decodeCtrl_decompress h0 h1, exec_startDecompress]

theorem startWith_of_legal {s : State} (init : State → State) (h : s.cfg.Legal) :
    startWith init s = .next (if s.mode = .idle then init s else s) := by
  unfold startWith
  rw [if_pos h]
  split <;> rfl

theorem startWith_next {init : State → State} {s t : State} (h : startWith init s = .next t) :
    (s.mode = .idle ∧ t = init s) ∨ t = s := by
  by_cases hp : s.cfg.Legal
  · rw [startWith_of_legal init hp] at h
    injection h with h
    split at h
    · exact .inl ⟨‹_›, h.symm⟩
    · exact .inr h.symm
  · simp [startWith_of_not_legal init hp] at h

theorem giveSource_refused {s : State} (a : SrcAnswer) (h : s.endGiven = true) : giveSource a s = .refused .afterEndMark :=
  if_pos h

theorem connectStreams_refused {src : List SrcAnswer} (ans : List SnkAnswer) (s : State) (h : .eof ∈ src.dropLast) :
    connectStreams src ans s = .refused .afterEndMark :=
  if_pos h

/-- The next state of a turn of the host (60_exceptions.md R207), move by move. -/
inductive HostMove (s : State) : State → Prop
  | reset : HostMove s (resetBlock s)
  | ignored : HostMove s s
  | startCompress : s.mode = .idle → HostMove s (initCompress s)
  | startDecompress : s.mode = .idle → HostMove s (initDecompress s)
  | read (v : Nat) : HostMove s { s with reads := s.reads ++ [v] }
  | giveSrc (a : SrcAnswer) : s.endGiven = false →
      HostMove s { s with src := s.src ++ [a], endGiven := decide (a = .eof) }
  | giveSnk (a : SnkAnswer) : HostMove s { s with snkAns := s.snkAns ++ [a] }
  | connect (src : List SrcAnswer) (ans : List SnkAnswer) : .eof ∉ src.dropLast →
      HostMove s { s with src := src, snkAns := ans, endGiven := decide (.eof ∈ src) }

/-- A host's turn that answers a next state made one of these moves. -/
theorem hostTurn_next {e : HostEvent} {s t : State} (h : hostTurn e s = .next t) : HostMove s t := by
  cases e with
  | reset => cases h; exact .reset
  | read r => cases h; exact .read _
  | giveSnk a => cases h; exact .giveSnk a
  | giveSrc a =>
    obtain ⟨hopen, rfl⟩ := giveSource_next.mp h
    exact .giveSrc a hopen
  | connect src ans =>
    obtain ⟨hend, rfl⟩ := connectStreams_next.mp h
    exact .connect src ans hend
  | write r v =>
    change writeReg r v s = .next t at h
    rcases writeReg_cases r v s with hw | hw | hw <;> rw [hw] at h
    · cases h; exact .ignored
    · rcases startWith_next h with ⟨hidle, rfl⟩ | rfl
      · exact .startCompress hidle
      · exact .ignored
    · rcases startWith_next h with ⟨hidle, rfl⟩ | rfl
      · exact .startDecompress hidle
      · exact .ignored

theorem HostMove.cfg {s t : State} (h : HostMove s t) : t.cfg = s.cfg := by
  cases h <;> rfl

theorem HostMove.snk {s t : State} (h : HostMove s t) : t.snk = s.snk := by
  cases h <;> rfl

/-! ### The block's turn: how it ends, and its frame -/

/-- How the turn of a running pipeline ends: in a state `u` with `K s u` the operation goes on or waits (70_reset_and_hazards.md
R235), or from such a state it completes (60_exceptions.md R206) or takes the entry of an error (R196). -/
def EndsFrom (K : State → State → Prop) (s t : State) : Prop :=
  ∃ u, K s u ∧ (t = u ∨ t = complete u ∨ ∃ e, t = raiseError e u)

theorem Res.Meets.endsFrom {K : State → State → Prop} {s t : State} {r : Res State}
    (h : r.Meets (fun t => K s t ∨ ∃ u, K s u ∧ t = complete u) (K s) (fun _ => K s) True) (ht : r.toOutcome = .next t) :
    EndsFrom K s t := by
  refine Res.Meets.toOutcome (P := EndsFrom K s) (h.mono ?_ ?_ ?_ id) ht
  · rintro t (hk | ⟨u, hk, rfl⟩)
    · exact ⟨t, hk, .inl rfl⟩
    · exact ⟨u, hk, .inr (.inl rfl)⟩
  · exact fun t hk => ⟨t, hk, .inl rfl⟩
  · exact fun e t hk => ⟨t, hk, .inr (.inr ⟨e, rfl⟩)⟩

/-! One equation of `decompressRes` for each control point (43_decompress.md R160). -/

section
variable {s : State}

theorem decompressRes_decode {got : List Bool} (h : s.dphase = .decode got) : decompressRes s = decodeStep got s := by
  simp only [decompressRes, h]

theorem decompressRes_apply_code (h : s.dphase = .apply) (hlt : s.aidx < s.bcnt) :
    decompressRes s = (batchRead s.aidx s).andThen fun c => codeRes c { s with aidx := s.aidx + 1 } := by
  simp only [decompressRes, h, if_pos hlt]

theorem decompressRes_apply_end (h : s.dphase = .apply) (hlt : ¬ s.aidx < s.bcnt) :
    decompressRes s = .ok (batchEnd s) := by
  simp only [decompressRes, h, if_neg hlt]

theorem decompressRes_ringFlush {i : Nat} {acts : List Act} (h : s.dphase = .ringFlush i acts) :
    decompressRes s = flushStep i acts s := by
  simp only [decompressRes, h]

theorem decompressRes_final {i : Nat} (h : s.dphase = .final i) : decompressRes s = finalStep i s := by
  simp only [decompressRes, h]

end

theorem codeRes_keeps (c : Code) (s : State) : (codeRes c s).Keeps KeepsD s := by
  unfold codeRes
  split
  · exact runActs_keeps _ s
  · exact applyCopy_keeps _ _ _ s

/-- The counterpart of `compressStep_keeps` for one step of DECOMPRESS. -/
theorem decompressRes_keeps (s : State) : (decompressRes s).Meets
    (fun t => KeepsD s t ∨ ∃ u, KeepsD s u ∧ t = complete u) (KeepsD s) (fun _ => KeepsD s) True := by
  have lift : ∀ {r : Res State}, r.Keeps KeepsD s → r.Meets
      (fun t => KeepsD s t ∨ ∃ u, KeepsD s u ∧ t = complete u) (KeepsD s) (fun _ => KeepsD s) True := fun h =>
    Res.Meets.mono_ok h fun _ h => Or.inl h
  cases hph : s.dphase with
  | decode got =>
    rw [decompressRes_decode hph]
    exact lift (decodeStep_keeps got s)
  | apply =>
    by_cases hlt : s.aidx < s.bcnt
    · rw [decompressRes_apply_code hph hlt]
      refine lift (Res.Keeps.seqD (fun _ => { s with aidx := s.aidx + 1 }) ?_ fun c => codeRes_keeps c _)
      refine (batchRead_meets s.aidx s).mono (fun _ _ => ?_) (fun _ h => h.elim) ?_ fun _ => trivial
      · exact KeepsD.refl s
      · rintro e t ⟨-, -, rfl⟩; exact .refl _
    · rw [decompressRes_apply_end hph hlt]
      exact .inl (batchEnd_keeps s)
  | ringFlush i acts =>
    rw [decompressRes_ringFlush hph]
    exact lift (flushStep_keeps i acts s)
  | final i =>
    rw [decompressRes_final hph]
    exact (finalStep_keeps i s).mono_ok fun _ h => .inr h

theorem legal_of_blockTurn_next {s t : State} (h : blockTurn s = .next t) (hm : s.mode ≠ .idle) : s.cfg.Legal := by
  by_contra hp
  simp [blockTurn_of_not_legal hp hm] at h

/-- A turn of the block that answers a next state, by MODE. -/
theorem blockTurn_next {s t : State} (h : blockTurn s = .next t) : (s.mode = .idle ∧ t = s) ∨
    (s.mode = .comp ∧ EndsFrom KeepsC s t) ∨ (s.mode = .decomp ∧ EndsFrom KeepsD s t) := by
  cases hm : s.mode with
  | idle =>
    rw [blockTurn_of_idle hm] at h
    cases h
    exact .inl ⟨rfl, rfl⟩
  | comp =>
    have hp := legal_of_blockTurn_next h (by simp [hm])
    rw [blockTurn_eq hp, turnRes, hm] at h
    exact .inr (.inl ⟨rfl, (compressStep_keeps s).endsFrom h⟩)
  | decomp =>
    have hp := legal_of_blockTurn_next h (by simp [hm])
    rw [blockTurn_eq hp, turnRes, hm] at h
    exact .inr (.inr ⟨rfl, (decompressRes_keeps s).endsFrom h⟩)

/-- What no turn of the block changes, in whatever way it ends. -/
def BlockFrame (s t : State) : Prop := t.cfg = s.cfg ∧ t.endGiven = s.endGiven ∧ t.src <:+ s.src ∧ s.snk <+: t.snk

theorem EndsFrom.frame {K : State → State → Prop} {s t : State} (h : EndsFrom K s t) (hK : ∀ u, K s u → KeepsCommon s u) :
    BlockFrame s t := by
  obtain ⟨u, hu, hend⟩ := h
  obtain ⟨⟨hcfg, -⟩, hgiven, hsrc, -, -, -, hsnk⟩ := hK u hu
  rcases hend with rfl | rfl | ⟨e, rfl⟩ <;> exact ⟨hcfg, hgiven, hsrc, hsnk⟩

theorem blockTurn_frame {s t : State} (h : blockTurn s = .next t) : BlockFrame s t := by
  rcases blockTurn_next h with ⟨-, rfl⟩ | ⟨-, h⟩ | ⟨-, h⟩
  · exact ⟨rfl, rfl, List.suffix_rfl, List.prefix_rfl⟩
  · exact h.frame fun _ hu => hu.1
  · exact h.frame fun _ hu => hu.1

/-- A turn that left the operation running, or completed it, took no error entry. -/
theorem EndsFrom.not_raised {K : State → State → Prop} {s t : State} (h : EndsFrom K s t)
    (ht : t.mode ≠ .idle ∨ t.done = true) : ∃ u, K s u ∧ (t = u ∨ t = complete u) := by
  obtain ⟨u, hu, rfl | rfl | ⟨e, rfl⟩⟩ := h
  · exact ⟨t, hu, .inl rfl⟩
  · exact ⟨u, hu, .inr rfl⟩
  · simp at ht

/-- A step that answers a next state: the block's turn within its frame, or a move of the host. -/
theorem step_next {s t : State} (h : step s = .next t) :
    blockTurn { s with script := s.script.tail } = .next t ∨ ∃ rest, HostMove { s with script := rest } t := by
  rcases blockNext_or_host s with hb | ⟨e, rest, hs⟩
  · rw [step_eq_blockTurn hb] at h
    exact .inl h
  · rw [step_eq_hostTurn hs] at h
    exact .inr ⟨rest, hostTurn_next h⟩

/-! ### The invariant -/

/-- No Code has no bits. -/
theorem decodeCode_nil {p : Params} (hp : p.Legal) (c : Code) (rest : List Bool) : decodeCode p [] ≠ .code c rest := by
  intro hc
  have hlen := congrArg List.length (decodeCode_code hp hc).2
  have := hp.lenBits_pos
  simp [encodeCode] at hlen
  omega

/-- Applying a Code of the format (43_decompress.md R163 to R165). -/
theorem codeRes_inv {c : Code} {s : State} (hp : s.cfg.Legal) (h : RingOk s) (hc : Code.Valid s.cfg c) :
    (codeRes c s).Meets (fun t => RingOk t ∧ SameBatch s t ∧ t.dphase = .apply)
      (fun t => SameBatch s t ∧ ∃ rest, RingParked rest t ∧ ∀ a ∈ rest, ActValid s.cfg a)
      (fun e _ => e = .corruptStream ∨ e = .ioFailure) False := by
  obtain ⟨hzero, hoff, hlen⟩ := hc
  unfold codeRes
  split
  · exact applyLit_inv hp h
  · exact applyCopy_inv hp h ⟨by omega, hoff, by omega, hlen⟩

/-- One step of DECOMPRESS (43_decompress.md R160): the counterpart of `compressStep_inv`. -/
theorem decompressRes_inv {s : State} (hp : s.cfg.Legal) (hr : Memory.wf s.ring) (hb : Memory.wf s.batch)
    (h : DecompInv s) : (decompressRes s).Meets
      (fun t => DecompOk s t ∨ ∃ u, t = complete u ∧ u.cfg = s.cfg ∧ Memory.wf u.ring ∧ Memory.wf u.batch) (DecompOk s)
      (fun e _ => e = .truncatedStream ∨ e = .corruptStream ∨ e = .ioFailure) False := by
  cases hph : s.dphase with
  | decode got =>
    rw [decompressRes_decode hph]
    exact (decodeStep_inv hp hr hb h hph).mono (fun _ h => .inl h) (fun _ h => h) (fun _ _ h => h.imp_right .inr) id
  | apply =>
    by_cases hlt : s.aidx < s.bcnt
    · obtain ⟨hring, hfill, hcap, -, hcodes⟩ := h.atApply hph hr
      obtain ⟨c, hget, hvalid⟩ := hcodes s.aidx hlt
      rw [decompressRes_apply_code hph hlt, batchRead_ok (by omega) hget, andThen_ok]
      refine (codeRes_inv (s := { s with aidx := s.aidx + 1 }) hp hring hvalid).mono (fun t ht => .inl ?_) (fun t ht => ?_)
        (fun _ _ h => .inr h) id
      · exact decomp_of_applied (s := { s with aidx := s.aidx + 1 }) hfill hcap hb hcodes hlt ht
      · exact decomp_of_parked (s := { s with aidx := s.aidx + 1 }) hfill hcap hb hcodes hlt ht
    · rw [decompressRes_apply_end hph hlt]
      exact .inl (batchEnd_inv hp hr hb h hph)
  | ringFlush i acts =>
    rw [decompressRes_ringFlush hph]
    exact (flushStep_inv hp hr hb h hph).mono (fun _ h => .inl h) (fun _ h => h) (fun _ _ h => .inr h) id
  | final i =>
    rw [decompressRes_final hph]
    exact (finalStep_inv hr hb h hph).mono (fun _ h => .inr h) (fun _ h => h) (fun _ _ h => .inr (.inr h)) id

/-- While MODE = IDLE the invariant is about the parameters, the flags and the form of the buffers only. -/
theorem Inv.of_idle {s : State} (hm : s.mode = .idle) (hp : s.cfg.Legal) (hf : FlagsInv s) (hb : BuffersWf s) : Inv s :=
  ⟨hp, hf, hb, by simp [hm], by simp [hm]⟩

theorem inv_resetBlock {s : State} (hp : s.cfg.Legal) : Inv (resetBlock s) :=
  .of_idle rfl hp (by simp [FlagsInv]) (by simp [BuffersWf])

/-- START of a compression begins in the domains of `CompInv` (R36). -/
theorem inv_initCompress {s : State} (h : Inv s) : Inv (initCompress s) := by
  obtain ⟨hp, -, ⟨-, hring, hbatch⟩, -, -⟩ := h
  exact ⟨hp, by simp [FlagsInv], ⟨nil_wf, hring, hbatch⟩, fun _ => by simp [CompInv, CPhaseInv], by simp⟩

/-- START of a decompression begins in the domains of `DecompInv` (R36). -/
theorem inv_initDecompress {s : State} (h : Inv s) : Inv (initDecompress s) := by
  obtain ⟨hp, -, ⟨hchunk, -, -⟩, -, -⟩ := h
  have hroom : 0 < s.cfg.ringCap ∧ 0 < s.cfg.batchCap := by
    obtain ⟨-, hw, -, -, -, hring, hbatch⟩ := hp
    omega
  refine ⟨hp, by simp [FlagsInv], ⟨hchunk, nil_wf, nil_wf⟩, by simp, fun _ => ?_⟩
  simpa [DecompInv, DPhaseInv, hroom] using decodeCode_nil hp

/-- A move of the host keeps the invariant: a START ends the idle state within its domains, the other moves touch no register of
the block, or reset it. -/
theorem HostMove.inv {s t : State} (h : HostMove s t) (hs : Inv s) : Inv t := by
  cases h with
  | reset => exact inv_resetBlock hs.1
  | startCompress => exact inv_initCompress hs
  | startDecompress => exact inv_initDecompress hs
  | ignored | read | giveSrc | giveSnk | connect => exact hs

/-- The two moves that write SRC put nothing behind an end mark, and note one they give (60_exceptions.md R207). -/
theorem HostMove.sourceInv {s t : State} (h : HostMove s t) (hs : SourceInv s) : SourceInv t := by
  cases h with
  | giveSrc a hopen =>
    have hnone : .eof ∉ s.src := fun hm => by simp [hs.2 hm] at hopen
    exact ⟨by simpa using hnone, fun hm => by simpa [hnone, eq_comm] using hm⟩
  | connect src ans hend => exact ⟨hend, fun hm => by simpa using hm⟩
  | reset | startCompress | startDecompress | ignored | read | giveSnk => exact hs

/-- What is left of SRC after the block has taken from its head still has nothing behind the end mark. -/
theorem SourceInv.of_suffix {s t : State} (hs : SourceInv s) (hsrc : t.src <:+ s.src) (hg : t.endGiven = s.endGiven) :
    SourceInv t := by
  refine ⟨fun hm => hs.1 ?_, fun hm => by rw [hg]; exact hs.2 (hsrc.subset hm)⟩
  obtain ⟨p, hp⟩ := hsrc
  have hne : t.src ≠ [] := by rintro h; simp [h] at hm
  rw [← hp, List.dropLast_append_of_ne_nil hne]
  exact List.mem_append_right p hm

/-- While a pipeline is active no error is noted (R22). -/
theorem FlagsInv.err_none {s : State} (h : FlagsInv s) (hm : s.mode ≠ .idle) : s.err = .none := by
  obtain ⟨-, -, herr, -⟩ := h
  exact not_not.mp fun hne => hm (herr hne)

/-- However the turn of a pipeline ends, the flags agree after it, and no other pipeline is active. -/
theorem EndsFrom.flags {K : State → State → Prop} {s t : State} (h : EndsFrom K s t) (hK : ∀ u, K s u → KeepsCommon s u)
    (hf : FlagsInv s) (hm : s.mode ≠ .idle) : FlagsInv t ∧ (t.mode = .idle ∨ t.mode = s.mode) := by
  obtain ⟨u, hu, hend⟩ := h
  obtain ⟨⟨-, hmode, hbusy, hdone, herr⟩, -⟩ := hK u hu
  rcases hend with rfl | rfl | ⟨e, rfl⟩
  · exact ⟨by simpa only [FlagsInv, hmode, hbusy, hdone, herr] using hf, .inr hmode⟩
  · have hnone : u.err = .none := herr.trans (hf.err_none hm)
    exact ⟨by simp [FlagsInv, hnone], .inl rfl⟩
  · exact ⟨by simp [FlagsInv], .inl rfl⟩

/-- The compressor leaves RING and BATCH as they are, or an error empties them. -/
theorem EndsFrom.ring_batch_wf {s t : State} (h : EndsFrom KeepsC s t) (hb : BuffersWf s) :
    Memory.wf t.ring ∧ Memory.wf t.batch := by
  obtain ⟨u, ⟨-, -, -, -, -, hring, hbatch, -⟩, hend⟩ := h
  have hu : Memory.wf u.ring ∧ Memory.wf u.batch := by rw [hring, hbatch]; exact hb.2
  rcases hend with rfl | rfl | ⟨e, rfl⟩
  · exact hu
  · exact hu
  · exact ⟨nil_wf, nil_wf⟩

/-- The decompressor leaves CHUNK as it is, or an error empties it. -/
theorem EndsFrom.chunk_wf {s t : State} (h : EndsFrom KeepsD s t) (hb : BuffersWf s) : Memory.wf t.chunk := by
  obtain ⟨u, ⟨-, -, -, -, -, hchunk, -⟩, hend⟩ := h
  have hu : Memory.wf u.chunk := by rw [hchunk]; exact hb.1
  rcases hend with rfl | rfl | ⟨e, rfl⟩
  · exact hu
  · exact hu
  · exact nil_wf

/-- `compressStep_inv` for the state the turn leaves, an error's included. -/
theorem compressStep_outcome_inv {s t : State} (hp : s.cfg.Legal) (hwf : Memory.wf s.chunk) (hs : CompInv s)
    (h : (compressStep s).toOutcome = .next t) : Memory.wf t.chunk ∧ (t.mode = .comp → CompInv t) := by
  refine Res.Meets.toOutcome (P := fun t => Memory.wf t.chunk ∧ (t.mode = .comp → CompInv t))
    ((compressStep_inv hp hwf hs).mono ?_ ?_ ?_ id) h
  · rintro t (⟨-, hchunk, hinv⟩ | ⟨u, rfl, -, hchunk⟩)
    · exact ⟨hchunk, fun _ => hinv⟩
    · exact ⟨hchunk, by simp⟩
  · exact fun t ⟨_, hchunk, hinv⟩ => ⟨hchunk, fun _ => hinv⟩
  · exact fun e t _ => ⟨nil_wf, by simp⟩

/-- `decompressRes_inv` for the state the turn leaves, an error's included. -/
theorem decompressRes_outcome_inv {s t : State} (hp : s.cfg.Legal) (hr : Memory.wf s.ring) (hb : Memory.wf s.batch)
    (hs : DecompInv s) (h : (decompressRes s).toOutcome = .next t) :
    (Memory.wf t.ring ∧ Memory.wf t.batch) ∧ (t.mode = .decomp → DecompInv t) := by
  refine Res.Meets.toOutcome (P := fun t => (Memory.wf t.ring ∧ Memory.wf t.batch) ∧ (t.mode = .decomp → DecompInv t))
    ((decompressRes_inv hp hr hb hs).mono ?_ ?_ ?_ id) h
  · rintro t (⟨-, hring, hbatch, hinv⟩ | ⟨u, rfl, -, hwf⟩)
    · exact ⟨⟨hring, hbatch⟩, fun _ => hinv⟩
    · exact ⟨hwf, by simp⟩
  · exact fun t ⟨_, hring, hbatch, hinv⟩ => ⟨⟨hring, hbatch⟩, fun _ => hinv⟩
  · exact fun e t _ => ⟨⟨nil_wf, nil_wf⟩, by simp⟩

/-- The block's turn keeps the invariant: the frame gives the flags and the other pipeline's buffers, the active pipeline's own
invariant the rest. -/
theorem blockTurn_inv {s t : State} (hs : Inv s) (h : blockTurn s = .next t) : Inv t := by
  obtain ⟨hp, hf, hb, hc, hd⟩ := id hs
  obtain ⟨hchunk, hring, hbatch⟩ := id hb
  have hp' : t.cfg.Legal := by rw [(blockTurn_frame h).1]; exact hp
  rw [blockTurn_eq hp, turnRes] at h
  cases hm : s.mode with
  | idle =>
    rw [hm] at h
    cases h
    exact hs
  | comp =>
    rw [hm] at h
    have hend := (compressStep_keeps s).endsFrom h
    obtain ⟨hflags, hmode⟩ := hend.flags (fun _ hu => hu.1) hf (by simp [hm])
    obtain ⟨hwf, hinv⟩ := compressStep_outcome_inv hp hchunk (hc hm) h
    exact ⟨hp', hflags, ⟨hwf, hend.ring_batch_wf hb⟩, hinv, fun h' => by simp [h', hm] at hmode⟩
  | decomp =>
    rw [hm] at h
    have hend := (decompressRes_keeps s).endsFrom h
    obtain ⟨hflags, hmode⟩ := hend.flags (fun _ hu => hu.1) hf (by simp [hm])
    obtain ⟨hwf, hinv⟩ := decompressRes_outcome_inv hp hring hbatch (hd hm) h
    exact ⟨hp', hflags, ⟨hend.chunk_wf hb, hwf⟩, fun h' => by simp [h', hm] at hmode, hinv⟩

/-- Settles O56: the block's turn by `blockTurn_inv` and its frame, the host's turn move by move. -/
theorem invEveryStep : Obligations.InvEveryStep := by
  intro s t hs h
  rcases step_next h with hturn | ⟨rest, hmove⟩
  · obtain ⟨-, hgiven, hsrc, -⟩ := blockTurn_frame hturn
    exact ⟨blockTurn_inv (s := { s with script := s.script.tail }) hs hturn, fun hi => hi.of_suffix hsrc hgiven⟩
  · exact ⟨hmove.inv (s := { s with script := rest }) hs, fun hi => hmove.sourceInv (s := { s with script := rest }) hi⟩

/-! ### No stop -/

/-- From the invariant the block's turn neither faults nor is refused. -/
theorem blockTurn_answers {s : State} (hs : Inv s) : ∃ t, blockTurn s = .next t := by
  obtain ⟨hp, -, ⟨hchunk, hring, hbatch⟩, hc, hd⟩ := hs
  rw [blockTurn_eq hp, turnRes]
  cases hm : s.mode with
  | idle => exact ⟨s, rfl⟩
  | comp =>
    exact Res.Meets.next ((compressStep_inv hp hchunk (hc hm)).mono (fun _ _ => trivial) (fun _ _ => trivial)
      (fun _ _ _ => trivial) id)
  | decomp =>
    exact Res.Meets.next ((decompressRes_inv hp hring hbatch (hd hm)).mono (fun _ _ => trivial) (fun _ _ => trivial)
      (fun _ _ _ => trivial) id)

/-- Under legal parameters every write of a register is answered. -/
theorem writeReg_answers (r : Reg) (v : Byte) {s : State} (hp : s.cfg.Legal) : ∃ t, writeReg r v s = .next t := by
  rcases writeReg_cases r v s with h | h | h
  · exact ⟨s, h⟩
  · exact ⟨_, h.trans (startWith_of_legal initCompress hp)⟩
  · exact ⟨_, h.trans (startWith_of_legal initDecompress hp)⟩

/-- A step of the host under legal parameters that supplies nothing after the end mark is answered. -/
theorem hostStep_answers {s : State} {e : HostEvent} {rest : List Turn} (hp : s.cfg.Legal) (hs : s.script = .host e :: rest)
    (hend : ¬ SuppliesAfterEnd s) : ∃ t, hostTurn e { s with script := rest } = .next t := by
  cases e with
  | reset | read | giveSnk => exact ⟨_, rfl⟩
  | write r v => exact writeReg_answers r v hp
  | giveSrc a =>
    have hopen : s.endGiven = false := by
      by_contra hg
      exact hend (.inl ⟨a, rest, hs, by simpa using hg⟩)
    exact ⟨_, giveSource_next.mpr ⟨hopen, rfl⟩⟩
  | connect src ans =>
    have hlast : .eof ∉ src.dropLast := fun hm => hend (.inr ⟨src, ans, rest, hs, hm⟩)
    exact ⟨_, connectStreams_next.mpr ⟨hlast, rfl⟩⟩

/-- Settles O57: every turn is answered, but for the two moves of U19, which their own tests refuse. -/
theorem noStop : Obligations.NoStop := by
  refine fun s hs => ⟨fun hend => ?_, ?_⟩
  · rcases blockNext_or_host s with hb | ⟨e, rest, hscript⟩
    · rw [step_eq_blockTurn hb]
      exact blockTurn_answers (s := { s with script := s.script.tail }) hs
    · rw [step_eq_hostTurn hscript]
      exact hostStep_answers hs.1 hscript hend
  · rintro (⟨a, rest, hscript, hgiven⟩ | ⟨src, ans, rest, hscript, hmem⟩)
    · rw [step_eq_hostTurn hscript]
      exact giveSource_refused a hgiven
    · rw [step_eq_hostTurn hscript]
      exact connectStreams_refused ans _ hmem

/-! ### Frames -/

/-- Settles O42: CFG is in the frame of the block's turn, and no move of the host writes it. -/
theorem configConstant : Obligations.ConfigConstant := by
  intro s t h
  rcases step_next h with hturn | ⟨rest, hmove⟩
  · exact (blockTurn_frame hturn).1
  · exact hmove.cfg

/-- Settles O51: SNK grows in the frame of the block's turn, and no move of the host writes it. -/
theorem sinkAppendOnly : Obligations.SinkAppendOnly := by
  intro s t h
  rcases step_next h with hturn | ⟨rest, hmove⟩
  · obtain ⟨-, -, -, hsnk⟩ := blockTurn_frame hturn
    exact hsnk
  · rw [hmove.snk]

/-- Settles O52: the block by the frame of its turn, the host's two moves by what `giveSource` and `connectStreams` answer. -/
theorem sourceHeadOnly : Obligations.SourceHeadOnly := by
  refine ⟨fun s t h => ?_, fun s a => ⟨fun hopen => ?_, giveSource_refused a⟩,
    fun s src ans => ⟨fun hend => ?_, connectStreams_refused ans s⟩⟩
  · obtain ⟨-, hgiven, hsrc, -⟩ := blockTurn_frame h
    exact ⟨hsrc, hgiven⟩
  · exact ⟨_, giveSource_next.mpr ⟨hopen, rfl⟩, rfl, by simp, rfl⟩
  · exact ⟨_, connectStreams_next.mpr ⟨hend, rfl⟩, rfl, rfl, by simp, rfl⟩

/-- Settles O49: no error was entered, so the compressor's frame holds between `s` and the state it went on or completed in. -/
theorem compOwnership : Obligations.CompOwnership := by
  intro s t hm h ht
  rcases blockTurn_next h with ⟨hm', -⟩ | ⟨-, hend⟩ | ⟨hm', -⟩
  · simp [hm] at hm'
  · obtain ⟨u, ⟨⟨hctl, -⟩, hsame⟩, rfl | rfl⟩ := hend.not_raised (ht.imp_left fun h' => by simp [h'])
    · exact ⟨hsame, fun _ => hctl⟩
    · exact ⟨hsame, by simp⟩
  · simp [hm] at hm'

/-- Settles O50: no error was entered, so the decompressor's frame holds between `s` and the state it went on or completed in. -/
theorem decompOwnership : Obligations.DecompOwnership := by
  intro s t hm h ht
  rcases blockTurn_next h with ⟨hm', -⟩ | ⟨hm', -⟩ | ⟨-, hend⟩
  · simp [hm] at hm'
  · simp [hm] at hm'
  · obtain ⟨u, ⟨⟨hctl, -⟩, hsame⟩, rfl | rfl⟩ := hend.not_raised (ht.imp_left fun h' => by simp [h'])
    · exact ⟨hsame, fun _ => hctl⟩
    · exact ⟨hsame, by simp⟩

/-- Settles O46: the block has the turn, and while MODE = IDLE it leaves the state alone. -/
theorem idleWaits : Obligations.IdleWaits := fun s hm hb => by
  rw [step_eq_blockTurn hb]
  exact blockTurn_of_idle hm

/-! ### The registers the host sees -/

/-- Settles O4: the three forms of the byte by `decodeCtrl`'s two tests; the two encodings are bytes written out. -/
theorem ctrlByte : Obligations.CtrlByte := fun _ _ =>
  ⟨decodeCtrl_of_start_clear, decodeCtrl_compress, decodeCtrl_decompress, by rfl, by rfl⟩

/-- Settles O40: `writeReg_ignored` is this statement, for the host's turn. -/
theorem ignoredWrites : Obligations.IgnoredWrites := fun s _ _ h => writeReg_ignored s h

theorem ErrCode.number_le (e : ErrCode) : e.number ≤ 4 := by
  cases e <;> decide

theorem Mode.number_le (m : Mode) : m.number ≤ 2 := by
  cases m <;> decide

/-- The fields of STATUS (R23) as a sum: it fits the byte. -/
theorem statusByte_toNat (s : State) :
    (statusByte s).toNat = s.busy.toNat + 2 * s.done.toNat + 4 * s.err.number + 32 * s.mode.number := by
  have hbusy := s.busy.toNat_le
  have hdone := s.done.toNat_le
  have herr := s.err.number_le
  have hmode := s.mode.number_le
  rw [statusByte, BitVec.toNat_ofNat]
  omega

/-- STATUS comes apart again (R23): each field is below the weight of the next one. -/
theorem statusByte_fields (s : State) : (statusByte s).toNat < 128 ∧ (statusByte s).toNat % 2 = s.busy.toNat ∧
    (statusByte s).toNat / 2 % 2 = s.done.toNat ∧ (statusByte s).toNat / 4 % 8 = s.err.number ∧
    (statusByte s).toNat / 32 = s.mode.number := by
  have hbusy := s.busy.toNat_le
  have hdone := s.done.toNat_le
  have herr := s.err.number_le
  have hmode := s.mode.number_le
  rw [statusByte_toNat]
  omega

/-- Settles O41: the value is `readReg`'s, register by register. -/
theorem registerReads : Obligations.RegisterReads := by
  refine fun s r => ⟨readReg r s, rfl, ?_, ?_, ?_, ?_, ?_, ?_, ?_⟩ <;> rintro rfl
  exacts [rfl, statusByte_fields s, rfl, rfl, rfl, rfl, rfl]

/-- Settles O44: the reset state's fields, one law of `State.resetWith` each. -/
theorem resetValues : Obligations.ResetValues := by
  simp [Obligations.ResetValues, State.reset, clearedCode]

end Sys2Proof.Machine
end

section
/-! PROOFS of 30_encoding.md: DECODE_CODE on bits that are long enough, the encoding of a Code read back, the length of a Code, the
opcode map (R81 to R88). -/

namespace Sys2Proof

/-! ### DECODE_CODE on bits that are long enough -/

/-- Zero length bits and a byte are a Code without a match (R81). -/
theorem decodeCode_of_len_zero {p : Params} {bits : List Bool} (hn : p.lenBits + 8 ≤ bits.length)
    (hlen : bitsVal (bits.take p.lenBits) = 0) :
    decodeCode p bits = .code ⟨0, 0, BitVec.ofNat 8 (bitsVal ((bits.drop p.lenBits).take 8))⟩ (bits.drop (p.lenBits + 8)) := by
  have hl : p.lenBits ≤ bits.length := by omega
  have hb : 8 ≤ bits.length - p.lenBits := by omega
  simp [decodeCode, takeField_eq, litBits, hl, hlen, hb]

/-- Length bits that are not all zero, an offset field and a byte are a copy Code (R82, R84). -/
theorem decodeCode_of_len_pos {p : Params} {bits : List Bool} (hn : p.lenBits + p.offBits + 8 ≤ bits.length)
    (hlen : 0 < bitsVal (bits.take p.lenBits)) :
    decodeCode p bits = .code
      ⟨bitsVal ((bits.drop p.lenBits).take p.offBits) + 1, bitsVal (bits.take p.lenBits),
        BitVec.ofNat 8 (bitsVal ((bits.drop (p.lenBits + p.offBits)).take 8))⟩
      (bits.drop (p.lenBits + p.offBits + 8)) := by
  have hl : p.lenBits ≤ bits.length := by omega
  have ho : p.offBits ≤ bits.length - p.lenBits := by omega
  have hb : 8 ≤ bits.length - (p.lenBits + p.offBits) := by omega
  simp [decodeCode, takeField_eq, litBits, hl, hlen, ho, hb]

/-- Settles O6: the length bits are all zero or they are not, and either way there are enough bits; R9 then holds of what
was decoded (`decodeCode_code`). -/
theorem noIllegalPattern : Obligations.NoIllegalPattern := by
  intro p bits hp
  have hzero (hn : p.lenBits + 8 ≤ bits.length) (hlen : bitsVal (bits.take p.lenBits) = 0) :
      ∃ c rest, decodeCode p bits = .code c rest ∧ c.len = 0 ∧ Code.Valid p c :=
    have hd := decodeCode_of_len_zero hn hlen
    ⟨_, _, hd, rfl, (decodeCode_code hp hd).1⟩
  refine ⟨fun hn hz => hzero hn ((bitsVal_zero_iff _).mpr hz), fun hn => ?_⟩
  rcases Nat.eq_zero_or_pos (bitsVal (bits.take p.lenBits)) with hlen | hlen
  · obtain ⟨c, rest, hd, -, hc⟩ := hzero (by omega) hlen
    exact ⟨c, rest, hd, hc⟩
  · have hd := decodeCode_of_len_pos hn hlen
    exact ⟨_, _, hd, (decodeCode_code hp hd).1⟩

/-! ### The encoding of a Code -/

/-- A Code of R9 is read back from its encoding, field by field: each value fits its width. -/
theorem decodeCode_encodeCode {p : Params} (hp : p.Legal) {c : Code} (hc : Code.Valid p c) (rest : List Bool) :
    decodeCode p (encodeCode p c ++ rest) = .code c rest := by
  obtain ⟨off, len, b⟩ := c
  obtain ⟨hzero, hoff, hlen⟩ : (len = 0 ↔ off = 0) ∧ off ≤ p.windowSize ∧ len ≤ p.maxMatch := hc
  have hmm := hp.maxMatch
  have hw := hp.pow_offBits
  have hl : len < 2 ^ p.lenBits := by omega
  have hb : b.toNat < 2 ^ litBits := b.isLt
  by_cases hpos : 0 < len
  · have ho : off - 1 < 2 ^ p.offBits := by omega
    have hoff1 : off - 1 + 1 = off := by omega
    simp [decodeCode, encodeCode, takeField_bitsOf hl, takeField_bitsOf ho, takeField_bitsOf hb, hpos, hoff1]
  · obtain rfl : len = 0 := by omega
    obtain rfl : off = 0 := hzero.mp rfl
    simp [decodeCode, encodeCode, takeField_bitsOf hl, takeField_bitsOf hb]

/-- The encoding of a Code is as long as R86 says. -/
theorem encodeCode_length (p : Params) (c : Code) : (encodeCode p c).length = Machine.codeWidth p c := by
  by_cases h : c.len = 0
  · simp [encodeCode, Machine.codeWidth, h]
  · simp [encodeCode, Machine.codeWidth, h, Nat.pos_of_ne_zero h, add_assoc]

/-- The first LEN_BITS bits of a Code are its length field (R81, R82). -/
theorem encodeCode_take_lenBits (p : Params) (c : Code) (rest : List Bool) :
    (encodeCode p c ++ rest).take p.lenBits = bitsOf p.lenBits c.len := by
  rw [encodeCode, List.append_assoc, List.take_left' (bitsOf_length _ _)]

/-- A length that fits its field is zero exactly when the bits of the field are. -/
theorem bitsOf_all_false_iff {n v : Nat} (h : v < 2 ^ n) : (∀ b ∈ bitsOf n v, b = false) ↔ v = 0 := by
  rw [← bitsVal_zero_iff, bitsVal_bitsOf, Nat.mod_eq_of_lt h]

/-- The first field of a decoded Code tells whether it has a match, and the rest starts behind its last bit (R86). -/
theorem decodeCode_code_width {p : Params} (hp : p.Legal) {bits rest : List Bool} {c : Code}
    (h : decodeCode p bits = .code c rest) :
    ((∀ b ∈ bits.take p.lenBits, b = false) ↔ c.len = 0) ∧
      Machine.codeWidth p c ≤ bits.length ∧ rest = bits.drop (Machine.codeWidth p c) := by
  obtain ⟨⟨-, -, hlen⟩, rfl⟩ := decodeCode_code hp h
  have hmm := hp.maxMatch
  refine ⟨?_, by simp [encodeCode_length], (List.drop_left' (encodeCode_length p c)).symm⟩
  rw [encodeCode_take_lenBits]
  exact bitsOf_all_false_iff (by omega)

/-- Settles O7: `decodeCode_code_width`, with the two widths of R86 written out. -/
theorem codeLength : Obligations.CodeLength := by
  intro p bits rest c hp h
  obtain ⟨hiff, hn, hrest⟩ := decodeCode_code_width hp h
  refine ⟨fun hz => ?_, fun ⟨b, hb, hbt⟩ => ?_⟩
  · have hw : Machine.codeWidth p c = p.lenBits + 8 := if_pos (hiff.mp hz)
    exact hw ▸ ⟨hn, hrest⟩
  · have hne : c.len ≠ 0 := fun h0 => by simp [hiff.mpr h0 b hb] at hbt
    have hw : Machine.codeWidth p c = p.lenBits + p.offBits + 8 := if_neg hne
    exact hw ▸ ⟨hn, hrest⟩

/-! ### The instructions of the stream -/

/-- The row of a Code is the instruction it came from (R87, R94). -/
theorem Instr.ofCode_of_toCode {i : Instr} {c : Code} (h : i.toCode = some c) : Instr.ofCode c = some i := by
  cases i <;> cases h <;> rfl

/-- An instruction of the stream is put as its Code. -/
theorem encode_of_toCode (p : Params) {i : Instr} {c : Code} (h : i.toCode = some c) : encode p i = encodeCode p c := by
  cases i <;> cases h <;> rfl

/-- A literal alone makes a Code of R9. -/
theorem Code.valid_lit (p : Params) (c : Byte) : Code.Valid p ⟨0, 0, c⟩ :=
  ⟨Iff.rfl, Nat.zero_le _, Nat.zero_le _⟩

/-- The operands of a copy make a Code of R9. -/
theorem CopyOperands.valid {p : Params} {off n : Nat} (h : CopyOperands p off n) (c : Byte) : Code.Valid p ⟨off, n, c⟩ := by
  obtain ⟨hoff, hoffW, hn, hnM⟩ := h
  exact ⟨by simp only; omega, hoffW, hnM⟩

/-- The Code of a well-formed instruction satisfies R9. -/
theorem Instr.valid_of_wellFormed {p : Params} {i : Instr} {c : Code} (hw : i.wellFormed p = true) (h : i.toCode = some c) :
    Code.Valid p c := by
  cases i <;> cases h
  case lit => exact Code.valid_lit p _
  all_goals exact CopyOperands.valid (of_decide_eq_true hw) _

/-- The instruction of a Code of R9 is decoded from the Code's bits. -/
theorem decodeWire_encodeCode {p : Params} (hp : p.Legal) {i : Instr} {c : Code} (hc : Code.Valid p c) (hi : i.toCode = some c)
    (rest : List Bool) : decodeWire p (encodeCode p c ++ rest) = some (i, rest) := by
  simp [decodeWire, decodeCode_encodeCode hp hc, Instr.ofCode_of_toCode hi]

/-- Settles O3: a well-formed instruction has a Code of R9 and is put as its bits. -/
theorem wireRoundTrip : Obligations.WireRoundTrip := by
  intro p i rest hp hw hi
  obtain ⟨c, hc⟩ := Option.ne_none_iff_exists'.mp hi
  rw [encode_of_toCode p hc]
  exact decodeWire_encodeCode hp (Instr.valid_of_wellFormed hw hc) hc rest

/-! ### The words of the opcode table -/

/-- Multiples of 2^n do not reach the `n` low bits. -/
theorem bitsOf_mul_add_low (n a b : Nat) : bitsOf n (a * 2 ^ n + b) = bitsOf n b :=
  bitsVal_inj (by simp) (by simp [bitsVal_bitsOf])

/-- A word with `a` above `n` bits that hold `b` is the field of `a` followed by the field of `b`. -/
theorem bitsOf_mul_add {n b : Nat} (m a : Nat) (hb : b < 2 ^ n) : bitsOf (m + n) (a * 2 ^ n + b) = bitsOf m a ++ bitsOf n b := by
  induction m with
  | zero => simp [bitsOf, bitsOf_mul_add_low]
  | succ m ih =>
    have hbit : (a * 2 ^ n + b).testBit (m + n) = a.testBit m := by
      rw [mul_comm, Nat.testBit_two_pow_mul_add a hb]
      simp
    rw [Nat.add_right_comm, bitsOf, bitsOf, hbit, ih, List.cons_append]

/-- The LIT word of R81 in the reference configuration: three zeros above the literal. -/
theorem bitsOf_litWord (c : Byte) : bitsOf 11 c.toNat = encodeCode Config.reference ⟨0, 0, c⟩ := by
  calc bitsOf 11 c.toNat = bitsOf (3 + 8) (0 * 2 ^ 8 + c.toNat) := by rw [Nat.zero_mul, Nat.zero_add]
    _ = bitsOf 3 0 ++ bitsOf 8 c.toNat := bitsOf_mul_add 3 0 c.isLt
    _ = encodeCode Config.reference ⟨0, 0, c⟩ := rfl

/-- The COPY word of R82 in the reference configuration: length, offset − 1 and literal in 3, 13 and 8 bits. -/
theorem bitsOf_copyWord {off n : Nat} (h : CopyOperands Config.reference off n) (c : Byte) :
    bitsOf 24 (n * 0x200000 + (off - 1) * 0x100 + c.toNat) = encodeCode Config.reference ⟨off, n, c⟩ := by
  obtain ⟨-, hoff, hn, -⟩ := h
  have hoff13 : off - 1 < 2 ^ 13 := by
    have : Config.reference.windowSize = 2 ^ 13 := rfl
    omega
  have hword : n * 0x200000 + (off - 1) * 0x100 + c.toNat = (n * 2 ^ 13 + (off - 1)) * 2 ^ 8 + c.toNat := by ring
  have hpos : 0 < n := hn
  calc bitsOf 24 (n * 0x200000 + (off - 1) * 0x100 + c.toNat)
      = bitsOf (3 + 13) (n * 2 ^ 13 + (off - 1)) ++ bitsOf 8 c.toNat := by rw [hword, ← bitsOf_mul_add _ _ c.isLt]
    _ = bitsOf 3 n ++ bitsOf 13 (off - 1) ++ bitsOf 8 c.toNat := by rw [bitsOf_mul_add _ _ hoff13]
    _ = encodeCode Config.reference ⟨off, n, c⟩ := by rw [encodeCode, if_pos hpos, List.append_assoc]; rfl

/-- A copy form has one of the lengths 1 to 7 and stands for the Code of that length (R87). -/
theorem copyForms_toCode {nk : Nat × (Nat → Byte → Instr)} (h : nk ∈ Machine.copyForms) :
    1 ≤ nk.1 ∧ nk.1 ≤ 7 ∧ ∀ off c, (nk.2 off c).toCode = some ⟨off, nk.1, c⟩ := by
  simp only [Machine.copyForms, List.mem_cons, List.not_mem_nil, or_false] at h
  rcases h with rfl | rfl | rfl | rfl | rfl | rfl | rfl <;> exact ⟨by decide, by decide, fun _ _ => rfl⟩

/-- The whole bits of a Code are decoded with none left over. -/
theorem wholeInstr_encodeCode {p : Params} (hp : p.Legal) {i : Instr} {c : Code} (hc : Code.Valid p c) (hi : i.toCode = some c) :
    wholeInstr (decodeWire p (encodeCode p c)) = some i := by
  have h := decodeWire_encodeCode hp hc hi []
  rw [List.append_nil] at h
  rw [h, wholeInstr]

/-- The 11 bits of a LIT word decode to the literal (R81). -/
theorem decodeTableWord_lit (c : Byte) : decodeTableWord 16 c.toNat = some (.lit c) := by
  have hlt : c.toNat < 2 ^ 11 := by have := c.isLt; omega
  simp only [decodeTableWord, Nat.reduceLeDiff, if_false, if_true, hlt, bitsOf_litWord]
  exact wholeInstr_encodeCode (by decide) (Code.valid_lit _ c) rfl

/-- The 24 bits of a COPY word decode to the instruction of its length (R82). -/
theorem decodeTableWord_copy {i : Instr} {off n : Nat} {c : Byte} (h : CopyOperands Config.reference off n)
    (hi : i.toCode = some ⟨off, n, c⟩) : decodeTableWord 24 (n * 0x200000 + (off - 1) * 0x100 + c.toNat) = some i := by
  simp only [decodeTableWord, Nat.reduceLeDiff, if_false, bitsOf_copyWord h]
  exact wholeInstr_encodeCode (by decide) (CopyOperands.valid h c) hi

/-- A CTRL byte is decoded by its two low bits (R23). -/
theorem decodeTableWord_ctrl (v : Byte) : decodeTableWord 8 v.toNat = decodeCtrl v := by
  simp [decodeTableWord]

/-- Settles O2: each word is the encoding of its Code, which decodes to its instruction. -/
theorem opcodeMap : Obligations.OpcodeMap := by
  refine fun off c hoff hoffW => ⟨decodeTableWord_lit c, fun nk hnk => ?_⟩
  obtain ⟨hn, hn7, hcode⟩ := copyForms_toCode hnk
  exact decodeTableWord_copy ⟨hoff, hoffW, hn, hn7⟩ (hcode off c)

/-- Settles O1: the five Code words by the opcode map, the three CTRL bytes by the two bits that `decodeCtrl` tests. -/
theorem decodedWords : Obligations.DecodedWords :=
  ⟨decodeTableWord_lit 0x61#8,
    decodeTableWord_copy (off := 1) (n := 1) (c := 0x61#8) (by decide) rfl,
    decodeTableWord_copy (off := 8) (n := 3) (c := 0x5A#8) (by decide) rfl,
    decodeTableWord_copy (off := 8192) (n := 1) (c := 0x71#8) (by decide) rfl,
    decodeTableWord_copy (off := 8192) (n := 7) (c := 0xFF#8) (by decide) rfl,
    (decodeTableWord_ctrl 0x01#8).trans (Machine.decodeCtrl_compress rfl rfl),
    (decodeTableWord_ctrl 0x03#8).trans (Machine.decodeCtrl_decompress rfl rfl),
    (decodeTableWord_ctrl 0x02#8).trans (Machine.decodeCtrl_of_start_clear rfl)⟩

end Sys2Proof
end

section
/-! PROOFS of 40_bitcodec.md: PUT_BIT, ENCODE_BITS, FLUSH_BITS and GET_BIT as equations, what a run of PUT_BIT puts and sends, and
the lossless law (R100 to R106). -/

namespace Sys2Proof

/-! ### The bits of bytes and of fields -/

/-- A field puts its most significant bit first (R101). -/
theorem bitsOf_getElem {n v i : Nat} (h : i < (bitsOf n v).length) : (bitsOf n v)[i] = v.testBit (n - 1 - i) := by
  induction n generalizing i with
  | zero => simp at h
  | succ n ih =>
    cases i with
    | zero => rfl
    | succ i =>
      have hi : n + 1 - 1 - (i + 1) = n - 1 - i := by omega
      simp only [bitsOf, List.getElem_cons_succ, ih, hi]

@[simp] theorem byteBits_length (b : Byte) : (byteBits b).length = 8 := bitsOf_length 8 _

/-- A byte stands in the stream with bit 7 first (R51). -/
theorem byteBits_getElem {b : Byte} {i : Nat} (h : i < (byteBits b).length) : (byteBits b)[i] = b.getLsbD (7 - i) :=
  bitsOf_getElem h

@[simp] theorem streamBits_nil : streamBits [] = [] := rfl

@[simp] theorem streamBits_cons (b : Byte) (bs : List Byte) : streamBits (b :: bs) = byteBits b ++ streamBits bs := rfl

@[simp] theorem streamBits_append (as bs : List Byte) : streamBits (as ++ bs) = streamBits as ++ streamBits bs :=
  List.flatMap_append

/-- The bits ENCODE_BITS puts for the fields in order; a field is its value and its width (R106). -/
def fieldsBits (fs : List (Nat × Nat)) : List Bool := fs.flatMap fun f => bitsOf f.2 f.1

@[simp] theorem fieldsBits_cons (f : Nat × Nat) (fs : List (Nat × Nat)) :
    fieldsBits (f :: fs) = bitsOf f.2 f.1 ++ fieldsBits fs := rfl

@[simp] theorem fieldsBits_length (fs : List (Nat × Nat)) : (fieldsBits fs).length = (fs.map Prod.snd).sum := by
  simp [fieldsBits, List.length_flatMap]

namespace Machine

/-- DECODE_BITS of each width reads the fields back from their bits (R104, R106). -/
theorem takeFields_fieldsBits {fs : List (Nat × Nat)} (h : ∀ f ∈ fs, f.1 < 2 ^ f.2) (rest : List Bool) :
    takeFields (fs.map Prod.snd) (fieldsBits fs ++ rest) = some (fs.map Prod.fst, rest) := by
  induction fs with
  | nil => rfl
  | cons f fs ih =>
    obtain ⟨hf, hfs⟩ := List.forall_mem_cons.mp h
    simp [takeFields, takeField_bitsOf hf, ih hfs]

/-! ### The sink -/

/-- A port that answers Fail raises IOFailure and does not take the byte (R194). -/
theorem snkWrite_fail {b : Byte} {s : State} {rest : List SnkAnswer} (h : s.snkAns = .fail :: rest) :
    snkWrite b s = .raise .ioFailure { s with snkAns := rest } := by
  simp [snkWrite, h]

/-- A sink that accepts at least one byte answers Ok next. -/
theorem SinkAccepts.head {n : Nat} {s : State} (h : SinkAccepts n s) (hn : 0 < n) : ∃ rest, s.snkAns = .ok :: rest := by
  obtain ⟨n, rfl⟩ := Nat.exists_eq_add_of_lt hn
  cases hs : s.snkAns with
  | nil => simp [SinkAccepts, hs, List.replicate_succ] at h
  | cons a rest =>
    obtain ⟨rfl, -⟩ : a = .ok ∧ _ := by simpa [SinkAccepts, hs, List.replicate_succ] using h
    exact ⟨rest, rfl⟩

/-- The sink accepts the first ones of the bytes it accepts. -/
theorem SinkAccepts.of_le {m n : Nat} {s : State} (h : SinkAccepts n s) (hm : m ≤ n) : SinkAccepts m s := by
  have := congrArg (List.take m) h
  simpa [SinkAccepts, List.take_take, hm] using this

/-- Once `m` answers are taken the sink accepts the other bytes. -/
theorem SinkAccepts.drop {m n k : Nat} {s t : State} (h : SinkAccepts k s) (ht : t.snkAns = s.snkAns.drop m)
    (hk : k = m + n) : SinkAccepts n t := by
  have := congrArg (List.drop m) h
  simpa [SinkAccepts, ht, hk, List.drop_take] using this

/-! ### PUT_BIT -/

section
variable {s : State} (b : Bool) {rest : List SnkAnswer}

/-- A full accumulator is sent and emptied (R100). -/
theorem sendFull_ok (h : s.fill = 8) (hs : s.snkAns = .ok :: rest) :
    sendFull s = .ok { s with acc := 0#8, fill := 0, snk := s.snk ++ [s.acc], snkAns := rest } := by
  simp [sendFull, h, snkWrite_ok hs]

/-- A full accumulator and a sink that fails (R100, R194). -/
theorem sendFull_fail (h : s.fill = 8) (hs : s.snkAns = .fail :: rest) :
    sendFull s = .raise .ioFailure { s with snkAns := rest } := by
  simp [sendFull, h, snkWrite_fail hs]

/-- PUT_BIT writes its bit and sends the accumulator if that fills it (R100). -/
theorem putBit_of_le (h : s.fill ≤ 7) :
    putBit b s = sendFull { s with acc := writeBit s.acc (7 - s.fill) b, fill := s.fill + 1 } :=
  if_pos h

/-- PUT_BIT that does not fill the accumulator (R100). -/
theorem putBit_of_lt (h : s.fill < 7) :
    putBit b s = .ok { s with acc := writeBit s.acc (7 - s.fill) b, fill := s.fill + 1 } := by
  have h8 : s.fill + 1 ≠ 8 := by omega
  rw [putBit_of_le b h.le, sendFull, if_neg h8]

/-- PUT_BIT of the eighth bit, which sends the byte (R100). -/
theorem putBit_eighth (h : s.fill = 7) (hs : s.snkAns = .ok :: rest) :
    putBit b s = .ok { s with acc := 0#8, fill := 0, snk := s.snk ++ [writeBit s.acc (7 - s.fill) b], snkAns := rest } := by
  rw [putBit_of_le b h.le, h]
  exact sendFull_ok rfl hs

/-- PUT_BIT of the eighth bit to a sink that fails (R100, R194). -/
theorem putBit_eighth_fail (h : s.fill = 7) (hs : s.snkAns = .fail :: rest) :
    putBit b s = .raise .ioFailure { s with acc := writeBit s.acc (7 - s.fill) b, fill := 8, snkAns := rest } := by
  rw [putBit_of_le b h.le, h]
  exact sendFull_fail rfl hs

end

/-- Settles O9: the written byte by `writeBit_getLsbD`, the three ends of PUT_BIT by its equations. -/
theorem BitCodec.putBit : Obligations.PutBit := fun b s h7 =>
  ⟨writeBit s.acc (7 - s.fill) b, fun j _ => writeBit_getLsbD s.acc (by omega) b j, putBit_of_lt b,
    fun h _ => putBit_eighth b h, fun h _ => putBit_eighth_fail b h⟩

/-- The bit written behind the `k` pending ones stands behind them in the order of the stream. -/
theorem byteBits_writeBit_take (x : Byte) {k : Nat} (hk : k ≤ 7) (b : Bool) :
    (byteBits (writeBit x (7 - k) b)).take (k + 1) = (byteBits x).take k ++ [b] := by
  have hl : min k 8 = k := by omega
  refine List.ext_getElem (by simp; omega) fun i hi _ => ?_
  have hik : i ≤ k := by simp at hi; omega
  rw [List.getElem_take, byteBits_getElem, writeBit_getLsbD x (by omega) b]
  rcases hik.lt_or_eq with hlt | rfl
  · have hne : 7 - i ≠ 7 - k := by omega
    simp [hl, hlt, hne, byteBits_getElem]
  · simp [hl]

/-- What PUT_BIT of the bits `bits` makes of `s` when the sink accepts the bytes that fall due (R101, R105). -/
structure PutsBits (bits : List Bool) (s t : State) : Prop where
  put : putSoFar t = putSoFar s ++ bits
  sent : t.snk.length = s.snk.length + (s.fill + bits.length) / 8
  fill : t.fill = (s.fill + bits.length) % 8
  answers : t.snkAns = s.snkAns.drop ((s.fill + bits.length) / 8)

theorem PutsBits.nil {s : State} (h7 : s.fill ≤ 7) : PutsBits [] s s := by
  have h0 : s.fill / 8 = 0 := by omega
  have hm : s.fill % 8 = s.fill := by omega
  constructor <;> simp [h0, hm]

theorem PutsBits.trans {as bs : List Bool} {s t u : State} (h₁ : PutsBits as s t) (h₂ : PutsBits bs t u) :
    PutsBits (as ++ bs) s u := by
  have hdiv : (s.fill + (as ++ bs).length) / 8 = (s.fill + as.length) / 8 + (t.fill + bs.length) / 8 := by
    rw [h₁.fill, List.length_append]
    omega
  refine ⟨?_, ?_, ?_, ?_⟩
  · rw [h₂.put, h₁.put, List.append_assoc]
  · rw [h₂.sent, h₁.sent, hdiv, Nat.add_assoc]
  · rw [h₂.fill, h₁.fill, List.length_append]
    omega
  · rw [h₂.answers, h₁.answers, hdiv, List.drop_drop]

/-- PUT_BIT finishes when the sink accepts the byte it may send (R100). -/
theorem putBit_ok (b : Bool) {s : State} (h7 : s.fill ≤ 7) (hs : SinkAccepts ((s.fill + 1) / 8) s) :
    ∃ t, putBit b s = .ok t ∧ PutsBits [b] s t := by
  have htake := byteBits_writeBit_take s.acc h7 b
  rcases h7.lt_or_eq with hlt | h
  · have hdiv : (s.fill + 1) / 8 = 0 := by omega
    have hmod : (s.fill + 1) % 8 = s.fill + 1 := by omega
    exact ⟨_, putBit_of_lt b hlt, by simp [putSoFar, htake], by simp [hdiv], by simp [hmod], by simp [hdiv]⟩
  · have hdiv : (s.fill + 1) / 8 = 1 := by omega
    obtain ⟨rest, hrest⟩ := hs.head (by omega)
    have hwhole : byteBits (writeBit s.acc (7 - s.fill) b) = (byteBits s.acc).take s.fill ++ [b] := by
      rw [← htake, List.take_of_length_le (by simp [h])]
    exact ⟨_, putBit_eighth b h hrest, by simp [putSoFar, hwhole], by simp [hdiv], by simp [h], by simp [hdiv, hrest]⟩

/-! ### ENCODE_BITS -/

/-- PUT_BIT of each bit finishes when the sink accepts the bytes that fall due (R101, R105). -/
theorem putBits_ok {bits : List Bool} {s : State} (h7 : s.fill ≤ 7) (hs : SinkAccepts ((s.fill + bits.length) / 8) s) :
    ∃ t, putBits bits s = .ok t ∧ PutsBits bits s t := by
  induction bits generalizing s with
  | nil => exact ⟨s, rfl, .nil h7⟩
  | cons b bits ih =>
    rw [List.length_cons] at hs
    obtain ⟨t, ht, hput⟩ := putBit_ok b h7 (hs.of_le (by omega))
    have hfill : t.fill = (s.fill + 1) % 8 := hput.fill
    obtain ⟨u, hu, hputs⟩ := ih (by omega) (hs.drop hput.answers (by simp; omega))
    exact ⟨u, by simp [putBits, ht, hu], hput.trans hputs⟩

/-- ENCODE_BITS of a value that fits is PUT_BIT of its bits (R101). -/
theorem encodeBits_of_lt {v n : Nat} (h : v < 2 ^ n) (s : State) : encodeBits v n s = putBits (bitsOf n v) s := by
  simp [encodeBits, fieldBits, h]

/-- ENCODE_BITS of a value that does not fit is refused (R101). -/
theorem encodeBits_of_le {v n : Nat} (h : 2 ^ n ≤ v) (s : State) : encodeBits v n s = .refuse .valueTooWide := by
  simp [encodeBits, fieldBits, h.not_gt]

/-- Settles O10: a value that fits is put as its `n` bits. -/
theorem BitCodec.encodeBits : Obligations.EncodeBits := by
  refine fun v n s => ⟨fun hv h7 hs => ?_, fun hv => encodeBits_of_le hv s⟩
  obtain ⟨t, ht, hput⟩ := putBits_ok (bits := bitsOf n v) h7 (by simpa using hs)
  obtain ⟨hbits, hsent, hfill, hans⟩ := hput
  rw [bitsOf_length] at hsent hfill hans
  exact ⟨t, (encodeBits_of_lt hv s).trans ht, hbits, hsent, hfill, hans⟩

/-! ### FLUSH_BITS -/

/-- FLUSH_BITS with nothing pending (R102). -/
theorem flushBits_of_empty {s : State} (h : s.fill = 0) : flushBits s = .ok s := by
  simp [flushBits, h]

/-- FLUSH_BITS with pending bits sends the accumulator (R102). -/
theorem flushBits_of_pos {s : State} (h : 0 < s.fill) {rest : List SnkAnswer} (hs : s.snkAns = .ok :: rest) :
    flushBits s = .ok { s with acc := 0#8, fill := 0, snk := s.snk ++ [s.acc], snkAns := rest } := by
  simp [flushBits, h, snkWrite_ok hs]

/-- FLUSH_BITS with pending bits to a sink that fails (R102, R194). -/
theorem flushBits_fail {s : State} (h : 0 < s.fill) {rest : List SnkAnswer} (hs : s.snkAns = .fail :: rest) :
    flushBits s = .raise .ioFailure { s with snkAns := rest } := by
  simp [flushBits, h, snkWrite_fail hs]

/-- The accumulator holds the pending bits and zero bits behind them (R24, R102). -/
theorem AccClear.byteBits_eq {s : State} (h : AccClear s) (h8 : s.fill ≤ 8) :
    byteBits s.acc = (byteBits s.acc).take s.fill ++ List.replicate (8 - s.fill) false := by
  refine List.ext_getElem (by simp; omega) fun i hi _ => ?_
  have hi8 : i < 8 := by simpa using hi
  rw [List.getElem_append]
  split
  case isTrue => rw [List.getElem_take]
  case isFalse hlt =>
    have hfill : s.fill ≤ i := by simp at hlt; omega
    rw [byteBits_getElem, List.getElem_replicate]
    exact h _ (by omega)

/-- The byte FLUSH_BITS sends completes the stream with zero bits (R102). -/
theorem streamBits_flushed {s : State} (h : AccClear s) (h8 : s.fill ≤ 8) :
    streamBits (s.snk ++ [s.acc]) = putSoFar s ++ List.replicate (8 - s.fill) false := by
  simp [putSoFar, ← h.byteBits_eq h8]

/-- Settles O11: the three ends of FLUSH_BITS by its equations, the padding by the zero bits of the accumulator. -/
theorem BitCodec.flushBits : Obligations.FlushBits := fun _ =>
  ⟨flushBits_of_empty, fun hpos h7 hacc _ hs => ⟨flushBits_of_pos hpos hs, streamBits_flushed hacc (by omega)⟩,
    fun hpos _ hs => flushBits_fail hpos hs⟩

/-- FLUSH_BITS finishes when the sink accepts the last byte; the bytes sent are then the bits put and fewer than 8 zero bits
(R102, R106). -/
theorem flushBits_ok {s : State} (h7 : s.fill ≤ 7) (hacc : AccClear s) (hs : SinkAccepts ((s.fill + 7) / 8) s) :
    ∃ t, flushBits s = .ok t ∧ streamBits t.snk = putSoFar s ++ List.replicate ((8 - s.fill) % 8) false := by
  rcases Nat.eq_zero_or_pos s.fill with h0 | hpos
  · exact ⟨s, flushBits_of_empty h0, by simp [putSoFar, h0]⟩
  · obtain ⟨rest, hrest⟩ := hs.head (by omega)
    have hmod : (8 - s.fill) % 8 = 8 - s.fill := by omega
    exact ⟨_, flushBits_of_pos hpos hrest, by rw [hmod]; exact streamBits_flushed hacc (by omega)⟩

/-! ### GET_BIT -/

section
variable {s : State} {rest : List SrcAnswer}

/-- GET_BIT from a window that is not empty (R103). -/
theorem getBit_of_pos (hpos : 1 ≤ s.fill) (h8 : s.fill ≤ 8) :
    getBit s = .ok (some (s.acc.getLsbD (s.fill - 1)), { s with fill := s.fill - 1 }) := by
  have hne : s.fill ≠ 0 := by omega
  simp [getBit, hne, h8]

/-- GET_BIT from an empty window, refilled by a byte of the source (R103). -/
theorem getBit_refill {x : Byte} (h : s.fill = 0) (hs : s.src = .byte x :: rest) :
    getBit s = .ok (some (x.getLsbD 7), { s with acc := x, fill := 7, src := rest, taken := s.taken + 1 }) := by
  simp [getBit, h, srcRead, hs]

/-- GET_BIT at the end of the source (R103). -/
theorem getBit_eof (h : s.fill = 0) (hs : s.src = .eof :: rest) : getBit s = .ok (none, { s with src := rest }) := by
  simp [getBit, h, srcRead, hs]

/-- GET_BIT from a source that fails (R103, R194). -/
theorem getBit_fail (h : s.fill = 0) (hs : s.src = .fail :: rest) : getBit s = .raise .ioFailure { s with src := rest } := by
  simp [getBit, h, srcRead, hs]

end

/-- Settles O12: one equation of GET_BIT for each way it can answer. -/
theorem BitCodec.getBit : Obligations.GetBit := fun _ _ _ => ⟨getBit_of_pos, getBit_refill, getBit_eof, getBit_fail⟩

/-- Where the source answers bytes next, the first of them is its first answer. -/
theorem leadingBytes_ne_nil {src : List SrcAnswer} (h : leadingBytes src ≠ []) : ∃ x rest, src = .byte x :: rest := by
  match src with
  | .byte x :: rest => exact ⟨x, rest, rfl⟩
  | [] | .eof :: _ | .fail :: _ => exact absurd rfl h

/-- With an empty window the unread bits are those of the source. -/
theorem unreadBits_of_empty {s : State} (h : s.fill = 0) : unreadBits s = streamBits (leadingBytes s.src) := by
  simp [unreadBits, h, bitsOf]

/-- The first unread bit is the window's highest one not yet taken (R24). -/
theorem unreadBits_of_succ {s : State} {k : Nat} (h : s.fill = k + 1) :
    unreadBits s = s.acc.getLsbD k :: unreadBits { s with fill := k } := by
  rw [unreadBits, h]
  rfl

/-- A byte of the source taken into an empty window leaves the unread bits as they are (R51, R103). -/
theorem unreadBits_refilled {s : State} {x : Byte} {rest : List SrcAnswer} (h : s.fill = 0) (hs : s.src = .byte x :: rest) :
    unreadBits s = unreadBits { s with acc := x, fill := 8, src := rest, taken := s.taken + 1 } := by
  rw [unreadBits_of_empty h, hs]
  rfl

/-- Settles O13: the bit comes from the window, or the window is empty and it is bit 7 of the next byte. -/
theorem BitCodec.bitsInOrder : Obligations.BitsInOrder := by
  intro s h8 hne
  rcases hfill : s.fill with _ | k
  · obtain ⟨x, rest, hsrc⟩ : ∃ x rest, s.src = .byte x :: rest :=
      leadingBytes_ne_nil fun hnil => hne (by rw [unreadBits_of_empty hfill, hnil, streamBits_nil])
    refine ⟨_, _, getBit_refill hfill hsrc, ?_, by simp only; omega, by simp only; omega⟩
    rw [unreadBits_refilled hfill hsrc, unreadBits_of_succ (k := 7) rfl]
  · have hget := getBit_of_pos (s := s) (by omega) h8
    rw [hfill, Nat.add_sub_cancel] at hget
    exact ⟨_, _, hget, unreadBits_of_succ hfill, by simp only; omega, by simp only; omega⟩

/-! ### The lossless law -/

/-- PUT_BIT of the bits of two strings, one after the other. -/
theorem putBits_append_ok {as bs : List Bool} {s u : State} (h : putBits (as ++ bs) s = .ok u) :
    ∃ t, putBits as s = .ok t ∧ putBits bs t = .ok u := by
  induction as generalizing s with
  | nil => exact ⟨s, rfl, h⟩
  | cons a as ih =>
    obtain ⟨t, ht, hrest⟩ := andThen_eq_ok h
    obtain ⟨v, hv, hu⟩ := ih hrest
    exact ⟨v, by simp [putBits, parkAt_eq_ok.mp ht, hv], hu⟩

/-- ENCODE_BITS of fields that fit their widths ends where PUT_BIT of all their bits ends (R101). -/
theorem encodeFields_of_putBits {fs : List (Nat × Nat)} (hfs : ∀ f ∈ fs, f.1 < 2 ^ f.2) {s t : State}
    (h : putBits (fieldsBits fs) s = .ok t) : encodeFields fs s = .ok t := by
  induction fs generalizing s with
  | nil => exact h
  | cons f fs ih =>
    obtain ⟨hf, hfs⟩ := List.forall_mem_cons.mp hfs
    obtain ⟨u, hu, ht⟩ := putBits_append_ok h
    rw [encodeFields, encodeBits_of_lt hf, hu, andThen_ok, ih hfs ht]

/-- FLUSH_BITS only appends to what PUT_BIT has sent (R32). -/
theorem snk_kept_of_flushed {bits : List Bool} {s t u : State} (ht : putBits bits s = .ok t)
    (hu : flushBits t = .ok u) : s.snk <+: u.snk := by
  obtain ⟨⟨-, -, -, -, -, -, hst⟩, -⟩ : KeepsC s t := by simpa [ht, Res.Keeps] using putBits_keeps bits s
  obtain ⟨⟨-, -, -, -, -, -, htu⟩, -⟩ : KeepsC t u := by simpa [hu, Res.Keeps] using flushBits_keeps t
  exact hst.trans htu

/-- Settles O14: the bytes sent are the bits of the fields and the padding, which DECODE_BITS reads back field by field. -/
theorem BitCodec.losslessFields : Obligations.LosslessFields := by
  intro fs s hfs hacc hfill hs
  set n := (fs.map Prod.snd).sum
  have hclear : AccClear s := fun j _ => by simp [hacc]
  obtain ⟨t, ht, hput⟩ := putBits_ok (bits := fieldsBits fs) (s := s) (by omega) (hs.of_le (by simp; omega))
  obtain ⟨h7, htclear, -⟩ : t.fill ≤ 7 ∧ AccClear t ∧ SameChunk s t := by
    simpa [ht] using putBits_inv (fieldsBits fs) (by omega) hclear
  have htfill : t.fill = n % 8 := by simpa [hfill] using hput.fill
  obtain ⟨u, hu, hbits⟩ := flushBits_ok h7 htclear (hs.drop hput.answers (by simp [hfill, htfill]; omega))
  obtain ⟨sent, hsent⟩ := snk_kept_of_flushed ht hu
  have hstream : streamBits sent = fieldsBits fs ++ List.replicate ((8 - n % 8) % 8) false := by
    rw [← hsent, hput.put, htfill] at hbits
    simpa [putSoFar, hfill] using hbits
  refine ⟨u, sent, ?_, hsent.symm, ?_⟩
  · rw [encodeFields_of_putBits hfs ht, andThen_ok, hu]
  · rw [hstream, takeFields_fieldsBits hfs]

end Machine
end Sys2Proof
end

section
/-! PROOFS of 41_matchfinder.md: FIND_LONGEST_MATCH near the end of the chunk (R125), the closed form of the scan (R127), and the
range of its Code and of its reads (R128, R129). -/

namespace Sys2Proof.Machine

/-- An operation that neither waits nor fails nor stops finishes, and meets its condition. -/
theorem Res.Meets.exists_ok {α : Type} {r : Res α} {ok : α → Prop}
    (h : r.Meets ok (fun _ => False) (fun _ _ => False) False) : ∃ a, r = .ok a ∧ ok a := by
  cases r with
  | ok a => exact ⟨a, rfl, h⟩
  | wait | raise | fault | refuse => exact h.elim

/-! ### The two branches of FIND_LONGEST_MATCH -/

/-- With at most LOOKAHEAD_SIZE unread bytes only CHUNK[POS] is read (R125). -/
theorem findLongestMatch_near_end {s : State} (hrem : s.clen - s.pos ≤ s.cfg.lookaheadSize) :
    findLongestMatch s = (chunkRead s.pos s).andThen fun c => .ok { off := 0, len := 0, lit := c } :=
  if_pos (Nat.lt_succ_of_le hrem)

/-- With more of them the whole Window is scanned and the byte after the match is read (R126). -/
theorem findLongestMatch_scan {s : State} (h : ScanReady s) (hrem : s.cfg.lookaheadSize + 1 ≤ s.clen - s.pos) :
    findLongestMatch s = (scanFrom s (s.pos - s.wstart) 1 0 0).andThen fun best =>
      (chunkRead (s.pos + best.2) s).andThen fun c => .ok { off := best.1, len := best.2, lit := c } := by
  have hws : s.wstart ≤ s.pos := h.window ▸ Nat.sub_le _ _
  rw [findLongestMatch, if_neg (Nat.not_lt.mpr hrem), if_pos hws]

/-- Settles O16: the near-end branch, and CHUNK[POS] holds a value. -/
theorem nearEndLiteral : Obligations.NearEndLiteral := by
  intro s b hrem hpos hb
  rw [findLongestMatch_near_end hrem, chunkRead_ok hpos hb, andThen_ok]

/-! ### The closed form of the scan -/

/-- Where the scan runs, a match of any length leaves the byte after it and one more in the chunk (R128). -/
theorem room_of_scan {s : State} (hp : s.cfg.Legal) (hrem : s.cfg.lookaheadSize + 1 ≤ s.clen - s.pos) {len : Nat}
    (hlen : len ≤ s.cfg.maxMatch) : s.pos + len + 2 ≤ s.clen := by
  have hmax : s.cfg.maxMatch + 1 = s.cfg.lookaheadSize := hp.maxMatch.trans hp.pow_lenBits
  omega

/-- The best candidate among all distances of the Window is the longest match (R127). -/
theorem BestBelow.longestMatch {s : State} {off len : Nat} (h : BestBelow s (1 + (s.pos - s.wstart)) off len) :
    LongestMatch s off len := by
  obtain ⟨hmax, hzero, hpos⟩ := h
  refine ⟨fun d k hd hd' => hmax d k hd (by omega), hzero, fun hl => ?_⟩
  obtain ⟨hoff, hoff', hag, hlast⟩ := hpos hl
  exact ⟨hoff, by omega, hag, fun d k hd hd' => hlast d k hd (by omega)⟩

/-- The longest match is no longer than MAX_MATCH (R129). -/
theorem LongestMatch.len_le {s : State} {off len : Nat} (h : LongestMatch s off len) : len ≤ s.cfg.maxMatch := by
  obtain ⟨-, -, hpos⟩ := h
  rcases Nat.eq_zero_or_pos len with rfl | hl
  · exact Nat.zero_le _
  · obtain ⟨-, -, ⟨hle, -⟩, -⟩ := hpos hl
    exact hle

/-- From no candidate the scan of the whole Window finds the longest match (R122, R123, R127). -/
theorem scanFrom_longestMatch {s : State} (hp : s.cfg.Legal) (h : ScanReady s)
    (hrem : s.cfg.lookaheadSize + 1 ≤ s.clen - s.pos) :
    ∃ best, scanFrom s (s.pos - s.wstart) 1 0 0 = .ok best ∧ LongestMatch s best.1 best.2 := by
  have hroom := room_of_scan hp hrem le_rfl
  have hnone : BestBelow s 1 0 0 := ⟨fun e k he he' => by omega, fun _ => rfl, fun hl => by omega⟩
  obtain ⟨best, hscan, hbest⟩ :=
    (scanFrom_meets h (by omega) (s.pos - s.wstart) 1 0 0 le_rfl (by omega) hnone).exists_ok
  exact ⟨best, hscan, hbest.longestMatch⟩

/-- Settles O15: the scan finds the longest match, and the byte after it lies below CLEN. -/
theorem scanClosedForm : Obligations.ScanClosedForm := by
  intro s hp h hrem
  obtain ⟨best, hscan, hbest⟩ := scanFrom_longestMatch hp h hrem
  have hroom := room_of_scan hp hrem hbest.len_le
  obtain ⟨b, hb, hread⟩ := h.read (i := s.pos + best.2) (by omega)
  refine ⟨⟨best.1, best.2, b⟩, ?_, hbest, hb⟩
  rw [findLongestMatch_scan h hrem, hscan, andThen_ok, hread, andThen_ok]

/-- Settles O17: `findLongestMatch_meets` leaves FIND_LONGEST_MATCH no way to end but with such a Code, and its length bounds the
position of its literal. -/
theorem matchInRange : Obligations.MatchInRange := by
  intro s hp h
  obtain ⟨c, hc, hvalid, hstands⟩ := (findLongestMatch_meets hp h).exists_ok
  obtain ⟨-, -, hlen⟩ := id hvalid
  exact ⟨c, hc, hvalid, hstands, fun hrem => room_of_scan hp hrem hlen⟩

end Sys2Proof.Machine
end

section
/-! PROOFS of 42_compress.md: the control points of COMPRESS, ADVANCE, the ends of the inner loop and of the operation, LOAD_CHUNK,
one Code put for the chunk's next bytes, and what applying that Code restores (R140 to R148). -/

namespace Sys2Proof.Machine

/-! ### The control points (R140) -/

section
variable {s : State}

theorem compressStep_of_load (h : s.cphase = .load) : compressStep s = loadStep s := by
  simp only [compressStep, h]

theorem compressStep_of_scan (h : s.cphase = .scan) : compressStep s = scanStep s := by
  simp only [compressStep, h]

theorem compressStep_of_emit {rest : List Bool} (h : s.cphase = .emit rest) : compressStep s = emitStep rest s := by
  simp only [compressStep, h]

theorem compressStep_of_flush (h : s.cphase = .flush) : compressStep s = finishCompress s := by
  simp only [compressStep, h]

end

/-! ### ADVANCE and the test of the inner loop -/

/-- Lookahead and Window behind the bytes of the Code in the Code register, at the test of the inner loop (R145). -/
def movedOn (s : State) : State :=
  { s with pos := s.pos + s.creg.len + 1, wstart := s.pos + s.creg.len + 1 - s.cfg.windowSize, cphase := .scan }

/-- ADVANCE within the chunk (R145, R149). -/
theorem advance_ok {s : State} (h : s.pos + s.creg.len + 1 ≤ s.clen) : advance s = .ok (movedOn s) := if_pos h

/-- Settles O18: ADVANCE passes its check, and `max 0` says nothing more than the subtraction of natural numbers. -/
theorem StreamCompressor.advance : Obligations.Advance := fun _ h =>
  ⟨_, advance_ok h, rfl, (Nat.zero_max _).symm, rfl⟩

/-- The test of the inner loop with an unread byte (R143). -/
theorem scanStep_of_lt {s : State} (h : s.pos < s.clen) : scanStep s = codeStep s := if_pos h

/-- The test of the inner loop with none: IN_EOF decides (R143, R140). -/
theorem scanStep_of_le {s : State} (h : s.clen ≤ s.pos) : scanStep s =
    if s.inEof then .ok { s with cphase := .flush }
    else .ok { s with clen := 0, pos := 0, wstart := 0, cphase := .load } :=
  if_neg h.not_gt

/-- Settles O21: the two arms of the test of IN_EOF. -/
theorem scanLoopEnd : Obligations.ScanLoopEnd := by
  intro s hph hpos
  rw [compressStep_of_scan hph, scanStep_of_le hpos]
  exact ⟨fun h => if_pos h, fun h => if_neg (by simp [h])⟩

/-! ### The end of a compression -/

/-- FLUSH_BITS leaves the accumulator empty (R102). -/
theorem fill_eq_zero_of_flushed {s t : State} (h : flushBits s = .ok t) : t.fill = 0 := by
  unfold flushBits at h
  split at h
  · obtain ⟨u, -, hu⟩ := andThen_eq_ok h
    cases hu
    rfl
  · cases h
    omega

/-- Settles O22: FLUSH_BITS sends the last byte, and completion leaves what it sent and ERR. -/
theorem compressEnds : Obligations.CompressEnds := by
  intro s hph h7 hacc hans
  have hsink : SinkAccepts ((s.fill + 7) / 8) s := by
    rcases Nat.eq_zero_or_pos s.fill with h0 | hpos
    · simp [SinkAccepts, h0]
    · obtain ⟨rest, hrest⟩ := List.head?_eq_some_iff.mp (hans hpos)
      have hone : (s.fill + 7) / 8 = 1 := by omega
      simp [SinkAccepts, hone, hrest]
  obtain ⟨t, ht, hbits⟩ := flushBits_ok h7 hacc hsink
  obtain ⟨⟨⟨-, -, -, -, herr⟩, -⟩, -⟩ : KeepsC s t := by simpa [ht, Res.Keeps] using flushBits_keeps s
  have hfill : t.fill = 0 := fill_eq_zero_of_flushed ht
  refine ⟨complete { t with cphase := .load }, ?_, rfl, rfl, rfl, herr, hfill, hbits⟩
  rw [compressStep_of_flush hph, finishCompress, ht, andThen_ok]

/-! ### LOAD_CHUNK -/

/-- Entries `i`, `i + 1`, ... of a buffer written with the values of a list, in order. -/
def memSetFrom {α : Type} (m : List (Nat × α)) : Nat → List α → List (Nat × α)
  | _, [] => m
  | i, v :: vs => memSetFrom (memSet m i v) (i + 1) vs

/-- Such a write leaves the entries below it alone. -/
theorem memGet_memSetFrom_of_lt {α : Type} (m : List (Nat × α)) {i j : Nat} (vs : List α) (h : j < i) :
    memGet (memSetFrom m i vs) j = memGet m j := by
  induction vs generalizing m i with
  | nil => rfl
  | cons v vs ih => rw [memSetFrom, ih _ (by omega), memGet_memSet_other _ _ h.ne]

/-- The entries written hold the values in order. -/
theorem memGet_memSetFrom {α : Type} (m : List (Nat × α)) (i : Nat) {k : Nat} {vs : List α} (h : k < vs.length) :
    memGet (memSetFrom m i vs) (i + k) = vs[k]? := by
  induction vs generalizing m i k with
  | nil => simp at h
  | cons v vs ih =>
    rw [memSetFrom]
    cases k with
    | zero => simp [memGet_memSetFrom_of_lt]
    | succ k =>
      have hk : i + (k + 1) = i + 1 + k := by omega
      rw [hk, ih _ _ (by simpa using h), List.getElem?_cons_succ]

/-- The bytes `bs` loaded behind the CLEN bytes of the chunk, `rest` being what the source answers next (R141). -/
def loaded (bs : List Byte) (rest : List SrcAnswer) (s : State) : State :=
  { s with
    chunk := memSetFrom s.chunk s.clen bs, clen := s.clen + bs.length, src := rest, taken := s.taken + bs.length }

section
variable {s : State} {rest : List SrcAnswer} (n : Nat)

/-- The loop of LOAD_CHUNK takes a byte (R141). -/
theorem fillChunk_byte {x : Byte} (heof : s.inEof = false) (hsrc : s.src = .byte x :: rest) (hc : s.clen < s.cfg.chunkCap) :
    fillChunk (n + 1) s = fillChunk n (loaded [x] rest s) := by
  simp [fillChunk, heof, srcRead, hsrc, chunkWrite, hc, loaded, memSetFrom]

/-- The loop of LOAD_CHUNK takes the end mark (R141). -/
theorem fillChunk_eof (heof : s.inEof = false) (hsrc : s.src = .eof :: rest) :
    fillChunk (n + 1) s = .ok { s with src := rest, inEof := true } := by
  simp [fillChunk, heof, srcRead, hsrc]

/-- The loop of LOAD_CHUNK waits for the source (R141, 70_reset_and_hazards.md R235). -/
theorem fillChunk_wait (heof : s.inEof = false) (hsrc : s.src = []) : fillChunk (n + 1) s = .wait s := by
  simp [fillChunk, heof, srcRead, hsrc]

/-- The loop of LOAD_CHUNK takes the bytes the source answers, as far as there is room (R141). -/
theorem fillChunk_bytes {bs : List Byte} (heof : s.inEof = false) (hsrc : s.src = bs.map .byte ++ rest)
    (hc : s.clen + bs.length ≤ s.cfg.chunkCap) : fillChunk (n + bs.length) s = fillChunk n (loaded bs rest s) := by
  induction bs generalizing s with
  | nil =>
    obtain rfl : s.src = rest := hsrc
    rfl
  | cons x bs ih =>
    rw [List.length_cons] at hc
    have hsplit : loaded bs rest (loaded [x] (bs.map .byte ++ rest) s) = loaded (x :: bs) rest s := by
      simp [loaded, memSetFrom, Nat.add_assoc, Nat.add_comm 1]
    have hcons : s.src = .byte x :: (bs.map .byte ++ rest) := hsrc
    rw [List.length_cons, ← Nat.add_assoc, fillChunk_byte _ heof hcons (by omega),
      ih (s := loaded [x] (bs.map SrcAnswer.byte ++ rest) s) heof rfl (by simp only [loaded, List.length_singleton]; omega), hsplit]

end

/-- The state in which COMPRESS goes on with a chunk (R140, R142): an empty one ends the outer loop, any other restarts Window
and Lookahead. -/
def chunkBegun (s : State) : State :=
  { s with
    pos := if s.clen = 0 then s.pos else 0
    wstart := if s.clen = 0 then s.wstart else 0
    cphase := if s.clen = 0 then .flush else .scan }

/-- COMPRESS goes on there when LOAD_CHUNK has finished (R140, R141). -/
theorem loadStep_of_filled {s t : State} (h : fillChunk (s.cfg.chunkCap - s.clen) s = .ok t) :
    loadStep s = .ok (chunkBegun t) := by
  rw [loadStep, h, andThen_ok, chunkBegun]
  split <;> rfl

section
variable {s : State} {bs : List Byte} {rest : List SrcAnswer} (heof : s.inEof = false) (hsrc : s.src = bs.map .byte ++ rest)
include heof hsrc

/-- With bytes for less than the room of the chunk LOAD_CHUNK takes them and goes on (R141). -/
theorem fillChunk_bytes_of_lt (h : s.clen + bs.length < s.cfg.chunkCap) :
    ∃ n, fillChunk (s.cfg.chunkCap - s.clen) s = fillChunk (n + 1) (loaded bs rest s) := by
  obtain ⟨n, hcap⟩ := Nat.exists_eq_add_of_lt h
  have hn : s.cfg.chunkCap - s.clen = n + 1 + bs.length := by omega
  exact ⟨n, by rw [hn, fillChunk_bytes (n + 1) heof hsrc h.le]⟩

/-- LOAD_CHUNK finishes with the chunk full or at the end mark, which it then takes (R141). -/
theorem fillChunk_full_or_eof
    (h : s.clen + bs.length = s.cfg.chunkCap ∨ (s.clen + bs.length < s.cfg.chunkCap ∧ rest.head? = some .eof)) :
    fillChunk (s.cfg.chunkCap - s.clen) s = .ok { loaded bs rest s with
      inEof := decide (s.clen + bs.length < s.cfg.chunkCap)
      src := if s.clen + bs.length < s.cfg.chunkCap then rest.tail else rest } := by
  rcases h with hfull | ⟨hlt, hhead⟩
  · have hn : s.cfg.chunkCap - s.clen = 0 + bs.length := by omega
    rw [hn, fillChunk_bytes 0 heof hsrc hfull.le]
    simp [fillChunk, hfull, loaded, heof]
  · obtain ⟨tail, rfl⟩ := List.head?_eq_some_iff.mp hhead
    obtain ⟨n, hn⟩ := fillChunk_bytes_of_lt heof hsrc hlt
    rw [hn, fillChunk_eof (s := loaded bs _ s) n heof rfl]
    simp [hlt]

/-- LOAD_CHUNK waits behind the bytes given when there is room for more (R141, 70_reset_and_hazards.md R235). -/
theorem loadStep_wait (h : s.clen + bs.length < s.cfg.chunkCap) (hrest : rest = []) :
    loadStep s = .wait (loaded bs [] s) := by
  subst hrest
  obtain ⟨n, hn⟩ := fillChunk_bytes_of_lt heof hsrc h
  rw [loadStep, hn, fillChunk_wait (s := loaded bs [] s) n heof rfl, andThen_wait]

end

/-- Settles O19: the loop of LOAD_CHUNK takes the bytes given, and then ends or waits. -/
theorem loadChunk : Obligations.LoadChunk := by
  intro s bs rest hph heof hsrc
  have hbelow (i) (hi : i < s.clen) := memGet_memSetFrom_of_lt s.chunk bs hi
  have hloaded (i) (hi : i < bs.length) := memGet_memSetFrom s.chunk s.clen hi
  rw [compressStep_of_load hph]
  refine ⟨fun h => ?_, fun hlt hrest => ⟨_, loadStep_wait heof hsrc hlt hrest, hbelow, hloaded, rfl⟩⟩
  exact ⟨_, loadStep_of_filled (fillChunk_full_or_eof heof hsrc h), rfl, hbelow, hloaded, rfl, rfl, rfl, rfl, rfl, rfl, rfl,
    fun h0 => if_pos h0, fun h0 => ⟨if_neg h0, if_neg h0, if_neg h0⟩⟩

/-! ### One Code -/

/-- Only the accumulator and the sink have changed. -/
def PutOnly (s t : State) : Prop :=
  ∃ acc fill snk ans, t = { s with acc := acc, fill := fill, snk := snk, snkAns := ans }

theorem PutOnly.trans {s t u : State} (h₁ : PutOnly s t) (h₂ : PutOnly t u) : PutOnly s u := by
  obtain ⟨_, _, _, _, rfl⟩ := h₁
  obtain ⟨acc, fill, snk, ans, rfl⟩ := h₂
  exact ⟨acc, fill, snk, ans, rfl⟩

/-- Sending a full accumulator changes only the accumulator and the sink (R100). -/
theorem sendFull_putOnly {s t : State} (h : sendFull s = .ok t) : PutOnly s t := by
  unfold sendFull at h
  split at h
  · obtain ⟨u, hu, ht⟩ := andThen_eq_ok h
    obtain ⟨rest, -, rfl⟩ : ∃ rest, s.snkAns = .ok :: rest ∧ u = { s with snk := s.snk ++ [s.acc], snkAns := rest } := by
      simpa [hu] using snkWrite_meets s.acc s
    cases ht
    exact ⟨_, _, _, _, rfl⟩
  · cases h
    exact ⟨_, _, _, _, rfl⟩

/-- PUT_BIT changes only the accumulator and the sink (R100). -/
theorem putBit_putOnly {b : Bool} {s t : State} (h : putBit b s = .ok t) : PutOnly s t := by
  unfold putBit at h
  split at h
  · have hwrite : PutOnly s { s with acc := writeBit s.acc (7 - s.fill) b, fill := s.fill + 1 } := ⟨_, _, _, _, rfl⟩
    exact hwrite.trans (sendFull_putOnly h)
  · cases h

/-- So does PUT_BIT of any number of bits (R101). -/
theorem putBits_putOnly {bits : List Bool} {s t : State} (h : putBits bits s = .ok t) : PutOnly s t := by
  induction bits generalizing s with
  | nil =>
    cases h
    exact ⟨_, _, _, _, rfl⟩
  | cons b bits ih =>
    obtain ⟨u, hu, ht⟩ := andThen_eq_ok h
    exact (putBit_putOnly (parkAt_eq_ok.mp hu)).trans (ih ht)

/-- What EMIT_CODE and ADVANCE make of `s` when the bits `bits` are to be put (R144, R145): these are put, the cursors move behind
the Code in the Code register, and beside them only the accumulator and the sink change. -/
structure Emits (bits : List Bool) (s t : State) : Prop where
  put : putSoFar t = putSoFar s ++ bits
  inv : CompInv t
  frame : PutOnly (movedOn s) t

/-- The bits of a Code put, or what is left of them, and ADVANCE, with a sink that accepts: the invariant of the inner loop, which
holds before the first bit, holds again at the next test of the loop. -/
theorem putBits_advance_ok {bits : List Bool} {s : State} (h : CompInv { s with cphase := .scan })
    (hroom : s.pos + s.creg.len + 1 ≤ s.clen) (hs : SinkAccepts ((s.fill + bits.length) / 8) s) :
    ∃ t, (putBits bits s).andThen advance = .ok t ∧ Emits bits s t := by
  obtain ⟨hcap, -, -, hwritten, hacc, hfill⟩ := h
  have h7 : s.fill ≤ 7 := hfill
  obtain ⟨t, ht, hput⟩ := putBits_ok h7 hs
  obtain ⟨ht7, htacc, -⟩ : t.fill ≤ 7 ∧ AccClear t ∧ SameChunk s t := by
    simpa [ht] using putBits_inv (s := s) bits h7 hacc
  have hadvance (h : t.pos + t.creg.len + 1 ≤ t.clen) : (putBits bits s).andThen advance = .ok (movedOn t) := by
    rw [ht, andThen_ok, advance_ok h]
  obtain ⟨acc, fill, snk, ans, rfl⟩ := putBits_putOnly ht
  exact ⟨_, hadvance hroom, hput.put, ⟨hcap, hroom, rfl, hwritten, htacc, ht7⟩, acc, fill, snk, ans, rfl⟩

/-- No Code is longer than a copy Code (R86). -/
theorem codeWidth_le (p : Params) (c : Code) : codeWidth p c ≤ p.maxCodeBits := by
  unfold codeWidth Params.maxCodeBits
  split <;> omega

/-- One pass of the inner loop puts the bits of the Code FIND_LONGEST_MATCH answers (R143, R144). -/
theorem codeStep_of_found {s : State} {c : Code} (hp : s.cfg.Legal) (hc : findLongestMatch s = .ok c) (hv : Code.Valid s.cfg c) :
    codeStep s = (putBits (encodeCode s.cfg c) { s with creg := c }).andThen advance := by
  obtain ⟨-, hoff, hlen⟩ := id hv
  have hset : setCode c s = .ok { s with creg := c } := if_pos ⟨hoff, hlen⟩
  rw [codeStep, hc, andThen_ok, hset, andThen_ok, codeBits_ok hp hv, andThen_ok]

/-- EMIT_CODE going on from a full accumulator sends it and puts the bits left (70_reset_and_hazards.md R235). -/
theorem emitStep_of_accepted {s : State} {ans : List SnkAnswer} (rest : List Bool) (h8 : s.fill = 8) (hs : s.snkAns = .ok :: ans) :
    emitStep rest s =
      (putBits rest { s with acc := 0#8, fill := 0, snk := s.snk ++ [s.acc], snkAns := ans }).andThen advance := by
  rw [emitStep, sendFull_ok h8 hs, parkAt_ok, andThen_ok]

/-- A full accumulator sent leaves the bits put so far as they are (R100, R105). -/
theorem putSoFar_sent {s : State} (ans : List SnkAnswer) (h8 : s.fill = 8) :
    putSoFar { s with acc := 0#8, fill := 0, snk := s.snk ++ [s.acc], snkAns := ans } = putSoFar s := by
  simp [putSoFar, h8, List.take_of_length_le]

/-- Settles O20: from either control point the bits to put and ADVANCE follow (`putBits_advance_ok`), once the Code is found or the
full accumulator is sent. -/
theorem emitsOneCode : Obligations.EmitsOneCode := by
  rintro s hp ⟨hcap, hpos, hws, hwritten, hacc, hphase⟩
  refine ⟨fun hph hlt hs => ?_, fun rest hph hs => ?_⟩
  · have h7 : s.fill ≤ 7 := by simpa only [CPhaseInv, hph] using hphase
    obtain ⟨c, hc, hv, hstands⟩ := (findLongestMatch_meets hp ⟨hlt, hcap, hws, hwritten⟩).exists_ok
    obtain ⟨hroom, -⟩ := id hstands
    have hbits : (encodeCode s.cfg c).length ≤ s.cfg.maxCodeBits := encodeCode_length s.cfg c ▸ codeWidth_le s.cfg c
    obtain ⟨t, ht, hemits⟩ := putBits_advance_ok (s := { s with creg := c })
      ⟨hcap, hpos, hws, hwritten, hacc, h7⟩ hroom (hs.of_le (Nat.div_le_div_right (Nat.add_le_add_left hbits _)))
    have hstep : compressStep s = .ok t := by
      rw [compressStep_of_scan hph, scanStep_of_lt hlt, codeStep_of_found hp hc hv, ht]
    obtain ⟨hput, hinv, _, _, _, _, rfl⟩ := hemits
    exact ⟨c, _, hc, hstep, rfl, hv, hstands, hput, rfl, rfl, rfl, rfl, rfl, rfl, rfl, hinv⟩
  · obtain ⟨h8, hroom⟩ : s.fill = 8 ∧ s.pos + s.creg.len + 1 ≤ s.clen := by simpa only [CPhaseInv, hph] using hphase
    obtain ⟨ans, hans⟩ := hs.head (by omega)
    obtain ⟨t, ht, hemits⟩ := putBits_advance_ok (bits := rest)
      (s := { s with acc := 0#8, fill := 0, snk := s.snk ++ [s.acc], snkAns := ans })
      ⟨hcap, hpos, hws, hwritten, fun _ _ => by simp, Nat.zero_le _⟩ hroom
      (hs.drop (m := 1) (by simp [hans]) (by simp only [h8]; omega))
    have hstep : compressStep s = .ok t := by rw [compressStep_of_emit hph, emitStep_of_accepted rest h8 hans, ht]
    obtain ⟨hput, hinv, _, _, _, _, rfl⟩ := hemits
    rw [putSoFar_sent ans h8] at hput
    exact ⟨_, hstep, rfl, hput, rfl, rfl, rfl, rfl, rfl, rfl, rfl, hinv⟩

/-! ### What applying a Code restores -/

/-- A copy that does not reach behind the last bytes `w` of an output reads from them (R170). -/
theorem copyByte_of_suffix {w out : List Byte} {off : Nat} (hw : w <:+ out) (hoff : off ≤ w.length) :
    copyByte out off = copyByte w off := by
  obtain ⟨front, rfl⟩ := hw
  have hidx : (front ++ w).length - off = front.length + (w.length - off) := by rw [List.length_append]; omega
  rw [copyByte, copyByte, hidx, List.getElem?_append_right (Nat.le_add_right _ _), Nat.add_sub_cancel_left]

section
variable {s : State} (hwritten : ∀ i, i < s.clen → (memGet s.chunk i).isSome)
include hwritten

/-- A stretch of the chunk below CLEN is its entries, each of which holds a value. -/
theorem chunkSlice_map_some (i n : Nat) (hn : i + n ≤ s.clen) :
    (chunkSlice s i n).map some = (List.range' i n).map (memGet s.chunk) := by
  induction n generalizing i with
  | zero => rfl
  | succ n ih =>
    obtain ⟨b, hb⟩ := Option.isSome_iff_exists.mp (hwritten i (by omega))
    simp [chunkSlice, hb, List.range'_succ, ih (i + 1) (by omega)]

theorem chunkSlice_length (i n : Nat) (hn : i + n ≤ s.clen) : (chunkSlice s i n).length = n := by
  simpa using congrArg List.length (chunkSlice_map_some hwritten i n hn)

/-- A stretch of the chunk one longer. -/
theorem chunkSlice_snoc (i n : Nat) (hn : i + n < s.clen) {b : Byte} (hb : memGet s.chunk (i + n) = some b) :
    chunkSlice s i (n + 1) = chunkSlice s i n ++ [b] := by
  refine List.map_injective_iff.mpr (Option.some_injective _) ?_
  rw [chunkSlice_map_some hwritten i (n + 1) hn, List.map_append, chunkSlice_map_some hwritten i n hn.le, List.range'_concat]
  simp [hb]

/-- A copy from the chunk's bytes before `p` reads the entry `off` behind (R170). -/
theorem copyByte_chunkSlice {p off : Nat} {b : Byte} (hp : p ≤ s.clen) (hoff : 1 ≤ off) (hoffp : off ≤ p)
    (hb : memGet s.chunk (p - off) = some b) : copyByte (chunkSlice s 0 p) off = [b] := by
  have hlen := chunkSlice_length hwritten 0 p (by omega)
  have hidx : p - off < p := by omega
  have hget : (chunkSlice s 0 p)[p - off]? = some b := by
    have := congrArg (·[p - off]?) (chunkSlice_map_some hwritten 0 p (by omega))
    simpa [hidx, hb] using this
  rw [copyByte, hlen, hget]

/-- A copy whose source in the chunk agrees with the bytes from `p` on appends these, one at a time: each is read from the chunk's
bytes before it, of which the output so far is the continuation (R148, R170). -/
theorem copyOut_chunkSlice {off n p : Nat} {out : List Byte} (hn : p + n < s.clen) (hoff : off = 0 → n = 0) (hoffp : off ≤ p)
    (hag : ∀ k, k < n → ∃ b, memGet s.chunk (p - off + k) = some b ∧ memGet s.chunk (p + k) = some b)
    (hout : chunkSlice s 0 p <:+ out) : copyOut off n out = out ++ chunkSlice s p n := by
  induction n generalizing p out with
  | zero => simp [copyOut, chunkSlice]
  | succ n ih =>
    obtain ⟨b, hsrc, hdst⟩ := hag 0 (by omega)
    rw [Nat.add_zero] at hsrc hdst
    have hbyte : copyByte out off = [b] := by
      have hlen := chunkSlice_length hwritten 0 p (by omega)
      rw [copyByte_of_suffix hout (hlen.symm ▸ hoffp)]
      exact copyByte_chunkSlice hwritten (by omega) (by omega) hoffp hsrc
    have hnext : chunkSlice s 0 (p + 1) <:+ out ++ [b] := by
      rw [chunkSlice_snoc hwritten 0 p (by omega) (by simpa using hdst)]
      obtain ⟨front, rfl⟩ := hout
      exact ⟨front, (List.append_assoc _ _ _).symm⟩
    have hshift : ∀ k, k < n → ∃ b, memGet s.chunk (p + 1 - off + k) = some b ∧ memGet s.chunk (p + 1 + k) = some b := by
      intro k hk
      have h := hag (k + 1) (by omega)
      rwa [show p - off + (k + 1) = p + 1 - off + k by omega, show p + (k + 1) = p + 1 + k by omega] at h
    rw [copyOut, hbyte, ih (by omega) (by omega) (by omega) hshift hnext]
    simp [chunkSlice, hdst]

end

/-- Settles O23: the copy appends the bytes before the literal, which is the chunk's next byte. -/
theorem codeRestoresChunk : Obligations.CodeRestoresChunk := by
  rintro s c out ⟨-, -, hws, hwritten⟩ ⟨hzero, -⟩ ⟨hroom, hlit, hoff, hag⟩ hout
  rw [applyToOutput, copyOut_chunkSlice hwritten hroom hzero.mpr (by omega) hag hout, List.append_assoc,
    chunkSlice_snoc hwritten s.pos c.len hroom hlit]

end Sys2Proof.Machine
end


section
/-! PROOFS of 43_decompress.md, the operations on RING: when they finish, what they leave alone, and what they make of the logical
output (R164 to R170). -/

namespace Sys2Proof.Machine

/-! ### Operations that finish because the sink accepts -/

/-- The sink has taken the bytes `sent`, and `ans` are the answers it has left. -/
def tookBytes (sent : List Byte) (ans : List SnkAnswer) (s : State) : State :=
  { s with snk := s.snk ++ sent, snkAns := ans }

@[simp] theorem ringSlice_tookBytes (sent : List Byte) (ans : List SnkAnswer) (s : State) (i n : Nat) :
    ringSlice (tookBytes sent ans s) i n = ringSlice s i n :=
  ringSlice_congr fun _ _ => rfl

/-- Sending a stretch of RING finishes when the sink accepts it (R167, R168). -/
theorem sendRing_ok (park : Nat → DPhase) {s : State} {hi i n : Nat} (h : RingHas s hi) (hc : hi ≤ s.cfg.ringCap)
    (hn : i + n ≤ hi) (hs : SinkAccepts n s) :
    sendRing park n i s = .ok (tookBytes (ringSlice s i n) (s.snkAns.drop n) s) := by
  induction n generalizing i s with
  | zero => simp [sendRing, ringSlice, tookBytes]
  | succ n ih =>
    obtain ⟨b, hb⟩ := h.get (i := i) (by omega)
    obtain ⟨ans, hans⟩ := hs.head (Nat.succ_pos n)
    have hrest : sendRing park n (i + 1) (tookBytes [b] ans s) = _ :=
      ih h hc (by omega) (hs.drop (m := 1) (by simp [hans, tookBytes]) (by omega))
    rw [sendRing, ringRead_ok (by omega) hb, andThen_ok, snkWrite_ok hans, parkAt_ok, andThen_ok]
    refine hrest.trans ?_
    rw [ringSlice_tookBytes]
    simp [ringSlice, hb, hans, tookBytes]

/-- RING_FLUSH finishes when the sink accepts what is left to send (R167). -/
theorem ringFlushFrom_ok {i : Nat} (acts : List Act) {s : State} (hcap : 2 * s.cfg.windowSize ≤ s.cfg.ringCap)
    (h : RingHas s s.cfg.ringCap) (hi : i ≤ s.cfg.ringCap) (hs : SinkAccepts (s.cfg.ringCap - i) s) :
    ∃ t, ringFlushFrom i acts s = .ok t ∧ Flushed i s t ∧ t.snkAns = s.snkAns.drop (s.cfg.ringCap - i) := by
  have hflush := ringFlushFrom_meets i acts hcap h hi
  rw [ringFlushFrom, sendRing_ok (fun j => .ringFlush j acts) h le_rfl (by omega) hs, andThen_ok] at hflush ⊢
  set u := tookBytes (ringSlice s i (s.cfg.ringCap - i)) (s.snkAns.drop (s.cfg.ringCap - i)) s
  obtain ⟨v, hv, r, rfl, -⟩ := (reseed_meets u.cfg.windowSize 0 (s := u) hcap h (by simp)).exists_ok
  rw [hv, andThen_ok] at hflush ⊢
  exact ⟨_, rfl, hflush, rfl⟩

/-- The state of a full buffer whose last byte APPEND_BYTE has written. -/
theorem Appended.ringHas_full {b : Byte} {s : State} (h : RingHas s s.wp) (hfull : s.wp + 1 = s.cfg.ringCap) :
    RingHas (Appended b s) s.cfg.ringCap :=
  hfull ▸ Appended.ringHas h

section
variable (b : Byte) (acts : List Act) {s : State}

/-- APPEND_BYTE where no flush falls due (R166). -/
theorem appendByte_of_room (h : s.wp + 1 < s.cfg.ringCap) : appendByte b acts s = .ok (Appended b s) := by
  have hw : ringWrite s.wp b s = .ok { s with ring := memSet s.ring s.wp b } := if_pos (by omega)
  rw [appendByte, hw, andThen_ok, if_neg h.ne]
  rfl

/-- APPEND_BYTE that fills the buffer flushes it (R166). -/
theorem appendByte_of_full (h : s.wp + 1 = s.cfg.ringCap) :
    appendByte b acts s = ringFlushFrom s.fbase acts (Appended b s) := by
  have hw : ringWrite s.wp b s = .ok { s with ring := memSet s.ring s.wp b } := if_pos (by omega)
  rw [appendByte, hw, andThen_ok, if_pos h]
  rfl

/-- APPEND_BYTE outside RING (R193). -/
theorem appendByte_of_outside (h : s.cfg.ringCap ≤ s.wp) : appendByte b acts s = .raise .capacityExceeded s := by
  have hw : ringWrite s.wp b s = .raise .capacityExceeded s := if_neg h.not_gt
  rw [appendByte, hw, andThen_raise]

end

/-! ### What the operations on RING leave alone, from any state (10_state.md R38) -/

/-- The first answers of the sink are Ok for the bytes `sent`, and `ans` stand behind them. -/
def AcceptedThen (sent : List Byte) (ans : List SnkAnswer) (s : State) : Prop :=
  s.snkAns = List.replicate sent.length .ok ++ ans

theorem AcceptedThen.nil (s : State) : AcceptedThen [] s.snkAns s := rfl

theorem AcceptedThen.append {sent sent' : List Byte} {ans ans' : List SnkAnswer} {s t : State} (h : AcceptedThen sent ans s)
    (ht : t.snkAns = ans) (h' : AcceptedThen sent' ans' t) : AcceptedThen (sent ++ sent') ans' s := by
  rw [AcceptedThen, h, ← ht, h', List.length_append, List.replicate_add, List.append_assoc]

theorem AcceptedThen.drop {sent : List Byte} {ans : List SnkAnswer} {s : State} (h : AcceptedThen sent ans s) :
    ans = s.snkAns.drop sent.length := by
  rw [show s.snkAns = _ from h, List.drop_left' (List.length_replicate ..)]

/-- A Code being applied changes RING and its cursors, the control point and the sink, and of the sink it takes Ok answers only
(R164 to R167). -/
def RingOnly (s t : State) : Prop :=
  ∃ ring wp fbase ph sent ans, AcceptedThen sent ans s ∧
    t = tookBytes sent ans { s with ring := ring, wp := wp, fbase := fbase, dphase := ph }

theorem RingOnly.refl (s : State) : RingOnly s s := ⟨s.ring, s.wp, s.fbase, s.dphase, [], s.snkAns, .nil s, by simp [tookBytes]⟩

theorem RingOnly.trans {s t u : State} (h₁ : RingOnly s t) (h₂ : RingOnly t u) : RingOnly s u := by
  obtain ⟨_, _, _, _, sent, ans, hans, rfl⟩ := h₁
  obtain ⟨ring, wp, fbase, ph, sent', ans', hans', rfl⟩ := h₂
  exact ⟨ring, wp, fbase, ph, sent ++ sent', ans', hans.append rfl hans', by simp [tookBytes]⟩

theorem sendRing_frame (park : Nat → DPhase) (n i : Nat) (s : State) : (sendRing park n i s).Meets
    (fun t => ∃ sent ans, AcceptedThen sent ans s ∧ t = tookBytes sent ans s)
    (fun t => ∃ sent ans ph, AcceptedThen sent ans s ∧ t = tookBytes sent ans { s with dphase := ph })
    (fun e _ => e ≠ .corruptStream) True := by
  induction n generalizing i s with
  | zero => exact ⟨[], _, .nil s, by simp [tookBytes]⟩
  | succ n ih =>
    refine Res.Meets.seq ((ringRead_meets i s).mono (fun _ h => h) (fun _ h => h.elim) ?_ fun _ => trivial) fun b _ => ?_
    · rintro e t ⟨rfl, -⟩; simp
    refine Res.Meets.seq (ok := fun t => ∃ ans, AcceptedThen [b] ans s ∧ t = tookBytes [b] ans s) (Res.Meets.parkAt
      ((snkWrite_meets b s).mono ?_ ?_ ?_ fun h => h.elim)) ?_
    · rintro t ⟨ans, hans, rfl⟩; exact ⟨ans, hans, rfl⟩
    · rintro t ⟨-, rfl⟩; exact ⟨[], _, park i, .nil t, by simp [tookBytes]⟩
    · rintro e t ⟨rfl, -⟩; simp
    · rintro t ⟨ans, hans, rfl⟩
      refine (ih (i + 1) (tookBytes [b] ans s)).mono ?_ ?_ (fun _ _ h => h) id
      · rintro u ⟨sent, ans', hans', rfl⟩
        exact ⟨[b] ++ sent, ans', hans.append rfl hans', by simp [tookBytes]⟩
      · rintro u ⟨sent, ans', ph, hans', rfl⟩
        exact ⟨[b] ++ sent, ans', ph, hans.append rfl hans', by simp [tookBytes]⟩

theorem reseed_frame (n j : Nat) (s : State) : (reseed n j s).Meets
    (fun t => ∃ r, t = { s with ring := r } ∧ ∀ k, j + n ≤ k ∨ s.cfg.ringCap ≤ k → memGet r k = memGet s.ring k)
    (fun _ => False) (fun e _ => e ≠ .corruptStream) True := by
  induction n generalizing j s with
  | zero => exact ⟨s.ring, rfl, fun _ _ => rfl⟩
  | succ n ih =>
    refine Res.Meets.seq ((ringRead_meets _ s).mono (fun _ h => h) (fun _ h => h.elim) ?_ fun _ => trivial) fun b _ => ?_
    · rintro e t ⟨rfl, -⟩; simp
    refine Res.Meets.seq ((ringWrite_meets j b s).mono (fun _ h => h) (fun _ h => h.elim) ?_ fun h => h.elim) ?_
    · rintro e t ⟨rfl, -⟩; simp
    rintro t ⟨hj, rfl⟩
    refine (ih (j + 1) _).mono_ok ?_
    rintro u ⟨r, rfl, hr⟩
    exact ⟨r, rfl, fun k hk => by rw [hr k (by simp only; omega), memGet_memSet_other _ _ (by omega)]⟩

/-- A ring flush leaves the entries from WINDOW_SIZE on alone, and the cursors at WINDOW_SIZE; one that waits changes no entry. -/
theorem ringFlushFrom_frame (i : Nat) (acts : List Act) (s : State) : (ringFlushFrom i acts s).Meets
    (fun t => RingOnly s t ∧ t.wp = s.cfg.windowSize ∧ 
      ∀ k, s.cfg.windowSize ≤ k ∨ s.cfg.ringCap ≤ k → memGet t.ring k = memGet s.ring k)
    (fun t => RingOnly s t ∧ t.ring = s.ring) (fun e _ => e ≠ .corruptStream) True := by
  refine Res.Meets.seq ((sendRing_frame (fun j => .ringFlush j acts) (s.cfg.ringCap - i) i s).mono (fun _ h => h) ?_
    (fun _ _ h => h) id) ?_
  · rintro t ⟨sent, ans, ph, hans, rfl⟩
    exact ⟨⟨_, _, _, ph, sent, ans, hans, rfl⟩, rfl⟩
  rintro t ⟨sent, ans, hans, rfl⟩
  refine Res.Meets.seq ((reseed_frame s.cfg.windowSize 0 (tookBytes sent ans s)).mono (fun _ h => h) (fun _ h => h.elim)
    (fun _ _ h => h) id) ?_
  rintro u ⟨r, rfl, hr⟩
  exact ⟨⟨r, _, _, _, sent, ans, hans, rfl⟩, rfl, fun k hk => hr k (by rw [Nat.zero_add]; exact hk)⟩

theorem appended_ringOnly (b : Byte) (s : State) : RingOnly s (Appended b s) :=
  ⟨memSet s.ring s.wp b, s.wp + 1, s.fbase, s.dphase, [], s.snkAns, .nil s, by simp [tookBytes, Appended]⟩

/-- The entries a Code with `n` bytes left cannot write: neither at WP and the `n − 1` after it, nor, should the buffer fill, in
the seed region and the `n` after it, unless they lie below WP or outside RING. -/
def Untouched (n : Nat) (s : State) (k : Nat) : Prop :=
  (s.cfg.windowSize + n ≤ k ∧ (k < s.wp ∨ s.wp + n ≤ k)) ∨ s.cfg.ringCap ≤ k

/-- What a Code with `n` bytes left makes of `s`, wherever it stops. -/
def ActsFrame (n : Nat) (s t : State) : Prop :=
  RingOnly s t ∧ ∀ k, Untouched n s k → memGet t.ring k = memGet s.ring k

/-- APPEND_BYTE as the first of `n + 1` bytes of a Code. -/
theorem appendByte_frame (n : Nat) (b : Byte) (acts : List Act) (s : State) : (appendByte b acts s).Meets
    (fun t => ActsFrame (n + 1) s t ∧ ∀ k, Untouched (n + 1) s k → Untouched n t k) (ActsFrame (n + 1) s)
    (fun e _ => e ≠ .corruptStream) True := by
  have hwrite (hwp : s.wp < s.cfg.ringCap) (k) (hk : Untouched (n + 1) s k) : memGet (Appended b s).ring k = memGet s.ring k :=
    memGet_memSet_other _ _ (by unfold Untouched at hk; omega)
  rcases Nat.lt_trichotomy (s.wp + 1) s.cfg.ringCap with hroom | hfull | hout
  · rw [appendByte_of_room b acts hroom]
    refine ⟨⟨appended_ringOnly b s, hwrite (by omega)⟩, fun k hk => ?_⟩
    simp only [Untouched, Appended] at hk ⊢
    omega
  · rw [appendByte_of_full b acts hfull]
    refine (ringFlushFrom_frame s.fbase acts (Appended b s)).mono ?_ ?_ (fun _ _ h => h) id
    · rintro t ⟨hring, hwp, hsame⟩
      have hcfg : t.cfg = s.cfg := by obtain ⟨_, _, _, _, _, _, -, rfl⟩ := hring; rfl
      have hwp' : t.wp = s.cfg.windowSize := hwp
      refine ⟨⟨(appended_ringOnly b s).trans hring, fun k hk => ?_⟩, fun k hk => ?_⟩
      · rw [hsame k (by simp only [Untouched, Appended] at hk ⊢; omega), hwrite (by omega) k hk]
      · simp only [Untouched, hcfg, hwp'] at hk ⊢
        omega
    · rintro t ⟨hring, hsame⟩
      exact ⟨(appended_ringOnly b s).trans hring, fun k hk => by rw [hsame, hwrite (by omega) k hk]⟩
  · rw [appendByte_of_outside b acts (by omega)]
    simp

/-- The bytes of a Code, from any state. -/
theorem runActs_frame (acts : List Act) (s : State) : (runActs acts s).Meets
    (ActsFrame acts.length s) (ActsFrame acts.length s) (fun e _ => e ≠ .corruptStream) True := by
  induction acts generalizing s with
  | nil => exact ⟨⟨s.ring, s.wp, s.fbase, .apply, [], s.snkAns, .nil s, by simp [tookBytes]⟩, fun _ _ => rfl⟩
  | cons a acts ih =>
    refine Res.Meets.seq (ok := fun _ => True) ?_ fun b _ => ?_
    · cases a with
      | lit c => trivial
      | copy off =>
        simp only [actByte, copySource]
        split
        · refine (ringRead_meets _ s).mono (fun _ _ => trivial) (fun _ h => h.elim) ?_ fun _ => trivial
          rintro e t ⟨rfl, -⟩; simp
        · simp
    · refine Res.Meets.seq (appendByte_frame acts.length b acts s) ?_
      rintro t ⟨⟨hring, hsame⟩, hnext⟩
      have htrans (u) (hu : ActsFrame acts.length t u) : ActsFrame (acts.length + 1) s u :=
        ⟨hring.trans hu.1, fun k hk => by rw [hu.2 k (hnext k hk), hsame k hk]⟩
      exact (ih t).mono htrans htrans (fun _ _ h => h) id

/-! ### The logical output (R170) -/

/-- The bytes put out, when RING[i] is the first one not yet sent. -/
def outFrom (i : Nat) (s : State) : List Byte := s.snk ++ ringSlice s i (s.wp - i)

/-- Outside a flush FBASE is the index of the first byte not yet sent (R28). -/
theorem outBytes_of_apply {s : State} (h : s.dphase = .apply) : outBytes s = outFrom s.fbase s := by
  simp [outBytes, unflushed, sendFrom, h, outFrom]

theorem outBytes_of_ringFlush {s : State} {i : Nat} {acts : List Act} (h : s.dphase = .ringFlush i acts) :
    outBytes s = outFrom i s := by
  simp [outBytes, unflushed, sendFrom, h, outFrom]

theorem outBytes_of_final {s : State} {i : Nat} (h : s.dphase = .final i) : outBytes s = outFrom i s := by
  simp [outBytes, unflushed, sendFrom, h, outFrom]

/-- A window that is the end of the output stays so while both grow by the same bytes. -/
theorem suffix_append_right {w out : List Byte} (bs : List Byte) (h : w <:+ out) : w ++ bs <:+ out ++ bs := by
  obtain ⟨front, rfl⟩ := h
  exact ⟨front, (List.append_assoc _ _ _).symm⟩

/-- CFG, RING, its cursors and SNK are the same. -/
def SameOutput (s t : State) : Prop :=
  t.cfg = s.cfg ∧ t.ring = s.ring ∧ t.wp = s.wp ∧ t.fbase = s.fbase ∧ t.snk = s.snk

theorem SameOutput.ringSlice {s t : State} (h : SameOutput s t) (i n : Nat) : ringSlice t i n = ringSlice s i n := by
  obtain ⟨-, hring, -⟩ := h
  exact ringSlice_congr fun _ _ => by rw [hring]

theorem SameOutput.window {s t : State} (h : SameOutput s t) : window t = window s := by
  obtain ⟨-, -, hwp, -⟩ := id h
  rw [Machine.window, Machine.window, h.ringSlice, hwp]

theorem SameOutput.outFrom {s t : State} (h : SameOutput s t) (i : Nat) : outFrom i t = outFrom i s := by
  obtain ⟨-, -, hwp, -, hsnk⟩ := id h
  rw [Machine.outFrom, Machine.outFrom, h.ringSlice, hwp, hsnk]

theorem SameOutput.outBytes {s t : State} (h : SameOutput s t) (hsend : sendFrom t = sendFrom s) : outBytes t = outBytes s := by
  calc Machine.outBytes t = Machine.outFrom (sendFrom s) t := by rw [← hsend]; rfl
    _ = Machine.outBytes s := h.outFrom _

/-- Bytes that leave RING for SNK stay in the output. -/
theorem outFrom_sent {s t : State} {i m : Nat} (h : RingHas s s.wp) (hm : i + m ≤ s.wp) (hring : t.ring = s.ring)
    (hwp : t.wp = s.wp) (hsnk : t.snk = s.snk ++ ringSlice s i m) : outFrom (i + m) t = outFrom i s := by
  have hrest : ringSlice t (i + m) (s.wp - (i + m)) = ringSlice s (i + m) (s.wp - (i + m)) :=
    ringSlice_congr fun _ _ => by rw [hring]
  have hcut := ringSlice_add h i m (s.wp - (i + m)) hm
  rw [show m + (s.wp - (i + m)) = s.wp - i by omega] at hcut
  rw [outFrom, outFrom, hwp, hsnk, hrest, hcut, List.append_assoc]

theorem window_length {s : State} (h : RingHas s s.wp) : (window s).length = s.wp := ringSlice_length h 0 s.wp (by omega)

/-- The window's entries are those of RING below WP. -/
theorem window_get {s : State} (h : RingHas s s.wp) {k : Nat} (hk : k < s.wp) : (window s)[k]? = memGet s.ring k := by
  rw [window, ringSlice_get h 0 s.wp (by omega) k hk, Nat.zero_add]

/-- A stretch that ends at WP, one byte longer. -/
theorem ringSlice_appended {s : State} (b : Byte) {i : Nat} (h : RingHas s s.wp) (hi : i ≤ s.wp) :
    ringSlice (Appended b s) i (s.wp + 1 - i) = ringSlice s i (s.wp - i) ++ [b] := by
  have hlast : memGet (Appended b s).ring (i + (s.wp - i)) = some b := by
    rw [Nat.add_sub_cancel' hi]
    exact memGet_memSet_same _ _ _
  rw [Nat.sub_add_comm hi, ringSlice_snoc (Appended.ringHas h) i (s.wp - i) (by omega) hlast]
  exact congrArg (· ++ [b]) (ringSlice_congr fun k hk => memGet_memSet_other _ _ (by omega))

theorem outFrom_appended {s : State} (b : Byte) {i : Nat} (h : RingHas s s.wp) (hi : i ≤ s.wp) :
    outFrom i (Appended b s) = outFrom i s ++ [b] := by
  have := ringSlice_appended b h hi
  rw [outFrom, outFrom, List.append_assoc, ← this]
  rfl

theorem window_appended {s : State} (b : Byte) (h : RingHas s s.wp) : window (Appended b s) = window s ++ [b] :=
  ringSlice_appended b h (Nat.zero_le _)

/-- Outside a flush the output is `out`, and what a copy may refer to is the end of `w`. -/
structure Holds (p : Params) (out w : List Byte) (s : State) : Prop where
  ready : ApplyReady s
  cfg : s.cfg = p
  out : outFrom s.fbase s = out
  window : window s <:+ w

theorem Holds.congr {p : Params} {out w : List Byte} {s t : State} (h : Holds p out w s) (hst : SameOutput s t) :
    Holds p out w t := by
  obtain ⟨⟨hp, hroom, hbase, hwr⟩, hc, hout, hw⟩ := h
  obtain ⟨hcfg, hring, hwp, hfbase, -⟩ := id hst
  refine ⟨⟨by rwa [hcfg], by rwa [hcfg, hwp], by rwa [hfbase, hwp], by rwa [hring, hwp]⟩, hcfg.trans hc, ?_, by rwa [hst.window]⟩
  rw [hst.outFrom, hfbase, hout]

/-- Where a flush waits the output is `out`, and what a copy may refer to is the end of `w`. -/
structure WaitsWith (out w : List Byte) (s : State) : Prop where
  out : outBytes s = out
  window : Machine.window s <:+ w

/-- A flush makes nothing of the output, whatever of it has been sent (R167); after it the window is the seed. -/
theorem ringFlushFrom_output {i : Nat} (acts : List Act) {s : State} (hp : s.cfg.Legal) (hwp : s.wp = s.cfg.ringCap)
    (hi : i ≤ s.wp) (h : RingHas s s.wp) : (ringFlushFrom i acts s).Meets
      (fun t => Holds s.cfg (outFrom i s) (window s) t ∧ t.wp = s.cfg.windowSize)
      (WaitsWith (outFrom i s) (window s)) (fun e _ => e = .ioFailure) False := by
  obtain ⟨-, hW, -, -, -, hcap, -⟩ := id hp
  rw [hwp] at hi
  have hh : RingHas s s.cfg.ringCap := hwp ▸ h
  refine (ringFlushFrom_meets i acts hcap hh hi).mono ?_ ?_ (fun _ _ h => h.1) id
  · rintro t ⟨r, ans, rfl, -, hseed, -⟩
    refine ⟨⟨⟨hp, ?_, le_rfl, fun j hj => ?_⟩, rfl, ?_, ?_⟩, rfl⟩
    · simp only; omega
    · simp only at hj ⊢
      rw [hseed j hj]
      exact hh _ (by omega)
    · simp [outFrom, ringSlice, hwp]
    · have hcut := ringSlice_add hh 0 (s.cfg.ringCap - s.cfg.windowSize) s.cfg.windowSize (by omega)
      rw [Nat.sub_add_cancel (by omega), Nat.zero_add] at hcut
      refine ⟨ringSlice s 0 (s.cfg.ringCap - s.cfg.windowSize), ?_⟩
      rw [window, window, hwp, hcut]
      exact congrArg _ (ringSlice_congr fun k hk => by simp only [Nat.zero_add]; exact hseed k hk)
  · rintro t ⟨m, hm, rfl⟩
    exact ⟨(outBytes_of_ringFlush rfl).trans (outFrom_sent h (by omega) rfl rfl rfl), [], ringSlice_congr fun _ _ => rfl⟩

/-- APPEND_BYTE appends its byte to the output, flush or no flush (R166, R167). -/
theorem appendByte_output {p : Params} {out w : List Byte} (b : Byte) (acts : List Act) {s : State} (h : Holds p out w s) :
    (appendByte b acts s).Meets
      (fun t => Holds p (out ++ [b]) (w ++ [b]) t ∧ (s.wp + 1 ≤ t.wp ∨ p.windowSize ≤ t.wp))
      (WaitsWith (out ++ [b]) (w ++ [b])) (fun e _ => e = .ioFailure) False := by
  obtain ⟨⟨hp, hroom, hbase, hwr⟩, rfl, rfl, hw⟩ := h
  have hout := outFrom_appended b hwr hbase
  have hwin : window (Appended b s) <:+ w ++ [b] := window_appended b hwr ▸ suffix_append_right [b] hw
  rcases Nat.lt_or_eq_of_le hroom with hlt | hfull
  · rw [appendByte_of_room b acts hlt]
    exact ⟨⟨⟨hp, hlt, hbase.trans (Nat.le_succ _), Appended.ringHas hwr⟩, rfl, hout, hwin⟩, .inl le_rfl⟩
  · rw [appendByte_of_full b acts hfull, ← hout]
    refine (ringFlushFrom_output (i := s.fbase) acts (s := Appended b s) hp hfull (hbase.trans (Nat.le_succ _))
      (Appended.ringHas hwr)).mono ?_ ?_ (fun _ _ h => h) id
    · rintro t ⟨⟨hready, hcfg, hout', hwin'⟩, hwp⟩
      exact ⟨⟨hready, hcfg, hout', hwin'.trans hwin⟩, .inr hwp.ge⟩
    · rintro t ⟨hout', hwin'⟩
      exact ⟨hout', hwin'.trans hwin⟩

/-- Every copy among the bytes a Code has left reads within the window, now and after any flush (R165, R169). -/
def CopiesReach (acts : List Act) (s : State) : Prop :=
  ∀ off, Act.copy off ∈ acts → 1 ≤ off ∧ off ≤ s.cfg.windowSize ∧ off ≤ s.wp

theorem CopiesReach.next {a : Act} {acts : List Act} {s t : State} (h : CopiesReach (a :: acts) s) (hcfg : t.cfg = s.cfg)
    (hwp : s.wp + 1 ≤ t.wp ∨ s.cfg.windowSize ≤ t.wp) : CopiesReach acts t := by
  intro off hoff
  obtain ⟨hpos, hW, hle⟩ := h off (List.mem_cons_of_mem a hoff)
  exact ⟨hpos, hcfg ▸ hW, by omega⟩

/-- After a flush every distance of the format is within the window, which is the seed (R167). -/
theorem copiesReach_of_seed {acts : List Act} {p : Params} {t : State} (hcfg : t.cfg = p) (hwp : t.wp = p.windowSize)
    (hv : ∀ a ∈ acts, ActValid p a) : CopiesReach acts t := by
  intro off hoff
  obtain ⟨hpos, hW⟩ : ActValid p (.copy off) := hv _ hoff
  rw [hcfg, hwp]
  exact ⟨hpos, hW, hW⟩

/-- The byte a Code appends next is the one the output says (R164, R165, R170). -/
theorem actByte_ok {a : Act} {acts : List Act} {s : State} (h : ApplyReady s) (hr : CopiesReach (a :: acts) s) :
    ∃ b, actByte a s = .ok b ∧ ∀ out, window s <:+ out → applyActs (a :: acts) out = applyActs acts (out ++ [b]) := by
  cases a with
  | lit c => exact ⟨c, rfl, fun _ _ => rfl⟩
  | copy off =>
    obtain ⟨hpos, -, hle⟩ := hr off (List.mem_cons_self ..)
    obtain ⟨b, hb⟩ := RingHas.get h.written (i := s.wp - off) (by omega)
    have hlen := window_length h.written
    have hroom := h.room
    refine ⟨b, ?_, fun out hw => ?_⟩
    · rw [actByte, copySource, if_pos hle, andThen_ok, ringRead_ok (by omega) hb]
    · have hbyte : copyByte (window s) off = [b] := by
        rw [copyByte, hlen, window_get h.written (by omega), hb]
      rw [applyActs, copyByte_of_suffix hw (hlen ▸ hle), hbyte]

/-- The bytes of a Code are appended to the output one at a time, flush or no flush: those R170 says, when the window is the end of
the output. -/
theorem runActs_output {p : Params} {out w : List Byte} (acts : List Act) {s : State} (h : Holds p out w s)
    (hr : CopiesReach acts s) : (runActs acts s).Meets
      (fun t => ∃ bs, Holds p (out ++ bs) (w ++ bs) t ∧ (s.wp + bs.length ≤ t.wp ∨ p.windowSize ≤ t.wp) ∧ t.dphase = .apply ∧
        (w <:+ out → out ++ bs = applyActs acts out))
      (fun t => ∃ bs, WaitsWith (out ++ bs) (w ++ bs) t) (fun e _ => e = .ioFailure) False := by
  induction acts generalizing s out w with
  | nil =>
    refine ⟨[], ?_, .inl le_rfl, rfl, fun _ => List.append_nil _⟩
    rw [List.append_nil, List.append_nil]
    exact h.congr ⟨rfl, rfl, rfl, rfl, rfl⟩
  | cons a acts ih =>
    obtain ⟨b, hb, happly⟩ := actByte_ok h.ready hr
    have hcfg := h.cfg
    rw [runActs, hb, andThen_ok]
    refine Res.Meets.seq ((appendByte_output b acts h).mono (fun _ h => h) (fun t ht => ⟨[b], ht⟩) (fun _ _ h => h) id) ?_
    rintro t ⟨ht, hwp⟩
    refine (ih ht (hr.next (ht.cfg.trans hcfg.symm) (hcfg ▸ hwp))).mono ?_ ?_ (fun _ _ h => h) id
    · rintro u ⟨bs, hu, hwp', hph, hout⟩
      rw [List.append_assoc, List.append_assoc] at hu
      refine ⟨[b] ++ bs, hu, ?_, hph, fun hw => ?_⟩
      · rw [List.length_append, List.length_singleton]
        omega
      · rw [happly out (h.window.trans hw), ← List.append_assoc]
        exact hout (suffix_append_right [b] hw)
    · rintro u ⟨bs, hu⟩
      rw [List.append_assoc, List.append_assoc] at hu
      exact ⟨[b] ++ bs, hu⟩

/-! ### Codes that finish because the sink accepts -/

/-- APPEND_BYTE finishes when the sink accepts what is not yet sent, its byte included; what it then has not taken is accepted. -/
theorem appendByte_ok (b : Byte) (acts : List Act) {s : State} {n : Nat} (h : ApplyReady s)
    (hs : SinkAccepts (s.wp - s.fbase + (n + 1)) s) :
    ∃ t, appendByte b acts s = .ok t ∧ SinkAccepts (t.wp - t.fbase + n) t := by
  obtain ⟨hp, hroom, hbase, hwr⟩ := h
  rcases Nat.lt_or_eq_of_le hroom with hlt | hfull
  · refine ⟨_, appendByte_of_room b acts hlt, ?_⟩
    have hn : s.wp + 1 - s.fbase + n = s.wp - s.fbase + (n + 1) := by omega
    rw [← hn] at hs
    exact hs
  · obtain ⟨-, -, -, -, -, hcap, -⟩ := id hp
    have hfull' : s.wp + 1 = s.cfg.ringCap := hfull
    obtain ⟨t, ht, ⟨r, ans, rfl, -⟩, hans⟩ := ringFlushFrom_ok acts (i := s.fbase) (s := Appended b s) hcap
      (Appended.ringHas_full hwr hfull) (by simp only [Appended]; omega) (hs.of_le (by simp only [Appended]; omega))
    refine ⟨_, (appendByte_of_full b acts hfull).trans ht, hs.drop hans ?_⟩
    simp only [Appended]
    omega

/-- A Code finishes when the sink accepts what is not yet sent and what the Code appends. -/
theorem runActs_ok (acts : List Act) {s : State} (h : ApplyReady s) (hr : CopiesReach acts s)
    (hs : SinkAccepts (s.wp - s.fbase + acts.length) s) : ∃ t, runActs acts s = .ok t := by
  induction acts generalizing s with
  | nil => exact ⟨_, rfl⟩
  | cons a acts ih =>
    obtain ⟨b, hb, -⟩ := actByte_ok h hr
    obtain ⟨t, ht, hst⟩ := appendByte_ok b acts h hs
    have hout := appendByte_output b acts (w := window s) ⟨h, rfl, rfl, List.suffix_rfl⟩
    rw [ht, meets_ok] at hout
    obtain ⟨hholds, hwp⟩ := hout
    obtain ⟨u, hu⟩ := ih hholds.ready (hr.next hholds.cfg hwp) hst
    exact ⟨u, by rw [runActs, hb, andThen_ok, ht, andThen_ok, hu]⟩

/-! ### The instructions of the stream -/

/-- The bytes a Code appends (R164, R165): a literal alone is a copy of none and the literal. -/
def codeActs (c : Code) : List Act := copyActs c.off c.len c.lit

@[simp] theorem codeActs_length (c : Code) : (codeActs c).length = c.len + 1 := by simp [codeActs, copyActs]

/-- Applying a Code appends its bytes, unless its distance leaves the window or its operands are no Code's (R164, R165, R169). -/
theorem codeRes_cases (c : Code) (s : State) : codeRes c s = runActs (codeActs c) s ∨
    (s.wp < c.off ∧ codeRes c s = .raise .corruptStream s) ∨ codeRes c s = .refuse .notACode := by
  unfold codeRes applyLit applyCopy codeActs
  split
  case isTrue h0 => simp [h0, copyActs]
  case isFalse =>
    split
    · split
      case isTrue hlt => exact .inr (.inl ⟨hlt, rfl⟩)
      case isFalse => exact .inl rfl
    · exact .inr (.inr rfl)

/-- A Code of the format whose distance is within the window is applied (R164, R165). -/
theorem codeRes_of_valid {c : Code} {s : State} (hc : Code.Valid s.cfg c) (hoff : c.off ≤ s.wp) :
    codeRes c s = runActs (codeActs c) s := by
  obtain ⟨hzero, hW, hlen⟩ := hc
  unfold codeRes applyLit applyCopy codeActs
  split
  case isTrue h0 => simp [h0, copyActs]
  case isFalse h0 => rw [if_pos ⟨by omega, hW, by omega, hlen⟩, if_neg hoff.not_gt]

theorem codeActs_reach {c : Code} {s : State} (hc : Code.Valid s.cfg c) (hoff : c.off ≤ s.wp) : CopiesReach (codeActs c) s := by
  obtain ⟨hzero, hW, -⟩ := hc
  intro off hmem
  obtain ⟨hn, rfl⟩ : c.len ≠ 0 ∧ off = c.off := by simpa [codeActs, copyActs] using hmem
  exact ⟨by omega, hW, hoff⟩

/-- What the bytes of a Code make of an output is what the Code makes of it (R170). -/
theorem applyActs_codeActs (c : Code) (out : List Byte) : applyActs (codeActs c) out = applyToOutput c out := by
  obtain ⟨off, n, b⟩ := c
  have hcopy (n : Nat) (out : List Byte) : applyActs (copyActs off n b) out = copyOut off n out ++ [b] := by
    induction n generalizing out with
    | zero => rfl
    | succ n ih => exact ih _
  exact hcopy n out

/-- An instruction of the stream is executed as its Code is applied (R163). -/
theorem exec_eq_codeRes {i : Instr} {c : Code} (h : i.toCode = some c) (s : State) : exec i s = (codeRes c s).toOutcome := by
  rw [← execCode_eq_codeRes, execCode, Instr.ofCode_of_toCode h]

/-- A Code within the window and a sink that accepts: it is applied, and makes of the output what R170 says. -/
theorem codeRes_ok {p : Params} {out w : List Byte} {c : Code} {s : State} (h : Holds p out w s) (hw : w <:+ out)
    (hc : Code.Valid p c) (hoff : c.off ≤ s.wp) (hs : SinkAccepts (s.wp - s.fbase + c.len + 1) s) :
    ∃ t bs, codeRes c s = .ok t ∧ applyToOutput c out = out ++ bs ∧ Holds p (out ++ bs) (w ++ bs) t ∧ t.dphase = .apply ∧
      (s.wp + bs.length ≤ t.wp ∨ p.windowSize ≤ t.wp) := by
  obtain rfl := h.cfg
  have hr := codeActs_reach hc hoff
  obtain ⟨t, ht⟩ := runActs_ok (codeActs c) h.ready hr (by simpa [Nat.add_assoc] using hs)
  have hout := runActs_output (codeActs c) h hr
  rw [ht, meets_ok] at hout
  obtain ⟨bs, hholds, hwp, hph, hout⟩ := hout
  refine ⟨t, bs, (codeRes_of_valid hc hoff).trans ht, ?_, hholds, hph, hwp⟩
  rw [hout hw, applyActs_codeActs]

/-- A ring flush going on where it was blocked, and the bytes its Code has left, with a sink that accepts (R167, R235). -/
theorem flushStep_ok {i : Nat} {acts : List Act} {s : State} (hp : s.cfg.Legal) (hwp : s.wp = s.cfg.ringCap) (hi : i ≤ s.wp)
    (h : RingHas s s.wp) (hv : ∀ a ∈ acts, ActValid s.cfg a) (hw : window s <:+ outFrom i s)
    (hs : SinkAccepts (s.wp - i + acts.length) s) :
    ∃ t bs, flushStep i acts s = .ok t ∧ applyActs acts (outFrom i s) = outFrom i s ++ bs ∧
      Holds s.cfg (outFrom i s ++ bs) (window s ++ bs) t ∧ t.dphase = .apply := by
  obtain ⟨-, -, -, -, -, hcap, -⟩ := id hp
  obtain ⟨t, ht, ⟨r, ans, ht', -⟩, hans⟩ := ringFlushFrom_ok acts hcap (hwp ▸ h) (hwp ▸ hi)
    (hs.of_le (by rw [hwp]; exact Nat.le_add_right _ _))
  have hflushed := ringFlushFrom_output acts hp hwp hi h
  rw [ht, meets_ok] at hflushed
  obtain ⟨hholds, htwp⟩ := hflushed
  have hr := copiesReach_of_seed hholds.cfg htwp hv
  have hst : SinkAccepts (t.wp - t.fbase + acts.length) t := hs.drop hans (by rw [ht', hwp]; simp)
  obtain ⟨u, hu⟩ := runActs_ok acts hholds.ready hr hst
  have hout := runActs_output acts hholds hr
  rw [hu, meets_ok] at hout
  obtain ⟨bs, hu', -, hph, hout⟩ := hout
  exact ⟨u, bs, by rw [flushStep, ht, andThen_ok, hu], (hout hw).symm, hu', hph⟩

/-- Settles O27: a Code, or a flush going on and the bytes left, finishes with the output R170 says and the window at its end
(`codeRes_ok`, `flushStep_ok`). -/
theorem logicalOutput : Obligations.LogicalOutput := by
  have atApply {p : Params} {out w bs : List Byte} {t : State} (ht : Holds p (out ++ bs) (w ++ bs) t) (hph : t.dphase = .apply)
      (hw : w <:+ out) : outBytes t = out ++ bs ∧ window t <:+ outBytes t ∧ ApplyReady t ∧ t.dphase = .apply := by
    have hout : outBytes t = out ++ bs := (outBytes_of_apply hph).trans ht.out
    exact ⟨hout, hout ▸ ht.window.trans (suffix_append_right bs hw), ht.ready, hph⟩
  refine ⟨fun s i c h hph hw hwf hi hoff hs => ?_, fun s i acts hp hph hwp hi hwr hv hw hs => ?_⟩
  · rw [outBytes_of_apply hph] at hw ⊢
    obtain ⟨t, bs, ht, hout, hholds, htph, -⟩ := codeRes_ok (c := c) ⟨h, rfl, rfl, List.suffix_rfl⟩ hw
      (Instr.valid_of_wellFormed hwf hi) hoff hs
    exact ⟨t, by rw [exec_eq_codeRes hi, ht, toOutcome_ok], hout ▸ atApply hholds htph hw⟩
  · rw [outBytes_of_ringFlush hph] at hw ⊢
    obtain ⟨t, bs, ht, hout, hholds, htph⟩ := flushStep_ok hp hwp hi.le hwr hv hw hs
    exact ⟨t, by rw [decompressStep_eq, decompressRes_ringFlush hph, ht, toOutcome_ok], hout ▸ atApply hholds htph hw⟩

end Sys2Proof.Machine
end


section
/-! PROOFS of 43_decompress.md, what each operation of the apply phase leaves in RING, in the sink and in the other registers
(R160, R164 to R169). -/

namespace Sys2Proof.Machine

/-! ### RING_FLUSH, FINAL_FLUSH and the end of a batch -/

/-- Settles O30: with a sink that accepts the flush finishes as `Flushed` says. -/
theorem ringFlush : Obligations.RingFlush := by
  intro s acts hp hwp hbase hwr hs
  obtain ⟨-, -, -, -, -, hcap, -⟩ := hp
  obtain ⟨t, ht, ⟨r, ans, rfl, -, hseed, hsame⟩, -⟩ := ringFlushFrom_ok acts hcap (hwp ▸ hwr) (hwp ▸ hbase) hs
  exact ⟨_, ht, rfl, hseed, hsame, rfl, rfl⟩

/-- FINAL_FLUSH completes when the sink accepts what is left to send (R168). -/
theorem finalStep_ok {i : Nat} {s : State} (hi : i ≤ s.wp) (hcap : s.wp ≤ s.cfg.ringCap) (h : RingHas s s.wp)
    (hs : SinkAccepts (s.wp - i) s) :
    ∃ ans, finalStep i s = .ok (complete { s with snk := outFrom i s, snkAns := ans, fbase := s.wp, dphase := .decode [] }) :=
  ⟨_, by rw [finalStep, sendRing_ok DPhase.final h hcap (by omega) hs, andThen_ok]; rfl⟩

/-- Settles O31: the rest of the output is sent, and then the operation completes. -/
theorem finalFlush : Obligations.FinalFlush := by
  intro s i hph hi hcap hwr hs
  obtain ⟨ans, ht⟩ := finalStep_ok hi hcap hwr hs
  rw [decompressStep_eq, decompressRes_final hph, ht]
  exact ⟨_, toOutcome_ok _, rfl, (outBytes_of_final hph).symm, rfl, rfl, rfl, rfl, rfl, rfl, rfl⟩

/-- Settles O34: with no Code left the apply phase ends the batch, and EOS decides how. -/
theorem batchEnds : Obligations.BatchEnds := by
  intro s hph hle
  rw [decompressStep_eq, decompressRes_apply_end hph hle.not_gt, toOutcome_ok, batchEnd]
  exact ⟨fun h => by rw [if_pos h], fun h => by rw [if_neg (by simp [h])]⟩

/-! ### LIT -/

/-- LIT is one APPEND_BYTE (R164). -/
theorem exec_lit (c : Byte) (s : State) :
    exec (.lit c) s = ((appendByte c [] s).andThen fun t => .ok { t with dphase := .apply }).toOutcome :=
  rfl

/-- Settles O24: APPEND_BYTE with room. -/
theorem litAppends : Obligations.LitAppends := by
  intro s c hroom
  refine ⟨{ Appended c s with dphase := .apply }, ?_, memGet_memSet_same _ _ _, fun i hi => memGet_memSet_other _ _ hi, rfl⟩
  rw [exec_lit, appendByte_of_room c [] hroom, andThen_ok, toOutcome_ok]

/-- Settles O25: APPEND_BYTE that fills the buffer, and what the flush leaves of the buffer with `c` at its end. -/
theorem litFlushes : Obligations.LitFlushes := by
  rintro s c ⟨hp, hroom, hbase, hwr⟩ hfull hs
  obtain ⟨-, hW, -, -, -, hcap, -⟩ := hp
  obtain ⟨t, ht, ⟨r, ans, rfl, -, hseed, hsame⟩, hans⟩ := ringFlushFrom_ok [] (i := s.fbase) (s := Appended c s) hcap
    (Appended.ringHas_full hwr hfull) (by simp only [Appended]; omega) hs
  have hsent : ringSlice (Appended c s) s.fbase (s.cfg.ringCap - s.fbase) = ringSlice s s.fbase (s.wp - s.fbase) ++ [c] :=
    hfull ▸ ringSlice_appended c hwr hbase
  have hbelow (k) (hk : k ≠ s.wp) : memGet (Appended c s).ring k = memGet s.ring k := memGet_memSet_other _ _ hk
  rw [exec_lit, appendByte_of_full c [] hfull, ht, andThen_ok]
  refine ⟨_, toOutcome_ok _, ?_, rfl, rfl, fun j hj => ?_, ?_, fun j hj hj' => ?_, rfl, hans⟩
  · exact (congrArg (s.snk ++ ·) hsent).trans (List.append_assoc _ _ _).symm
  · exact (hseed j (by simp only [Appended]; omega)).trans (hbelow _ (by simp only [Appended]; omega))
  · have hlast : s.cfg.ringCap - s.cfg.windowSize + (s.cfg.windowSize - 1) = s.wp := by omega
    exact (hseed _ (by simp only [Appended]; omega)).trans (hlast ▸ memGet_memSet_same _ _ _)
  · exact (hsame j hj).trans (hbelow j hj'.ne)

/-! ### COPY -/

/-- The copied bytes of a Code where no flush falls due, each read after the writes before it (R165, R61); `acts` follow. -/
theorem runActs_copies {off : Nat} (n : Nat) (acts : List Act) {s : State} (hoff : 1 ≤ off) (hle : off ≤ s.wp)
    (hroom : s.wp + n < s.cfg.ringCap) (hwr : ∀ i, s.wp - off ≤ i → i < s.wp → (memGet s.ring i).isSome) :
    ∃ r, runActs (List.replicate n (.copy off) ++ acts) s = runActs acts { s with ring := r, wp := s.wp + n } ∧
      (∀ k, k < n → memGet r (s.wp + k) = memGet r (s.wp - off + k)) ∧
      ∀ i, i < s.wp ∨ s.wp + n ≤ i → memGet r i = memGet s.ring i := by
  induction n generalizing s with
  | zero => exact ⟨s.ring, rfl, fun k hk => absurd hk (Nat.not_lt_zero k), fun _ _ => rfl⟩
  | succ n ih =>
    obtain ⟨b, hb⟩ := Option.isSome_iff_exists.mp (hwr (s.wp - off) le_rfl (by omega))
    have hbyte : actByte (.copy off) s = .ok b := by
      rw [actByte, copySource, if_pos hle, andThen_ok, ringRead_ok (by omega) hb]
    obtain ⟨r, hr, hcopied, hsame⟩ := ih (s := Appended b s) (hle.trans (Nat.le_succ _))
      (by simp only [Appended]; omega) fun i hi hi' => by
        simp only [Appended] at hi hi' ⊢
        rw [memGet_memSet]
        split
        · rfl
        · exact hwr i (by omega) (by omega)
    simp only [Appended] at hcopied hsame
    refine ⟨r, ?_, fun k hk => ?_, fun i hi => ?_⟩
    · rw [List.replicate_succ, List.cons_append, runActs, hbyte, andThen_ok, appendByte_of_room b _ (by omega), andThen_ok, hr]
      simp only [Appended, Nat.add_assoc, Nat.add_comm 1]
    · cases k with
      | zero =>
        rw [Nat.add_zero, Nat.add_zero, hsame _ (by omega), memGet_memSet_same, hsame _ (by omega),
          memGet_memSet_other _ _ (by omega), hb]
      | succ k =>
        have h := hcopied k (by omega)
        rwa [show s.wp + 1 + k = s.wp + (k + 1) by omega, show s.wp + 1 - off + k = s.wp - off + (k + 1) by omega] at h
    · rw [hsame i (by omega), memGet_memSet_other _ _ (by omega)]

/-- A copy instruction applies its Code (R163, R165). -/
theorem exec_copyForm {nk : Nat × (Nat → Byte → Instr)} (hnk : nk ∈ copyForms) (off : Nat) (c : Byte) (s : State) :
    exec (nk.2 off c) s = (applyCopy off nk.1 c s).toOutcome := by
  obtain ⟨hn, -, hcode⟩ := copyForms_toCode hnk
  have hne : nk.1 ≠ 0 := by omega
  rw [exec_eq_codeRes (hcode off c), codeRes, if_neg hne]

/-- COPY whose distance is within the window appends its bytes (R165, R169). -/
theorem applyCopy_of_le {off n : Nat} (c : Byte) {s : State} (ho : CopyOperands s.cfg off n) (hle : off ≤ s.wp) :
    applyCopy off n c s = runActs (copyActs off n c) s := by
  rw [applyCopy, if_pos ho, if_neg hle.not_gt]

/-- COPY whose distance leaves the window (R169). -/
theorem applyCopy_of_lt {off n : Nat} (c : Byte) {s : State} (ho : CopyOperands s.cfg off n) (hlt : s.wp < off) :
    applyCopy off n c s = .raise .corruptStream s := by
  rw [applyCopy, if_pos ho, if_pos hlt]

/-- Settles O26: the copied bytes (`runActs_copies`), and then APPEND_BYTE of the literal with room. -/
theorem copyAppends : Obligations.CopyAppends := by
  intro s off c nk hnk ho hle hroom hwr
  obtain ⟨hpos, -⟩ := id ho
  obtain ⟨r, hr, hcopied, hsame⟩ := runActs_copies nk.1 [.lit c] hpos hle (by omega) hwr
  have hlit : runActs [.lit c] { s with ring := r, wp := s.wp + nk.1 } =
      .ok { s with ring := memSet r (s.wp + nk.1) c, wp := s.wp + nk.1 + 1, dphase := .apply } := by
    rw [runActs, actByte, andThen_ok, appendByte_of_room c [] (by simpa using hroom), andThen_ok]
    rfl
  have hother (i) (hi : i ≠ s.wp + nk.1) : memGet (memSet r (s.wp + nk.1) c) i = memGet r i := memGet_memSet_other _ _ hi
  refine ⟨_, by rw [exec_copyForm hnk, applyCopy_of_le c ho hle, copyActs, hr, hlit, toOutcome_ok], fun k hk => ?_,
    memGet_memSet_same _ _ _, fun i hi => ?_, rfl⟩
  · exact (hother _ (by omega)).trans ((hcopied k hk).trans (hother _ (by omega)).symm)
  · exact (hother i (by omega)).trans (hsame i (by omega))

/-- Settles O28: the test of R169 comes first, and no byte of a Code raises CorruptStream (`runActs_frame`). -/
theorem corruptOffset : Obligations.CorruptOffset := by
  intro s off c nk hnk ho
  rw [exec_copyForm hnk]
  refine ⟨fun hlt => ?_, fun hle herr t ht => ?_⟩
  · rw [applyCopy_of_lt c ho hlt]
    exact ⟨rfl, _, toOutcome_raise _ _, ⟨rfl, rfl, rfl, rfl, rfl⟩, rfl⟩
  · rw [applyCopy_of_le c ho hle] at ht
    have hkept (u) (hu : ActsFrame (copyActs off nk.1 c).length s u) : u.err ≠ .corruptStream := by
      obtain ⟨⟨_, _, _, _, _, _, -, rfl⟩, -⟩ := hu
      exact herr
    exact Res.Meets.toOutcome (P := fun t => t.err ≠ .corruptStream)
      ((runActs_frame _ s).mono hkept hkept (fun _ _ he => he) id) ht

/-! ### What a Code leaves unchanged -/

/-- What `n` bytes of a Code leave alone where no flush falls due: FBASE, the sink and every entry of RING but those written. -/
def RoomFrame (n : Nat) (s t : State) : Prop :=
  t.fbase = s.fbase ∧ t.snk = s.snk ∧ t.snkAns = s.snkAns ∧ ∀ k, k < s.wp ∨ s.wp + n ≤ k → memGet t.ring k = memGet s.ring k

theorem runActs_room_frame (acts : List Act) {s : State} (hroom : s.wp + acts.length < s.cfg.ringCap) : (runActs acts s).Meets
    (RoomFrame acts.length s) (fun _ => False) (fun _ _ => True) True := by
  induction acts generalizing s with
  | nil => exact ⟨rfl, rfl, rfl, fun _ _ => rfl⟩
  | cons a acts ih =>
    rw [List.length_cons] at hroom
    refine Res.Meets.seq ((actByte_keeps a s).mono (fun _ h => h) (fun _ h => h) (fun _ _ _ => trivial) id) fun b _ => ?_
    rw [appendByte_of_room b acts (by omega), andThen_ok]
    refine (ih (s := Appended b s) (by simp only [Appended]; omega)).mono_ok ?_
    rintro t ⟨hbase, hsnk, hans, hsame⟩
    refine ⟨hbase, hsnk, hans, fun k hk => ?_⟩
    rw [List.length_cons] at hk
    exact (hsame k (by simp only [Appended]; omega)).trans (memGet_memSet_other _ _ (by omega))

/-- Settles O48: only RING, its cursors, the control point and the sink change (`runActs_frame`); without a flush only the entries
written (`runActs_room_frame`). An error would have left MODE = IDLE. -/
theorem litCopyFrame : Obligations.LitCopyFrame := by
  intro s t i c hi hm ht hmt
  rw [exec_eq_codeRes hi] at ht
  rcases codeRes_cases c s with hacts | ⟨-, hraise⟩ | hrefuse
  · rw [hacts] at ht
    have hframe : t.mode = .decomp → ActsFrame (codeActs c).length s t :=
      Res.Meets.toOutcome (P := fun t => t.mode = .decomp → ActsFrame _ s t) ((runActs_frame (codeActs c) s).mono
        (fun _ h _ => h) (fun _ h _ => h) (fun _ _ _ h => by simp at h) id) ht
    have hroom (h : s.wp + (codeActs c).length < s.cfg.ringCap) : t.mode = .decomp → RoomFrame (codeActs c).length s t :=
      Res.Meets.toOutcome (P := fun t => t.mode = .decomp → RoomFrame _ s t) ((runActs_room_frame (codeActs c) h).mono
        (fun _ h _ => h) (fun _ h => h.elim) (fun _ _ _ h => by simp at h) id) ht
    rw [codeActs_length] at hframe hroom
    obtain ⟨⟨_, _, _, _, _, _, -, rfl⟩, hsame⟩ := hframe hmt
    refine ⟨⟨rfl, rfl, rfl, rfl, rfl⟩, ⟨rfl, rfl, rfl, rfl, rfl, rfl⟩, ⟨rfl, rfl, rfl⟩, ⟨rfl, rfl, rfl, rfl, rfl, rfl⟩, rfl, rfl,
      rfl, rfl, List.prefix_append _ _, fun h => ?_, fun k hk hW => hsame k (by unfold Untouched; omega)⟩
    obtain ⟨hbase, hsnk, hans, hring⟩ := hroom h hmt
    exact ⟨hbase, hsnk, hans, fun k hk => hring k (by omega)⟩
  · rw [hraise] at ht
    cases ht
    simp at hmt
  · simp [hrefuse] at ht

end Sys2Proof.Machine
end


section
/-! PROOFS of 43_decompress.md, DECODE_CODE and the decode phase: which bits are a Code, how the end of the stream is judged, and
what one pass of DECODE_BATCH takes and stores (R161, R162). -/

namespace Sys2Proof

/-! ### DECODE_CODE on a bit string -/

/-- Settles O5: a decoded Code is R9's and its bits are its encoding (`decodeCode_code`), and an encoding is read back
(`decodeCode_encodeCode`). -/
theorem decodeExact : Obligations.DecodeExact := by
  intro p bits rest c hp
  refine ⟨fun h => ?_, ?_⟩
  · obtain ⟨hc, hbits⟩ := decodeCode_code hp h
    exact ⟨hc, hbits.symm⟩
  · rintro ⟨hc, rfl⟩
    exact decodeCode_encodeCode hp hc rest

/-- A Code is decoded whatever bits stand behind it. -/
theorem decodeCode_append {p : Params} (hp : p.Legal) {bits rest : List Bool} {c : Code} (h : decodeCode p bits = .code c rest)
    (more : List Bool) : decodeCode p (bits ++ more) = .code c (rest ++ more) := by
  obtain ⟨hc, rfl⟩ := decodeCode_code hp h
  rw [List.append_assoc, decodeCode_encodeCode hp hc]

/-- Bits that are no whole Code end with the source cleanly when they are few and all zero (R161). -/
theorem streamEnd_of_bits (bits : List Bool) : streamEnd bits.length (bitsVal bits != 0) = .endOfStream ↔
    bits.length ≤ 7 ∧ ∀ b ∈ bits, b = false := by
  rw [← bitsVal_zero_iff, streamEnd]
  split
  case isTrue h0 => simp [List.length_eq_zero_iff.mp h0]
  case isFalse =>
    split
    case isTrue h => simpa using h
    case isFalse h => simpa using h

/-- The clean end of the stream is judged over all bits of the unfinished Code, wherever in it they end (R161). -/
theorem decodeCode_end_iff {p : Params} (hp : p.Legal) (bits : List Bool) :
    decodeCode p bits = .endOfStream ↔ bits.length ≤ 7 ∧ ∀ b ∈ bits, b = false := by
  have hpos := hp.lenBits_pos
  rcases Nat.lt_or_ge bits.length p.lenBits with hl | hl
  · have hd : decodeCode p bits = streamEnd bits.length (bitsVal bits != 0) := by
      simp [decodeCode, takeField_eq, hl.not_ge]
    rw [hd, streamEnd_of_bits]
  · rcases Nat.eq_zero_or_pos (bitsVal (bits.take p.lenBits)) with hlen | hlen
    · rcases Nat.lt_or_ge bits.length (p.lenBits + 8) with hb | hb
      · have hb' : ¬ 8 ≤ bits.length - p.lenBits := by omega
        have hval : bitsVal (bits.drop p.lenBits) = 0 ↔ bitsVal bits = 0 := by
          rw [bitsVal_zero_iff] at hlen
          conv_rhs => rw [bitsVal_zero_iff, ← List.take_append_drop p.lenBits bits, List.forall_mem_append]
          rw [bitsVal_zero_iff]
          exact ⟨fun h => ⟨hlen, h⟩, fun h => h.2⟩
        have hne : (bitsVal (bits.drop p.lenBits) != 0) = (bitsVal bits != 0) := by
          rw [Bool.eq_iff_iff, bne_iff_ne, bne_iff_ne, ne_eq, ne_eq, hval]
        have hd : decodeCode p bits = streamEnd bits.length (bitsVal bits != 0) := by
          simp [decodeCode, takeField_eq, litBits, hl, hlen, hb', hne, Nat.add_sub_cancel' hl]
        rw [hd, streamEnd_of_bits]
      · rw [decodeCode_of_len_zero hb hlen]
        simp only [reduceCtorEq, false_iff]
        omega
    · have hbit : ¬ ∀ b ∈ bits, b = false := fun h =>
        hlen.ne' ((bitsVal_zero_iff _).mpr fun b hb => h b (List.mem_of_mem_take hb))
      have hd : decodeCode p bits ≠ .endOfStream := by
        simp only [decodeCode, takeField_eq, hl, if_true, hlen]
        split
        · simp
        · split <;> simp
      simp only [hd, hbit, and_false]

/-- Settles O8: the clean end by `decodeCode_end_iff`; what is neither that nor a Code is TruncatedStream. -/
theorem streamEndRule : Obligations.StreamEndRule := by
  intro p bits hp
  refine ⟨decodeCode_end_iff hp bits, ?_⟩
  have hend : (8 ≤ bits.length ∨ ∃ b ∈ bits, b = true) ↔ decodeCode p bits ≠ .endOfStream := by
    rw [ne_eq, decodeCode_end_iff hp, not_and_or, Nat.not_le]
    simp [Nat.succ_le_iff]
  rw [hend]
  cases decodeCode p bits <;> simp

namespace Machine

/-! ### Taking bits -/

/-- Only the read window and the source have changed. -/
def ReadOnly (s t : State) : Prop :=
  ∃ acc fill src taken, t = { s with acc := acc, fill := fill, src := src, taken := taken }

theorem ReadOnly.refl (s : State) : ReadOnly s s := ⟨s.acc, s.fill, s.src, s.taken, rfl⟩

theorem ReadOnly.trans {s t u : State} (h₁ : ReadOnly s t) (h₂ : ReadOnly t u) : ReadOnly s u := by
  obtain ⟨_, _, _, _, rfl⟩ := h₁
  obtain ⟨acc, fill, src, taken, rfl⟩ := h₂
  exact ⟨acc, fill, src, taken, rfl⟩

theorem ReadOnly.cfg {s t : State} (h : ReadOnly s t) : t.cfg = s.cfg := by
  obtain ⟨_, _, _, _, rfl⟩ := h
  rfl

/-- What the source answers behind the bytes it answers next: the counterpart of `leadingBytes`. -/
def afterBytes : List SrcAnswer → List SrcAnswer
  | .byte _ :: rest => afterBytes rest
  | src => src

theorem afterBytes_bytes (bs : List Byte) (rest : List SrcAnswer) : afterBytes (bs.map .byte ++ rest) = afterBytes rest := by
  induction bs with
  | nil => rfl
  | cons b bs ih => exact ih

theorem leadingBytes_bytes (bs : List Byte) (rest : List SrcAnswer) :
    leadingBytes (bs.map .byte ++ rest) = bs ++ leadingBytes rest := by
  induction bs with
  | nil => rfl
  | cons b bs ih => exact congrArg (b :: ·) ih

theorem afterBytes_of_leadingBytes_nil {src : List SrcAnswer} (h : leadingBytes src = []) : afterBytes src = src := by
  match src with
  | .byte x :: rest => simp [leadingBytes] at h
  | [] | .eof :: _ | .fail :: _ => rfl

/-- GET_BIT changes only the read window and takes from the source at most a byte, or its end mark (R103). -/
theorem getBit_frame (s : State) : (getBit s).Meets
    (fun r => ReadOnly s r.2 ∧ (r.1 ≠ none → afterBytes r.2.src = afterBytes s.src)) (fun t => t = s)
    (fun _ _ => True) True := by
  unfold getBit
  split
  · refine Res.Meets.seq ((srcRead_meets s).mono (fun _ h => h) (fun _ h => h.2) (fun _ _ _ => trivial) fun h => h.elim) ?_
    rintro r (⟨b, rest, hsrc, rfl⟩ | ⟨rest, hsrc, rfl⟩)
    · exact ⟨⟨b, 7, rest, s.taken + 1, rfl⟩, fun _ => by rw [hsrc]; rfl⟩
    · exact ⟨⟨s.acc, s.fill, rest, s.taken, rfl⟩, fun h => absurd rfl h⟩
  · split
    · exact ⟨⟨s.acc, s.fill - 1, s.src, s.taken, rfl⟩, fun _ => rfl⟩
    · trivial

/-- The bit loop of DECODE_CODE changes only the read window and the source, and where it waits the control point (R161, R235). -/
theorem takeCode_frame (n : Nat) (got : List Bool) (s : State) : (takeCode n got s).Meets (fun r => ReadOnly s r.2)
    (fun t => ∃ u got', ReadOnly s u ∧ t = { u with dphase := .decode got' }) (fun _ _ => True) True := by
  induction n generalizing got s with
  | zero => exact .refl s
  | succ n ih =>
    unfold takeCode
    split
    · exact .refl s
    · refine Res.Meets.seq (ok := fun r => ReadOnly s r.2) (Res.Meets.parkAt ((getBit_frame s).mono (fun _ h => h.1) ?_
        (fun _ _ h => h) id)) ?_
      · rintro t rfl
        exact ⟨t, got, .refl t, rfl⟩
      · rintro ⟨o, t⟩ ht
        cases o with
        | none => exact ht
        | some b =>
          refine (ih (got ++ [b]) t).mono (fun _ h => ht.trans h) ?_ (fun _ _ h => h) id
          rintro u ⟨v, got', hv, rfl⟩
          exact ⟨v, got', ht.trans hv, rfl⟩

/-- `k` bits have been taken (R103): the position 8 × n − FILL has moved by `k` (R27). -/
structure Took (k : Nat) (s t : State) : Prop where
  frame : ReadOnly s t
  fill : t.fill ≤ 8
  position : 8 * t.taken + s.fill = 8 * s.taken + t.fill + k
  after : afterBytes t.src = afterBytes s.src

theorem Took.trans {j k : Nat} {s t u : State} (h₁ : Took j s t) (h₂ : Took k t u) : Took (k + j) s u :=
  ⟨h₁.frame.trans h₂.frame, h₂.fill, by have := h₁.position; have := h₂.position; omega, h₂.after.trans h₁.after⟩

/-- GET_BIT takes the first unread bit (R103, R51). -/
theorem getBit_unread {s : State} {b : Bool} {bits : List Bool} (h8 : s.fill ≤ 8) (h : unreadBits s = b :: bits) :
    ∃ t, getBit s = .ok (some b, t) ∧ unreadBits t = bits ∧ Took 1 s t := by
  obtain ⟨b', t, hget, hbits, hfill, hpos⟩ := BitCodec.bitsInOrder s h8 (by simp [h])
  obtain ⟨rfl, rfl⟩ : b = b' ∧ bits = unreadBits t := by simpa [h] using hbits
  have hframe := getBit_frame s
  rw [hget, meets_ok] at hframe
  exact ⟨t, hget, rfl, hframe.1, hfill, hpos, hframe.2 (by simp)⟩

/-! One equation of `takeCode` for each way its loop goes on (R161). -/

section
variable {n : Nat} {got : List Bool} {s t : State}

theorem takeCode_of_code (n : Nat) {c : Code} {rest : List Bool} (h : decodeCode s.cfg got = .code c rest) :
    takeCode n got s = .ok (.code c rest, s) := by
  cases n <;> simp [takeCode, h]

variable (h : ∀ c rest, decodeCode s.cfg got ≠ .code c rest)
include h

theorem takeCode_of_bit {b : Bool} (hget : getBit s = .ok (some b, t)) : takeCode (n + 1) got s = takeCode n (got ++ [b]) t := by
  rw [takeCode]
  split
  · exact absurd ‹_› (h _ _)
  · rw [hget, parkAt_ok, andThen_ok]

theorem takeCode_of_exhausted (hget : getBit s = .ok (none, t)) : takeCode (n + 1) got s = .ok (decodeCode s.cfg got, t) := by
  rw [takeCode]
  split
  · exact absurd ‹_› (h _ _)
  · rw [hget, parkAt_ok, andThen_ok]

end

/-- The bit loop takes unread bits as long as it has no whole Code (R161). -/
theorem takeCode_unread (n : Nat) {got bits more : List Bool} {s : State} (h8 : s.fill ≤ 8) (h : unreadBits s = bits ++ more)
    (hne : ∀ m, m < bits.length → ∀ c rest, decodeCode s.cfg (got ++ bits.take m) ≠ .code c rest) :
    ∃ t, takeCode (n + bits.length) got s = takeCode n (got ++ bits) t ∧ unreadBits t = more ∧ Took bits.length s t := by
  induction bits generalizing got s with
  | nil => exact ⟨s, by simp, h, .refl s, h8, rfl, rfl⟩
  | cons b bits ih =>
    obtain ⟨t, hget, hbits, htook⟩ := getBit_unread h8 h
    have hcfg := htook.frame.cfg
    have hnil : ∀ c rest, decodeCode s.cfg got ≠ .code c rest := by simpa using hne 0 (by simp)
    obtain ⟨u, hu, hmore, htook'⟩ := ih (got := got ++ [b]) htook.fill hbits fun m hm => by
      rw [hcfg]
      simpa using hne (m + 1) (by simpa using hm)
    refine ⟨u, ?_, hmore, htook.trans htook'⟩
    rw [List.length_cons, ← Nat.add_assoc, takeCode_of_bit hnil hget, hu, List.append_assoc, List.singleton_append]

/-! ### One pass of DECODE_BATCH -/

/-- When the bits taken and the unread ones begin with a Code, the bit loop takes the Code's bits and no more (R161, R86). -/
theorem takeCode_ok {got rest : List Bool} {c : Code} {s : State} (hp : s.cfg.Legal) (h8 : s.fill ≤ 8)
    (hgot : ∀ c' r, decodeCode s.cfg got ≠ .code c' r) (h : decodeCode s.cfg (got ++ unreadBits s) = .code c rest) :
    ∃ t k, takeCode (s.cfg.maxCodeBits + 1) got s = .ok (.code c [], t) ∧ unreadBits t = rest ∧ Took k s t ∧
      got.length + k = codeWidth s.cfg c ∧ Code.Valid s.cfg c := by
  obtain ⟨hc, henc⟩ := decodeCode_code hp h
  rcases List.append_eq_append_iff.mp henc with ⟨a, hall, -⟩ | ⟨bits, hbits, hrest⟩
  · exact absurd (hall ▸ decodeCode_encodeCode hp hc a) (hgot c a)
  · have hwhole : decodeCode s.cfg (got ++ bits) = .code c [] := by
      simpa [hbits] using decodeCode_encodeCode hp hc []
    have hwidth : got.length + bits.length = codeWidth s.cfg c := by rw [← encodeCode_length, hbits, List.length_append]
    have hmax := codeWidth_le s.cfg c
    obtain ⟨t, ht, hmore, htook⟩ := takeCode_unread (s.cfg.maxCodeBits + 1 - bits.length) h8 hrest fun m hm c' r hcode => by
      have hlong := decodeCode_append hp hcode (bits.drop m)
      rw [List.append_assoc, List.take_append_drop, hwhole] at hlong
      have hlen : (bits.drop m).length ≠ 0 := by rw [List.length_drop]; omega
      simp_all
    rw [Nat.sub_add_cancel (by omega)] at ht
    have hcfg := htook.frame.cfg
    exact ⟨t, bits.length, ht.trans (takeCode_of_code _ (hcfg ▸ hwhole)), hmore, htook, hwidth, hc⟩

/-- With no unread bit the window is empty and the source answers no byte next. -/
theorem unreadBits_nil {s : State} (h : unreadBits s = []) : s.fill = 0 ∧ s.src = afterBytes s.src := by
  obtain ⟨hwindow, hsource⟩ := List.append_eq_nil_iff.mp h
  refine ⟨by simpa using congrArg List.length hwindow, (afterBytes_of_leadingBytes_nil ?_).symm⟩
  cases hl : leadingBytes s.src with
  | nil => rfl
  | cons b bs =>
    rw [hl, streamBits_cons] at hsource
    simpa using congrArg List.length hsource

/-- When the bits left are no whole Code the bit loop takes them all and the end mark, and they are judged together (R161). -/
theorem takeCode_end {got : List Bool} {rest : List SrcAnswer} {s : State} (hp : s.cfg.Legal) (h8 : s.fill ≤ 8)
    (hsrc : afterBytes s.src = .eof :: rest) (h : ∀ c r, decodeCode s.cfg (got ++ unreadBits s) ≠ .code c r) :
    ∃ t, takeCode (s.cfg.maxCodeBits + 1) got s = .ok (decodeCode s.cfg (got ++ unreadBits s), t) ∧ ReadOnly s t ∧
      t.src = rest ∧ t.fill = 0 := by
  have hshort : (got ++ unreadBits s).length < s.cfg.maxCodeBits := by
    by_contra hlen
    obtain ⟨c, r, hcode, -⟩ := (noIllegalPattern s.cfg _ hp).2 (Nat.not_lt.mp hlen)
    exact h c r hcode
  rw [List.length_append] at hshort
  obtain ⟨t, ht, hnone, htook⟩ := takeCode_unread (got := got) (s.cfg.maxCodeBits - (unreadBits s).length + 1) h8
    (List.append_nil _).symm fun m _ c r hcode => by
      have hlong := decodeCode_append hp hcode ((unreadBits s).drop m)
      rw [List.append_assoc, List.take_append_drop] at hlong
      exact h c _ hlong
  have hn : s.cfg.maxCodeBits - (unreadBits s).length + 1 + (unreadBits s).length = s.cfg.maxCodeBits + 1 := by omega
  have hcfg := htook.frame.cfg
  obtain ⟨hfill, hafter⟩ := unreadBits_nil hnone
  have hget := getBit_eof hfill (hafter.trans (htook.after.trans hsrc))
  refine ⟨{ t with src := rest }, ?_, htook.frame.trans ⟨t.acc, t.fill, rest, t.taken, rfl⟩, rfl, hfill⟩
  rw [← hn, ht, takeCode_of_exhausted (by rwa [hcfg]) hget, hcfg]

/-- The Code `c` in the Code register and in BATCH[BCNT], and the control point behind it (R162). -/
def stored (c : Code) (s : State) : State :=
  { s with
    creg := c, batch := memSet s.batch s.bcnt c, bcnt := s.bcnt + 1
    dphase := if s.bcnt + 1 < s.cfg.batchCap then .decode [] else .apply
    aidx := if s.bcnt + 1 < s.cfg.batchCap then s.aidx else 0 }

theorem storeCode_ok {c : Code} {s : State} (hc : Code.Valid s.cfg c) (hb : s.bcnt < s.cfg.batchCap) :
    storeCode c s = .ok (stored c s) := by
  obtain ⟨-, hoff, hlen⟩ := hc
  have hset : setCode c s = .ok { s with creg := c } := if_pos ⟨hoff, hlen⟩
  have hbatch : batchWrite s.bcnt c { s with creg := c } = .ok { s with creg := c, batch := memSet s.batch s.bcnt c } := if_pos hb
  rw [storeCode, hset, andThen_ok, hbatch, andThen_ok, stored]
  split <;> rfl

/-- One pass of the decode phase stores the Code the bits begin with (R161, R162). -/
theorem decodeStep_code {got rest : List Bool} {c : Code} {s : State} (hp : s.cfg.Legal) (h8 : s.fill ≤ 8)
    (hb : s.bcnt < s.cfg.batchCap) (hgot : ∀ c' r, decodeCode s.cfg got ≠ .code c' r)
    (h : decodeCode s.cfg (got ++ unreadBits s) = .code c rest) :
    ∃ t k, decodeStep got s = .ok (stored c t) ∧ unreadBits t = rest ∧ Took k s t ∧ got.length + k = codeWidth s.cfg c ∧
      Code.Valid s.cfg c := by
  obtain ⟨t, k, ht, hrest, htook, hk, hc⟩ := takeCode_ok hp h8 hgot h
  refine ⟨t, k, ?_, hrest, htook, hk, hc⟩
  obtain ⟨_, _, _, _, rfl⟩ := htook.frame
  rw [decodeStep, ht, andThen_ok]
  exact storeCode_ok hc hb

/-- Settles O32: the pass stores the Code (`decodeStep_code`) and takes its bits only. -/
theorem decodeStores : Obligations.DecodeStores := by
  intro s got rest c hp h8 hb hgot h
  obtain ⟨t, k, ht, hrest, htook, hk, -⟩ := decodeStep_code hp h8 hb hgot h
  have hpos := htook.position
  have hfill := htook.fill
  obtain ⟨_, _, _, _, rfl⟩ := htook.frame
  simp only at hpos hfill
  exact ⟨_, ht, rfl, memGet_memSet_same _ _ _, fun i hi => memGet_memSet_other _ _ hi, rfl, hrest, hfill,
    by simp only [stored]; omega, fun hlt => if_pos hlt, fun heq => ⟨if_neg heq.not_lt, if_neg heq.not_lt⟩, rfl, rfl, rfl, rfl, rfl⟩

/-- The pass that finds the end of the stream: EOS starts the apply phase at a clean end, and otherwise TruncatedStream is raised
(R161, R162, R191). -/
theorem decodeStep_end {got : List Bool} {rest : List SrcAnswer} {s : State} (hp : s.cfg.Legal) (h8 : s.fill ≤ 8)
    (hsrc : afterBytes s.src = .eof :: rest) (h : ∀ c r, decodeCode s.cfg (got ++ unreadBits s) ≠ .code c r) :
    ∃ t, ReadOnly s t ∧ t.src = rest ∧ t.fill = 0 ∧ decodeStep got s =
      if decodeCode s.cfg (got ++ unreadBits s) = .endOfStream then .ok { t with eos := true, dphase := .apply, aidx := 0 }
      else .raise .truncatedStream t := by
  obtain ⟨t, ht, hframe, hrest, hfill⟩ := takeCode_end hp h8 hsrc h
  refine ⟨t, hframe, hrest, hfill, ?_⟩
  rw [decodeStep, ht, andThen_ok]
  cases hd : decodeCode s.cfg (got ++ unreadBits s) with
  | code c r => exact absurd hd (h c r)
  | endOfStream => rfl
  | truncated => rfl

/-- Settles O33: the two answers that are no Code, each through `decodeStep_end`. -/
theorem decodeEnds : Obligations.DecodeEnds := by
  intro s got bs rest hp h8 hsrc
  have hafter : afterBytes s.src = .eof :: rest := by rw [hsrc, afterBytes_bytes]; rfl
  refine ⟨fun h => ?_, fun h => ?_⟩
  · obtain ⟨t, hframe, hrest, hfill, ht⟩ := decodeStep_end (got := got) hp h8 hafter (by simp [h])
    obtain ⟨_, _, _, _, rfl⟩ := hframe
    rw [ht, if_pos h]
    exact ⟨_, rfl, rfl, rfl, rfl, rfl, rfl, hrest, hfill, rfl⟩
  · obtain ⟨t, hframe, hrest, -, ht⟩ := decodeStep_end (got := got) hp h8 hafter (by simp [h])
    obtain ⟨_, _, _, _, rfl⟩ := hframe
    rw [ht, if_neg (by simp [h])]
    exact ⟨_, rfl, ⟨rfl, rfl, rfl, rfl, rfl⟩, hrest⟩

end Machine
end Sys2Proof
end


section
/-! PROOFS of 43_decompress.md, the turns of the decompressor: its output only grows, and the window stays the end of it (R167, R169,
R170). -/

namespace Sys2Proof.Machine

/-- What two conditions say of one answer. -/
theorem Res.Meets.and {α : Type} {r : Res α} {ok ok' : α → Prop} {wait wait' : State → Prop} {raise raise' : ErrCode → State → Prop}
    {stop stop' : Prop} (h : r.Meets ok wait raise stop) (h' : r.Meets ok' wait' raise' stop') :
    r.Meets (fun a => ok a ∧ ok' a) (fun s => wait s ∧ wait' s) (fun e s => raise e s ∧ raise' e s) (stop ∧ stop') := by
  cases r <;> exact ⟨h, h'⟩

/-- The decompression goes on, and output and window have grown by the same bytes. -/
def Grows (s t : State) : Prop := KeepsD s t ∧ ∃ bs, outBytes t = outBytes s ++ bs ∧ window t <:+ window s ++ bs

theorem Grows.of_same {s t : State} (hk : KeepsD s t) (hout : outBytes t = outBytes s) (hw : window t = window s) : Grows s t :=
  ⟨hk, [], by rw [hout, List.append_nil], by rw [hw, List.append_nil]⟩

theorem SameOutput.grows {s t : State} (h : SameOutput s t) (hsend : sendFrom t = sendFrom s) (hk : KeepsD s t) : Grows s t :=
  .of_same hk (h.outBytes hsend) h.window

theorem Grows.trans {s t u : State} (h₁ : Grows s t) (h₂ : Grows t u) : Grows s u := by
  obtain ⟨hk, bs, hout, hw⟩ := h₁
  obtain ⟨hk', bs', hout', hw'⟩ := h₂
  refine ⟨hk.trans hk', bs ++ bs', by rw [hout', hout, List.append_assoc], hw'.trans ?_⟩
  rw [← List.append_assoc]
  exact suffix_append_right bs' hw

/-- Storing a Code writes BATCH and its registers only, whatever the Code. -/
theorem storeCode_meets (c : Code) (s : State) :
    (storeCode c s).Meets (fun t => t = stored c s) (fun _ => False) (fun _ _ => True) False := by
  refine Res.Meets.seq ((setCode_meets c s).mono (fun _ h => h.2) (fun _ h => h) (fun _ _ _ => trivial) id) ?_
  rintro _ rfl
  refine Res.Meets.seq ((batchWrite_meets s.bcnt c { s with creg := c }).mono (fun _ h => h.2) (fun _ h => h)
    (fun _ _ _ => trivial) id) ?_
  rintro _ rfl
  unfold stored
  split <;> rfl

theorem sendFrom_stored (c : Code) (s : State) : sendFrom (stored c s) = s.fbase := by
  by_cases h : s.bcnt + 1 < s.cfg.batchCap <;> simp [sendFrom, stored, h]

/-- The decode phase touches neither the output nor the window (R162). -/
theorem decodeStep_output (got : List Bool) (s : State) : (decodeStep got s).Meets
    (fun t => SameOutput s t ∧ sendFrom t = s.fbase) (fun t => SameOutput s t ∧ sendFrom t = s.fbase)
    (fun _ _ => True) True := by
  refine Res.Meets.seq ((takeCode_frame _ got s).mono (fun _ h => h) ?_ (fun _ _ h => h) id) ?_
  · rintro t ⟨u, got', ⟨_, _, _, _, rfl⟩, rfl⟩
    exact ⟨⟨rfl, rfl, rfl, rfl, rfl⟩, rfl⟩
  · rintro ⟨d, t⟩ ⟨_, _, _, _, rfl⟩
    cases d with
    | endOfStream => exact ⟨⟨rfl, rfl, rfl, rfl, rfl⟩, rfl⟩
    | truncated => trivial
    | code c rest =>
      refine (storeCode_meets c _).mono ?_ (fun _ h => h.elim) (fun _ _ h => h) (fun h => h.elim)
      rintro t rfl
      exact ⟨⟨rfl, rfl, rfl, rfl, rfl⟩, sendFrom_stored c _⟩

/-- A Code whose distance leaves the window (R169). -/
theorem codeRes_of_far {c : Code} {s : State} (hc : Code.Valid s.cfg c) (h : s.wp < c.off) :
    codeRes c s = .raise .corruptStream s := by
  obtain ⟨hzero, hW, hlen⟩ := hc
  have hne : c.len ≠ 0 := fun h0 => by have := hzero.mp h0; omega
  rw [codeRes, if_neg hne, applyCopy_of_lt c.lit ⟨by omega, hW, by omega, hlen⟩ h]

/-- A Code of the format makes output and window grow by the same bytes. -/
theorem codeRes_output {c : Code} {s : State} (h : ApplyReady s) (hph : s.dphase = .apply) (hc : Code.Valid s.cfg c) :
    (codeRes c s).Meets (Grows s) (Grows s) (fun _ _ => True) False := by
  rcases Nat.lt_or_ge s.wp c.off with hfar | hoff
  · rw [codeRes_of_far hc hfar]
    trivial
  · have hkeeps := codeRes_keeps c s
    rw [codeRes_of_valid hc hoff] at hkeeps ⊢
    refine (hkeeps.and (runActs_output (codeActs c) ⟨h, rfl, rfl, List.suffix_rfl⟩ (codeActs_reach hc hoff))).mono ?_ ?_
      (fun _ _ _ => trivial) fun h => h.2
    · rintro t ⟨hk, bs, hholds, -, htph, -⟩
      exact ⟨hk, bs, by rw [outBytes_of_apply htph, outBytes_of_apply hph, hholds.out], hholds.window⟩
    · rintro t ⟨hk, bs, hwaits⟩
      exact ⟨hk, bs, by rw [outBytes_of_apply hph, hwaits.out], hwaits.window⟩

/-- So does a ring flush going on and the rest of its Code (R167). -/
theorem flushStep_output {i : Nat} {acts : List Act} {s : State} (hp : s.cfg.Legal) (hph : s.dphase = .ringFlush i acts)
    (hwp : s.wp = s.cfg.ringCap) (hi : i ≤ s.wp) (h : RingHas s s.wp) (hv : ∀ a ∈ acts, ActValid s.cfg a) :
    (flushStep i acts s).Meets (Grows s) (Grows s) (fun _ _ => True) False := by
  have hout := outBytes_of_ringFlush hph
  refine ((flushStep_keeps i acts s).and (Res.Meets.seq (wait := fun t => ∃ bs, WaitsWith (outBytes s ++ bs) (window s ++ bs) t)
    (okb := fun t => ∃ bs, outBytes t = outBytes s ++ bs ∧ window t <:+ window s ++ bs) (raise := fun e _ => e = .ioFailure)
    (stop := False) ((ringFlushFrom_output acts hp hwp hi h).mono (fun _ h => h) ?_ (fun _ _ h => h) id) ?_)).mono ?_ ?_
    (fun _ _ _ => trivial) fun h => h.2
  · rintro t ⟨htout, htw⟩
    exact ⟨[], by rw [htout, hout, List.append_nil], by rwa [List.append_nil]⟩
  · rintro t ⟨ht, htwp⟩
    have hr := copiesReach_of_seed ht.cfg htwp hv
    rw [← hout] at ht
    refine (runActs_output acts ht hr).mono ?_ (fun _ h => h) (fun _ _ h => h) id
    rintro u ⟨bs, hu, -, huph, -⟩
    exact ⟨bs, by rw [outBytes_of_apply huph, hu.out], hu.window⟩
  · exact fun t h => h
  · rintro t ⟨hk, bs, htout, htw⟩
    exact ⟨hk, bs, htout, htw⟩

/-- The final flush sends the output, and completes when SNK is all of it (R168). -/
theorem finalStep_output {i : Nat} {s : State} (hph : s.dphase = .final i) (hi : i ≤ s.wp) (hcap : s.wp ≤ s.cfg.ringCap)
    (h : RingHas s s.wp) : (finalStep i s).Meets (fun t => ∃ u, t = complete u ∧ u.snk = outBytes s) (Grows s)
      (fun _ _ => True) False := by
  refine ((finalStep_keeps i s).and (Res.Meets.seq (okb := fun t => ∃ u, t = complete u ∧ u.snk = outBytes s)
    (wait := fun t => outBytes t = outBytes s ∧ window t = window s) (raise := fun _ _ => True) (stop := False)
    ((sendRing_meets DPhase.final (s.wp - i) i h hcap (by omega)).mono (fun _ h => h) ?_ (fun _ _ _ => trivial) id) ?_)).mono
    (fun _ h => h.2) (fun t ht => .of_same ht.1 ht.2.1 ht.2.2) (fun _ _ _ => trivial) fun h => h.2
  · rintro t ⟨m, hm, rfl⟩
    rw [outBytes_of_final hph]
    exact ⟨(outBytes_of_final rfl).trans (outFrom_sent h (by omega) rfl rfl rfl), ringSlice_congr fun _ _ => rfl⟩
  · rintro t ⟨ans, rfl⟩
    exact ⟨_, rfl, (outBytes_of_final hph).symm⟩

/-- Outside a flush the next byte to be sent is RING[FBASE] (R28). -/
theorem sendFrom_of_apply {s : State} (h : s.dphase = .apply) : sendFrom s = s.fbase := by
  simp only [sendFrom, h]

theorem sendFrom_of_decode {s : State} {got : List Bool} (h : s.dphase = .decode got) : sendFrom s = s.fbase := by
  simp only [sendFrom, h]

/-- The end of a batch touches neither the output nor the window (R160). -/
theorem batchEnd_output (s : State) : SameOutput s (batchEnd s) ∧ sendFrom (batchEnd s) = s.fbase := by
  unfold batchEnd
  split <;> exact ⟨⟨rfl, rfl, rfl, rfl, rfl⟩, rfl⟩

/-- The head of the loop of APPLY_BATCH in the invariant. -/
theorem DecompInv.applyReady {s : State} (hp : s.cfg.Legal) (h : DecompInv s) (hph : s.dphase = .apply) : ApplyReady s := by
  obtain ⟨-, -, hbase, -, hwr, -, -, hd⟩ := h
  simp only [DPhaseInv, hph] at hd
  exact ⟨hp, hd.1, hbase, hwr⟩

/-- One step of DECOMPRESS from the invariant: output and window grow by the same bytes, or SNK has become the whole output and the
operation completes. -/
theorem decompressRes_output {s : State} (hp : s.cfg.Legal) (h : DecompInv s) : (decompressRes s).Meets
    (fun t => Grows s t ∨ ∃ u, t = complete u ∧ u.snk = outBytes s) (Grows s) (fun _ _ => True) True := by
  obtain ⟨-, hcap, hbase, -, hwr, hbcnt, hbatch, hd⟩ := id h
  cases hph : s.dphase with
  | decode got =>
    have hgrows (t) (ht : KeepsD s t ∧ SameOutput s t ∧ sendFrom t = s.fbase) : Grows s t := by
      obtain ⟨hk, hsame, hsend⟩ := ht
      exact hsame.grows (hsend.trans (sendFrom_of_decode hph).symm) hk
    rw [decompressRes_decode hph]
    exact ((decodeStep_keeps got s).and (decodeStep_output got s)).mono (fun t ht => .inl (hgrows t ht)) hgrows
      (fun _ _ _ => trivial) fun _ => trivial
  | apply =>
    by_cases hlt : s.aidx < s.bcnt
    · obtain ⟨c, hget, hc⟩ := hbatch s.aidx hlt
      obtain ⟨-, hroom, -⟩ := h.applyReady hp hph
      have hmoved : Grows s { s with aidx := s.aidx + 1 } := SameOutput.grows ⟨rfl, rfl, rfl, rfl, rfl⟩ rfl (.refl s)
      rw [decompressRes_apply_code hph hlt, batchRead_ok (by omega) hget, andThen_ok]
      exact (codeRes_output (s := { s with aidx := s.aidx + 1 }) ⟨hp, hroom, hbase, hwr⟩ hph hc).mono
        (fun _ h => .inl (hmoved.trans h)) (fun _ h => hmoved.trans h) (fun _ _ h => h) fun h => h.elim
    · obtain ⟨hsame, hsend⟩ := batchEnd_output s
      rw [decompressRes_apply_end hph hlt]
      exact .inl (hsame.grows (hsend.trans (sendFrom_of_apply hph).symm) (batchEnd_keeps s))
  | ringFlush i acts =>
    simp only [DPhaseInv, hph] at hd
    obtain ⟨hfull, -, hi, -, hv⟩ := hd
    rw [decompressRes_ringFlush hph]
    exact (flushStep_output hp hph hfull (by omega) hwr hv).mono (fun _ h => .inl h) (fun _ h => h) (fun _ _ h => h) fun h => h.elim
  | final i =>
    simp only [DPhaseInv, hph] at hd
    obtain ⟨-, -, hi, -⟩ := hd
    rw [decompressRes_final hph]
    exact (finalStep_output hph hi hcap hwr).mono (fun _ h => .inr h) (fun _ h => h) (fun _ _ h => h) fun h => h.elim

/-- Settles O35: a turn that raised an error goes on nowhere and completes nothing; otherwise `decompressRes_output`. -/
theorem outputGrows : Obligations.OutputGrows := by
  rintro s t ⟨hp, ⟨-, hdone, -⟩, -, -, hd⟩ hm ht
  rw [blockTurn_eq hp, turnRes, hm] at ht
  have hgrows (u) (hu : Grows s u) : (u.mode = .decomp → outBytes s <+: outBytes u) ∧ (u.done = true → u.snk = outBytes s) := by
    obtain ⟨⟨⟨⟨-, -, -, hsame, -⟩, -⟩, -⟩, bs, hout, -⟩ := hu
    refine ⟨fun _ => hout ▸ List.prefix_append _ _, fun h => ?_⟩
    have hidle := hdone (hsame ▸ h)
    simp [hm] at hidle
  refine Res.Meets.toOutcome
    (P := fun t => (t.mode = .decomp → outBytes s <+: outBytes t) ∧ (t.done = true → t.snk = outBytes s))
    ((decompressRes_output hp (hd hm)).mono ?_ hgrows ?_ id) ht
  · rintro u (hu | ⟨v, rfl, hsnk⟩)
    · exact hgrows u hu
    · exact ⟨fun h => by simp at h, fun _ => hsnk⟩
  · exact fun e u _ => ⟨fun h => by simp at h, fun h => by simp at h⟩

theorem OutputInv.of_same {s t : State} (h : OutputInv s) (hsame : SameOutput s t) (hsend : sendFrom t = sendFrom s)
    (hmode : t.mode = s.mode) : OutputInv t := by
  intro hm
  rw [hsame.window, hsame.outBytes hsend]
  exact h (hmode ▸ hm)

theorem Grows.outputInv {s t : State} (h : Grows s t) (hs : window s <:+ outBytes s) : OutputInv t := by
  obtain ⟨-, bs, hout, hw⟩ := h
  exact fun _ => hout ▸ hw.trans (suffix_append_right bs hs)

/-- The block's turn keeps the window at the end of the output: they grow by the same bytes, or the operation has ended, or it is
not a decompression. -/
theorem blockTurn_outputInv {s t : State} (hs : Inv s) (hout : OutputInv s) (h : blockTurn s = .next t) : OutputInv t := by
  obtain ⟨hp, hf, -, -, hd⟩ := hs
  cases hm : s.mode with
  | idle =>
    rw [blockTurn_of_idle hm] at h
    cases h
    exact hout
  | comp =>
    rw [blockTurn_eq hp, turnRes, hm] at h
    have hmode := ((compressStep_keeps s).endsFrom h).flags (fun _ hu => hu.1) hf (by simp [hm])
    exact fun h' => by simp [h', hm] at hmode
  | decomp =>
    rw [blockTurn_eq hp, turnRes, hm] at h
    refine Res.Meets.toOutcome (P := OutputInv) ((decompressRes_output hp (hd hm)).mono ?_ (fun u hu => hu.outputInv (hout hm))
      (fun e u _ hm' => by simp at hm') id) h
    rintro u (hu | ⟨v, rfl, -⟩)
    · exact hu.outputInv (hout hm)
    · exact fun hm' => by simp at hm'

/-- No move of the host touches the output of a running decompression, and a START begins with an empty window (R36). -/
theorem HostMove.outputInv {s t : State} (h : HostMove s t) (hs : OutputInv s) : OutputInv t := by
  cases h with
  | reset | startCompress => exact fun hm => by simp at hm
  | startDecompress => exact fun _ => List.nil_suffix
  | ignored => exact hs
  | read | giveSrc | giveSnk | connect => exact hs.of_same ⟨rfl, rfl, rfl, rfl, rfl⟩ rfl rfl

/-- Settles O59: the block's turn by `blockTurn_outputInv`, the host's move by move. -/
theorem windowIsOutput : Obligations.WindowIsOutput := by
  intro s t hs hout h
  have hturn (rest : List Turn) : OutputInv { s with script := rest } := hout.of_same ⟨rfl, rfl, rfl, rfl, rfl⟩ rfl rfl
  rcases step_next h with hblock | ⟨rest, hmove⟩
  · exact blockTurn_outputInv (s := { s with script := s.script.tail }) hs (hturn _) hblock
  · exact hmove.outputInv (hturn rest)

end Sys2Proof.Machine
end


section
/-! PROOFS of 43_decompress.md, a run of the decompressor over the bits of a list of Codes: each batch is filled, each Code applied,
and the final flush sends what the Codes restore (R160 to R168). -/

namespace Sys2Proof.Machine

/-! ### Runs -/

/-- Some steps lead from the first state to the second. -/
def Reaches : State → State → Prop := Relation.ReflTransGen fun s t => step s = .next t

theorem run_succ {M : Host.Core} {s t : M.State} (h : M.step s = .next t) (k : Nat) : M.run (k + 1) s = M.run k t := by
  simp [Host.Core.run, h]

theorem Reaches.run {s t : State} (h : Reaches s t) : ∃ k, Host.Core.run Sys2Proof.core k s = .next t := by
  induction h using Relation.ReflTransGen.head_induction_on with
  | refl => exact ⟨0, rfl⟩
  | head hstep _ ih =>
    obtain ⟨k, hk⟩ := ih
    exact ⟨k + 1, (run_succ (M := Sys2Proof.core) hstep k).trans hk⟩

/-- With no turn listed the next step is the active pipeline's. -/
theorem step_of_turnRes {s t : State} (hscript : s.script = []) (hp : s.cfg.Legal) (h : turnRes s = .ok t) :
    step s = .next t := by
  rw [step, takeTurn, hscript]
  exact (blockTurn_eq hp).trans (by rw [h, toOutcome_ok])

/-! ### Lists of Codes -/

/-- The bits of the Codes in their order. -/
def encodeCodes (p : Params) (cs : List Code) : List Bool := cs.flatMap (encodeCode p)

@[simp] theorem encodeCodes_cons (p : Params) (c : Code) (cs : List Code) :
    encodeCodes p (c :: cs) = encodeCode p c ++ encodeCodes p cs := rfl

@[simp] theorem encodeCodes_snoc (p : Params) (cs : List Code) (c : Code) :
    encodeCodes p (cs ++ [c]) = encodeCodes p cs ++ encodeCode p c := by
  simp [encodeCodes]

/-- Codes of the format, each copying from the output before it, make of the output the bytes `all` (R9, R170). -/
inductive Restores (p : Params) (all : List Byte) : List Byte → List Code → Prop
  | nil : Restores p all all []
  | cons {out : List Byte} {c : Code} {cs : List Code} : Code.Valid p c → c.off ≤ out.length →
      Restores p all (applyToOutput c out) cs → Restores p all out (c :: cs)

/-- One more Code at the end. -/
theorem Restores.snoc {p : Params} {mid out : List Byte} {cs : List Code} (h : Restores p mid out cs) {c : Code}
    (hc : Code.Valid p c) (hoff : c.off ≤ mid.length) : Restores p (applyToOutput c mid) out (cs ++ [c]) := by
  induction h with
  | nil => exact .cons hc hoff .nil
  | cons hc' hoff' _ ih => exact .cons hc' hoff' ih

theorem Restores.valid {p : Params} {all out : List Byte} {cs : List Code} (h : Restores p all out cs) {c : Code} (hc : c ∈ cs) :
    Code.Valid p c := by
  induction h with
  | nil => simp at hc
  | cons hv _ _ ih =>
    rcases List.mem_cons.mp hc with rfl | hc
    · exact hv
    · exact ih hc

theorem copyByte_length {out : List Byte} {off : Nat} (hpos : 1 ≤ off) (h : off ≤ out.length) : (copyByte out off).length = 1 := by
  rw [copyByte, List.getElem?_eq_getElem (by omega)]
  rfl

theorem copyOut_length {out : List Byte} {off n : Nat} (hpos : 1 ≤ off ∨ n = 0) (h : off ≤ out.length) :
    (copyOut off n out).length = out.length + n := by
  induction n generalizing out with
  | zero => rfl
  | succ n ih =>
    have hone := copyByte_length (by omega) h
    rw [copyOut, ih (by omega) (by rw [List.length_append]; omega), List.length_append, hone]
    omega

/-- A Code of the format within the output makes it `len + 1` bytes longer. -/
theorem applyToOutput_length {p : Params} {c : Code} {out : List Byte} (hc : Code.Valid p c) (h : c.off ≤ out.length) :
    (applyToOutput c out).length = out.length + c.len + 1 := by
  obtain ⟨hzero, -⟩ := hc
  rw [applyToOutput, List.length_append, copyOut_length (by omega) h, List.length_singleton]

/-- Bytes before the output a Code copies from play no part (R170). -/
theorem applyToOutput_append {p : Params} {c : Code} {out : List Byte} (base : List Byte) (hc : Code.Valid p c)
    (h : c.off ≤ out.length) : applyToOutput c (base ++ out) = base ++ applyToOutput c out := by
  obtain ⟨off, n, b⟩ := c
  have hcopy : copyOut off n (base ++ out) = base ++ copyOut off n out := by
    clear hc
    induction n generalizing out with
    | zero => rfl
    | succ n ih =>
      rw [copyOut, copyOut, copyByte_of_suffix (List.suffix_append base out) h, List.append_assoc]
      exact ih (h.trans (by simp))
  rw [applyToOutput, applyToOutput, hcopy, List.append_assoc]

theorem Restores.length_le {p : Params} {all out : List Byte} {cs : List Code} (h : Restores p all out cs) :
    out.length ≤ all.length := by
  induction h with
  | nil => exact le_rfl
  | cons hc hoff _ ih =>
    rw [applyToOutput_length hc hoff] at ih
    omega

/-! ### The decompressor between two Codes -/

/-- The sink accepts all that comes: for `n` bytes more than SNK then holds, counted with those it holds. -/
def SinkTakes (n : Nat) (s : State) : Prop := ∃ m, s.snkAns = List.replicate m .ok ∧ n ≤ m + s.snk.length

theorem SinkTakes.accepts {n k : Nat} {s : State} (h : SinkTakes n s) (hk : k + s.snk.length ≤ n) : SinkAccepts k s := by
  obtain ⟨m, hm, hn⟩ := h
  rw [SinkAccepts, hm, List.take_replicate, Nat.min_eq_left (by omega)]

/-- What the sink takes it no longer has to. -/
theorem SinkTakes.of_ringOnly {n : Nat} {s t : State} (h : SinkTakes n s) (hst : RingOnly s t) : SinkTakes n t := by
  obtain ⟨m, hm, hn⟩ := h
  obtain ⟨_, _, _, _, sent, ans, hans, rfl⟩ := hst
  have hlen := congrArg List.length (hans.symm.trans hm)
  refine ⟨m - sent.length, ?_, ?_⟩
  · exact hans.drop.trans (by rw [hm, List.drop_replicate])
  · simp only [tookBytes, List.length_append, List.length_replicate] at hlen ⊢
    omega

/-- A decompression is running whose output, behind the bytes `base` sent before it, is `out`, and will be `all`. -/
structure Unpacking (p : Params) (base all out : List Byte) (s : State) : Prop where
  mode : s.mode = .decomp
  script : s.script = []
  err : s.err = .none
  fill : s.fill ≤ 8
  ring : Holds p (base ++ out) (base ++ out) s
  reach : out.length ≤ s.wp ∨ p.windowSize ≤ s.wp
  sink : SinkTakes (base.length + all.length) s

/-- The source holds the bits of the Codes `cs`, then padding, then the end mark. -/
structure Holding (p : Params) (cs : List Code) (pad : List Bool) (s : State) : Prop where
  bits : unreadBits s = encodeCodes p cs ++ pad
  after : afterBytes s.src = [.eof]

/-- The entries of BATCH from `i` on up to BCNT are the Codes `b`. -/
structure BatchFrom (i : Nat) (b : List Code) (s : State) : Prop where
  count : i + b.length = s.bcnt
  cap : s.bcnt ≤ s.cfg.batchCap
  get : ∀ k, k < b.length → memGet s.batch (i + k) = b[k]?

/-- Between two Codes in the decode phase: the Codes `b` are in BATCH, the Codes `cs` in the source. -/
structure Decoding (p : Params) (base all out : List Byte) (b cs : List Code) (pad : List Bool) (s : State) : Prop where
  run : Unpacking p base all out s
  phase : s.dphase = .decode []
  eos : s.eos = false
  batch : BatchFrom 0 b s
  room : s.bcnt < s.cfg.batchCap
  input : Holding p cs pad s
  codes : Restores p all out (b ++ cs)

/-- Between two Codes in the apply phase: the Codes `b` of BATCH are left, and the Codes `cs` in the source unless it has ended. -/
structure Applying (p : Params) (base all out : List Byte) (b cs : List Code) (pad : List Bool) (s : State) : Prop where
  run : Unpacking p base all out s
  phase : s.dphase = .apply
  batch : BatchFrom s.aidx b s
  input : (s.eos = true ∧ cs = []) ∨ (s.eos = false ∧ Holding p cs pad s)
  codes : Restores p all out (b ++ cs)

theorem Unpacking.step {p : Params} {base all out : List Byte} {s t : State} (h : Unpacking p base all out s)
    (ht : decompressRes s = .ok t) : step s = .next t := by
  have hp := h.ring.ready.legal
  exact step_of_turnRes h.script hp (by rw [turnRes, h.mode]; exact ht)

/-- The decode phase leaves the output and the sink alone. -/
theorem Unpacking.of_same {p : Params} {base all out : List Byte} {s t : State} (h : Unpacking p base all out s)
    (hsame : SameOutput s t) (hmode : t.mode = s.mode) (hscript : t.script = s.script) (herr : t.err = s.err)
    (hans : t.snkAns = s.snkAns) (hfill : t.fill ≤ 8) : Unpacking p base all out t := by
  obtain ⟨hm, hsc, he, -, hring, hreach, hsink⟩ := h
  obtain ⟨-, -, hwp, -, hsnk⟩ := id hsame
  exact ⟨hmode.trans hm, hscript.trans hsc, herr.trans he, hfill, hring.congr hsame, by rwa [hwp],
    by rwa [SinkTakes, hans, hsnk]⟩

theorem Unpacking.of_readOnly {p : Params} {base all out : List Byte} {s t : State} (h : Unpacking p base all out s)
    (hst : ReadOnly s t) (hfill : t.fill ≤ 8) : Unpacking p base all out t := by
  obtain ⟨_, _, _, _, rfl⟩ := hst
  exact h.of_same ⟨rfl, rfl, rfl, rfl, rfl⟩ rfl rfl rfl rfl hfill

/-- What is sent and what is not yet sent are the output. -/
theorem Holds.length {p : Params} {out w : List Byte} {s : State} (h : Holds p out w s) :
    s.snk.length + (s.wp - s.fbase) = out.length := by
  obtain ⟨⟨-, -, hbase, hwr⟩, -, rfl, -⟩ := h
  rw [outFrom, List.length_append, ringSlice_length hwr _ _ (by omega)]

/-! ### The decode phase -/

theorem BatchFrom.stored {b : List Code} {s : State} (h : BatchFrom 0 b s) (hroom : s.bcnt < s.cfg.batchCap) (c : Code) :
    BatchFrom 0 (b ++ [c]) (stored c s) := by
  obtain ⟨hcount, -, hget⟩ := h
  refine ⟨by simp [Machine.stored, ← hcount], hroom, fun k hk => ?_⟩
  have hk' : k < b.length + 1 := by simpa using hk
  simp only [Machine.stored, memGet_memSet]
  rcases Nat.lt_succ_iff_lt_or_eq.mp hk' with hlt | rfl
  · rw [if_neg (by omega), hget k hlt, List.getElem?_append_left hlt]
  · rw [if_pos hcount, List.getElem?_append_right le_rfl, Nat.sub_self]
    rfl

section
variable {p : Params} {base all out : List Byte} {b cs : List Code} {c : Code} {pad : List Bool} {s : State}

/-- One pass of the decode phase stores the next Code; a full batch ends the phase (R162). -/
theorem Decoding.step_code (h : Decoding p base all out b (c :: cs) pad s) :
    ∃ t, step s = .next t ∧
      (Decoding p base all out (b ++ [c]) cs pad t ∨ Applying p base all out (b ++ [c]) cs pad t ∧ t.eos = false) := by
  obtain ⟨hrun, hph, heos, hbatch, hroom, ⟨hbits, hafter⟩, hcodes⟩ := h
  have hp := hrun.ring.ready.legal
  obtain rfl := hrun.ring.cfg
  have hc := hcodes.valid (c := c) (by simp)
  rw [encodeCodes_cons, List.append_assoc] at hbits
  have hcode : decodeCode s.cfg ([] ++ unreadBits s) = .code c (encodeCodes s.cfg cs ++ pad) := by
    rw [List.nil_append, hbits, decodeCode_encodeCode hp hc]
  obtain ⟨t, k, ht, hrest, htook, -, -⟩ := decodeStep_code hp hrun.fill hroom (decodeCode_nil hp) hcode
  have hrun' := hrun.of_readOnly htook.frame htook.fill
  have hinput : Holding s.cfg cs pad (stored c t) := ⟨hrest, htook.after.trans hafter⟩
  obtain ⟨hbatch', hroom', heos'⟩ : BatchFrom 0 b t ∧ t.bcnt < t.cfg.batchCap ∧ t.eos = false := by
    obtain ⟨_, _, _, _, rfl⟩ := htook.frame
    exact ⟨⟨hbatch.count, hbatch.cap, hbatch.get⟩, hroom, heos⟩
  have hstored := hbatch'.stored hroom' c
  have hcodes' : Restores s.cfg all out (b ++ [c] ++ cs) := by simpa using hcodes
  have hrun'' : Unpacking s.cfg base all out (stored c t) :=
    hrun'.of_same ⟨rfl, rfl, rfl, rfl, rfl⟩ rfl rfl rfl rfl htook.fill
  refine ⟨_, hrun.step ((decompressRes_decode hph).trans ht), ?_⟩
  by_cases hlt : t.bcnt + 1 < t.cfg.batchCap
  · exact .inl ⟨hrun'', if_pos hlt, heos', hstored, hlt, hinput, hcodes'⟩
  · have hidx : (stored c t).aidx = 0 := if_neg hlt
    exact .inr ⟨⟨hrun'', if_neg hlt, hidx ▸ hstored, .inr ⟨heos', hinput⟩, hcodes'⟩, heos'⟩

/-- The pass that finds nothing but padding ends the phase with EOS = 1 (R161, R162). -/
theorem Decoding.step_end (h : Decoding p base all out b [] pad s) (hpad : pad.length ≤ 7 ∧ ∀ x ∈ pad, x = false) :
    ∃ t, step s = .next t ∧ Applying p base all out b [] pad t ∧ t.eos = true := by
  obtain ⟨hrun, hph, heos, hbatch, hroom, ⟨hbits, hafter⟩, hcodes⟩ := h
  have hp := hrun.ring.ready.legal
  obtain rfl := hrun.ring.cfg
  have hend : decodeCode s.cfg ([] ++ unreadBits s) = .endOfStream := by
    rw [decodeCode_end_iff hp, List.nil_append, hbits]
    exact hpad
  obtain ⟨t, hframe, -, hfill, ht⟩ := decodeStep_end (got := []) hp hrun.fill hafter fun c r hcode => nomatch hend.symm.trans hcode
  rw [if_pos hend] at ht
  have hrun' := hrun.of_readOnly hframe (hfill ▸ Nat.zero_le 8)
  refine ⟨_, hrun.step ((decompressRes_decode hph).trans ht), ⟨?_, rfl, ?_, .inl ⟨rfl, rfl⟩, hcodes⟩, rfl⟩
  · exact hrun'.of_same ⟨rfl, rfl, rfl, rfl, rfl⟩ rfl rfl rfl rfl hrun'.fill
  · obtain ⟨_, _, _, _, rfl⟩ := hframe
    exact ⟨hbatch.count, hbatch.cap, hbatch.get⟩

/-! ### The apply phase -/

/-- A finished Code has changed RING, its cursors, the control point and the sink only. -/
theorem codeRes_ringOnly {t : State} (h : codeRes c s = .ok t) : RingOnly s t := by
  rcases codeRes_cases c s with hacts | ⟨-, hraise⟩ | hrefuse
  · have hframe := runActs_frame (codeActs c) s
    rw [← hacts, h, meets_ok] at hframe
    exact hframe.1
  · simp [h] at hraise
  · simp [h] at hrefuse

/-- A Code that copies from the output so far is applied: its distance is within the window, and the sink takes what it sends. -/
theorem Unpacking.apply_code (h : Unpacking p base all out s) (hc : Code.Valid p c) (hoff : c.off ≤ out.length)
    (hall : (applyToOutput c out).length ≤ all.length) :
    ∃ t, codeRes c s = .ok t ∧ RingOnly s t ∧ t.dphase = .apply ∧ Unpacking p base all (applyToOutput c out) t := by
  obtain ⟨hm, hscript, herr, hfill, hring, hreach, hsink⟩ := h
  rw [applyToOutput_length hc hoff] at hall
  have hsent := hring.length
  rw [List.length_append] at hsent
  have hnear : c.off ≤ s.wp := by obtain ⟨-, hW, -⟩ := hc; omega
  obtain ⟨t, bs, ht, hout, hholds, hph, hwp⟩ := codeRes_ok hring List.suffix_rfl hc hnear (hsink.accepts (by omega))
  have hgrown : applyToOutput c out = out ++ bs := by
    rw [applyToOutput_append base hc hoff, List.append_assoc] at hout
    exact List.append_cancel_left hout
  have hreach' : (out ++ bs).length ≤ t.wp ∨ p.windowSize ≤ t.wp := by rw [List.length_append]; omega
  have hframe := codeRes_ringOnly ht
  have hsink' := hsink.of_ringOnly hframe
  rw [hgrown]
  rw [List.append_assoc] at hholds
  refine ⟨t, ht, hframe, hph, ?_⟩
  obtain ⟨_, _, _, _, _, _, -, rfl⟩ := hframe
  exact ⟨hm, hscript, herr, hfill, hholds, hreach', hsink'⟩

/-- One pass of the apply phase applies the next Code of the batch (R163). -/
theorem Applying.step_code (h : Applying p base all out (c :: b) cs pad s) :
    ∃ t, step s = .next t ∧ Applying p base all (applyToOutput c out) b cs pad t ∧ t.eos = s.eos := by
  obtain ⟨hrun, hph, ⟨hcount, hcap, hget⟩, hinput, hcodes⟩ := h
  rw [List.length_cons] at hcount
  cases hcodes with
  | cons hc hoff hcodes =>
  have hread : batchRead s.aidx s = .ok c := batchRead_ok (by omega) (hget 0 (Nat.zero_lt_succ _))
  have hrun' : Unpacking p base all out { s with aidx := s.aidx + 1 } :=
    hrun.of_same ⟨rfl, rfl, rfl, rfl, rfl⟩ rfl rfl rfl rfl hrun.fill
  obtain ⟨t, ht, hframe, htph, hrunt⟩ := hrun'.apply_code hc hoff hcodes.length_le
  have hstep : step s = .next t :=
    hrun.step ((decompressRes_apply_code hph (by omega)).trans (by rw [hread, andThen_ok, ht]))
  refine ⟨t, hstep, ⟨hrunt, htph, ?_, ?_, hcodes⟩, ?_⟩ <;> obtain ⟨_, _, _, _, _, _, -, rfl⟩ := hframe
  · refine ⟨by simp only [tookBytes]; omega, hcap, fun k hk => ?_⟩
    have := hget (k + 1) (Nat.succ_lt_succ hk)
    rwa [← Nat.add_assoc, Nat.add_right_comm, List.getElem?_cons_succ] at this
  · exact hinput.imp_right fun ⟨heos, hbits, hafter⟩ => ⟨heos, hbits, hafter⟩
  · rfl

/-- The apply phase applies all Codes of the batch (R163). -/
theorem Applying.batch_done (h : Applying p base all out b cs pad s) :
    ∃ t out', Reaches s t ∧ Applying p base all out' [] cs pad t ∧ t.eos = s.eos := by
  induction b generalizing out s with
  | nil => exact ⟨s, out, .refl, h, rfl⟩
  | cons c b ih =>
    obtain ⟨t, hstep, ht, heos⟩ := h.step_code
    obtain ⟨u, out', hreach, hu, heos'⟩ := ih ht
    exact ⟨u, out', .head hstep hreach, hu, heos'.trans heos⟩

/-- A state in which the operation has completed without error, and `sent` is what SNK got behind `base` (R206). -/
def Completed (base sent : List Byte) (s : State) : Prop :=
  s.mode = .idle ∧ s.done = true ∧ s.err = .none ∧ s.snk = base ++ sent

/-- After the last batch the final flush sends the rest of the output and completes (R160, R168). -/
theorem Applying.complete (h : Applying p base all out [] cs pad s) (heos : s.eos = true) :
    ∃ t, Reaches s t ∧ Completed base all t := by
  obtain ⟨hrun, hph, ⟨hcount, -, -⟩, hinput, hcodes⟩ := h
  obtain rfl : cs = [] := by simpa [heos] using hinput
  obtain rfl : out = all := by cases hcodes; rfl
  obtain ⟨hm, hscript, herr, hfill, hring, -, hsink⟩ := id hrun
  have hsent := hring.length
  rw [List.length_append] at hsent
  have hend : decompressRes s = .ok { s with dphase := .final s.fbase } := by
    rw [decompressRes_apply_end hph (by simpa using hcount.ge), batchEnd, if_pos heos]
  have hrun' : Unpacking p base out out { s with dphase := .final s.fbase } :=
    hrun.of_same ⟨rfl, rfl, rfl, rfl, rfl⟩ rfl rfl rfl rfl hfill
  have haccepts : SinkAccepts (s.wp - s.fbase) s := hsink.accepts (by omega)
  obtain ⟨hp, hroom, hbase, hwr⟩ := hring.ready
  obtain ⟨ans, hfinal⟩ := finalStep_ok (s := { s with dphase := .final s.fbase }) hbase hroom.le hwr haccepts
  have hlast := hrun'.step ((decompressRes_final rfl).trans hfinal)
  exact ⟨_, .head (hrun.step hend) (.single hlast), rfl, rfl, herr, hrun'.ring.out⟩

/-- A batch that ended before the stream is followed by the next one (R160). -/
theorem Applying.next_batch (h : Applying p base all out [] cs pad s) (heos : s.eos = false) :
    ∃ t, step s = .next t ∧ Decoding p base all out [] cs pad t := by
  obtain ⟨hrun, hph, ⟨hcount, hcap, -⟩, hinput, hcodes⟩ := h
  obtain ⟨-, hinput⟩ : s.eos = false ∧ Holding p cs pad s := by simpa [heos] using hinput
  obtain ⟨-, -, -, -, -, -, hbatch⟩ := hrun.ring.ready.legal
  have hend : decompressRes s = .ok { s with bcnt := 0, dphase := .decode [] } := by
    rw [decompressRes_apply_end hph (by simpa using hcount.ge), batchEnd, if_neg (by simp [heos])]
  exact ⟨_, hrun.step hend, hrun.of_same ⟨rfl, rfl, rfl, rfl, rfl⟩ rfl rfl rfl rfl hrun.fill, rfl, heos,
    ⟨rfl, Nat.zero_le _, fun k hk => absurd hk (Nat.not_lt_zero k)⟩, hbatch, ⟨hinput.bits, hinput.after⟩, hcodes⟩

/-- From between two Codes of the decode phase the decompression runs to its end and sends what the Codes restore. -/
theorem Decoding.complete (h : Decoding p base all out b cs pad s) (hpad : pad.length ≤ 7 ∧ ∀ x ∈ pad, x = false) :
    ∃ t, Reaches s t ∧ Completed base all t := by
  induction cs generalizing out b s with
  | nil =>
    obtain ⟨t, hstep, ht, heos⟩ := h.step_end hpad
    obtain ⟨u, out', hreach, hu, heos'⟩ := ht.batch_done
    obtain ⟨v, hreach', hv⟩ := hu.complete (heos'.trans heos)
    exact ⟨v, .head hstep (hreach.trans hreach'), hv⟩
  | cons c cs ih =>
    obtain ⟨t, hstep, ht | ⟨ht, heos⟩⟩ := h.step_code
    · obtain ⟨u, hreach, hu⟩ := ih ht
      exact ⟨u, .head hstep hreach, hu⟩
    · obtain ⟨u, out', hreach, hu, heos'⟩ := ht.batch_done
      obtain ⟨v, hstep', hv⟩ := hu.next_batch (heos'.trans heos)
      obtain ⟨w, hreach', hw⟩ := ih hv
      exact ⟨w, .head hstep (hreach.trans (.head hstep' hreach')), hw⟩

end

end Sys2Proof.Machine
end


section
/-! PROOFS of 43_decompress.md, a run of the compressor: chunk after chunk it puts the bits of Codes that restore what it has read
(42_compress.md R140 to R148), and the round trip (R178). -/

namespace Sys2Proof.Machine

/-! ### Bytes of the chunk -/

theorem chunkSlice_congr {s t : State} (h : t.chunk = s.chunk) (i n : Nat) : chunkSlice t i n = chunkSlice s i n := by
  induction n generalizing i with
  | zero => rfl
  | succ n ih => rw [chunkSlice, chunkSlice, h, ih]

/-- A stretch of the chunk cut in two. -/
theorem chunkSlice_add {s : State} (hwritten : ∀ i, i < s.clen → (memGet s.chunk i).isSome) (i m n : Nat)
    (hn : i + (m + n) ≤ s.clen) : chunkSlice s i (m + n) = chunkSlice s i m ++ chunkSlice s (i + m) n := by
  refine List.map_injective_iff.mpr (Option.some_injective _) ?_
  rw [List.map_append, chunkSlice_map_some hwritten i _ hn, chunkSlice_map_some hwritten i m (by omega),
    chunkSlice_map_some hwritten (i + m) n (by omega), ← List.map_append, List.range'_append_1]

/-- The chunk's bytes from `i` on are those its entries were written with. -/
theorem chunkSlice_of_get {s : State} {bs : List Byte} {i : Nat} (h : ∀ k, k < bs.length → memGet s.chunk (i + k) = bs[k]?) :
    chunkSlice s i bs.length = bs := by
  induction bs generalizing i with
  | nil => rfl
  | cons b bs ih =>
    have hb : memGet s.chunk i = some b := h 0 (Nat.zero_lt_succ _)
    rw [List.length_cons, chunkSlice, hb]
    refine congrArg (b :: ·) (ih fun k hk => ?_)
    rw [← List.getElem?_cons_succ (a := b), ← h (k + 1) (Nat.succ_lt_succ hk), Nat.add_assoc, Nat.add_comm 1]

/-! ### The sink of a compression -/

/-- The sink accepts the bytes that fall due for `n` more bits and the flush behind them. -/
def SinkTakesBits (n : Nat) (s : State) : Prop := ∃ m, s.snkAns = List.replicate m .ok ∧ s.fill + n ≤ 8 * m

theorem SinkTakesBits.accepts {n : Nat} {s : State} (h : SinkTakesBits n s) {k : Nat} (hk : 8 * k ≤ s.fill + n + 7) :
    SinkAccepts k s := by
  obtain ⟨m, hm, hn⟩ := h
  rw [SinkAccepts, hm, List.take_replicate, Nat.min_eq_left (by omega)]

/-- Bits that have been put need no more room. -/
theorem SinkTakesBits.of_put {n k : Nat} {bits : List Bool} {s t : State} (h : SinkTakesBits n s) (ht : PutsBits bits s t)
    (hn : bits.length + k ≤ n) : SinkTakesBits k t := by
  obtain ⟨m, hm, hle⟩ := h
  have hfill := ht.fill
  refine ⟨m - (s.fill + bits.length) / 8, by rw [ht.answers, hm, List.drop_replicate], ?_⟩
  omega

/-! ### The compressor between two Codes -/

/-- A compression of `all` is running behind the bytes `base` sent before it: the Codes `cs` have been put and restore `done`, and
the bytes `todo` are still in the source. -/
structure Packing (p : Params) (base all done : List Byte) (cs : List Code) (todo : List Byte) (s : State) : Prop where
  legal : p.Legal
  cfg : s.cfg = p
  mode : s.mode = .comp
  script : s.script = []
  err : s.err = .none
  wf : Memory.wf s.chunk
  inv : CompInv s
  codes : Restores p done [] cs
  put : putSoFar s = streamBits base ++ encodeCodes p cs
  sent : base <+: s.snk
  split : all = done ++ (chunkSlice s s.pos (s.clen - s.pos) ++ todo)
  seen : chunkSlice s 0 s.pos <:+ done
  source : (s.inEof = true ∧ todo = []) ∨ (s.inEof = false ∧ s.src = todo.map .byte ++ [.eof])
  sink : SinkTakesBits ((all.length - done.length) * p.maxCodeBits) s

section
variable {p : Params} {base all done todo : List Byte} {cs : List Code} {s : State}

theorem Packing.step {t : State} (h : Packing p base all done cs todo s) (ht : compressStep s = .ok t) : step s = .next t :=
  step_of_turnRes h.script (h.cfg ▸ h.legal) (by rw [turnRes, h.mode]; exact ht)

/-- A step of a compression that goes on keeps its invariant. -/
theorem Packing.kept {t : State} (h : Packing p base all done cs todo s) (ht : compressStep s = .ok t) (hm : t.mode = .comp) :
    Memory.wf t.chunk ∧ CompInv t ∧ s.snk <+: t.snk := by
  have hinv := compressStep_inv (h.cfg ▸ h.legal) h.wf h.inv
  have hkeep := compressStep_keeps s
  rw [ht, meets_ok] at hinv hkeep
  rcases hinv with ⟨-, hwf, hinv⟩ | ⟨u, rfl, -⟩
  · refine ⟨hwf, hinv, ?_⟩
    rcases hkeep with hkeep | ⟨u, -, rfl⟩
    · obtain ⟨⟨-, -, -, -, -, -, hsnk⟩, -⟩ := hkeep
      exact hsnk
    · simp [complete] at hm
  · simp [complete] at hm

/-- Only the chunk with its cursors, the source and the control point have changed. -/
def ChunkOnly (s t : State) : Prop :=
  ∃ chunk clen pos wstart inEof src cphase taken, t = { s with
    chunk := chunk, clen := clen, pos := pos, wstart := wstart, inEof := inEof, src := src, cphase := cphase, taken := taken }

/-- A step that puts no bits keeps the invariant when what is done and what is to come still make up the whole. -/
theorem Packing.of_chunkOnly {t : State} {todo' : List Byte} (h : Packing p base all done cs todo s)
    (hstep : compressStep s = .ok t) (ht : ChunkOnly s t)
    (hsplit : all = done ++ (chunkSlice t t.pos (t.clen - t.pos) ++ todo')) (hseen : chunkSlice t 0 t.pos <:+ done)
    (hsource : (t.inEof = true ∧ todo' = []) ∨ (t.inEof = false ∧ t.src = todo'.map .byte ++ [.eof])) :
    Machine.step s = .next t ∧ Packing p base all done cs todo' t := by
  refine ⟨h.step hstep, ?_⟩
  obtain ⟨_, _, _, _, _, _, _, _, rfl⟩ := ht
  obtain ⟨hwf, hinv, -⟩ := h.kept hstep h.mode
  exact ⟨h.legal, h.cfg, h.mode, h.script, h.err, hwf, hinv, h.codes, h.put, h.sent, hsplit, hseen, hsource, h.sink⟩

/-- What a pass of the inner loop that puts the Code `c` makes of `s` (R143 to R145). -/
structure CodePut (c : Code) (s t : State) : Prop where
  bits : PutsBits (encodeCode s.cfg c) s t
  frame : PutOnly (movedOn { s with creg := c }) t

/-- Such a pass moves the cursors behind the bytes of the Code and leaves the chunk and the source alone. -/
theorem CodePut.fields {c : Code} {s t : State} (h : CodePut c s t) :
    (t.cfg = s.cfg ∧ t.mode = s.mode ∧ t.err = s.err ∧ t.script = s.script) ∧
    (t.chunk = s.chunk ∧ t.clen = s.clen ∧ t.inEof = s.inEof ∧ t.src = s.src) ∧
    t.pos = s.pos + (c.len + 1) ∧ t.cphase = .scan := by
  obtain ⟨-, _, _, _, _, rfl⟩ := h
  exact ⟨⟨rfl, rfl, rfl, rfl⟩, ⟨rfl, rfl, rfl, rfl⟩, rfl, rfl⟩

/-- A pass of the inner loop finishes when the sink accepts the bytes that fall due. -/
theorem codeStep_ok {s : State} (hp : s.cfg.Legal) (h : CompInv s) (hph : s.cphase = .scan) (hlt : s.pos < s.clen)
    (hs : SinkAccepts ((s.fill + s.cfg.maxCodeBits) / 8) s) :
    ∃ c t, codeStep s = .ok t ∧ Code.Valid s.cfg c ∧ CodeStandsFor s c ∧ CodePut c s t := by
  obtain ⟨hcap, hpos, hws, hwritten, hacc, hphase⟩ := h
  have h7 : s.fill ≤ 7 := by simpa only [CPhaseInv, hph] using hphase
  obtain ⟨c, hc, hv, hstands⟩ := (findLongestMatch_meets hp ⟨hlt, hcap, hws, hwritten⟩).exists_ok
  obtain ⟨hroom, -⟩ := id hstands
  have hbits : (encodeCode s.cfg c).length ≤ s.cfg.maxCodeBits := encodeCode_length s.cfg c ▸ codeWidth_le s.cfg c
  obtain ⟨t, ht, hput⟩ := putBits_ok (bits := encodeCode s.cfg c) (s := { s with creg := c }) h7
    (hs.of_le (Nat.div_le_div_right (Nat.add_le_add_left hbits _)))
  have hframe := putBits_putOnly ht
  refine ⟨c, movedOn t, ?_, hv, hstands, ⟨hput.put, hput.sent, hput.fill, hput.answers⟩, ?_⟩
  · obtain ⟨acc, fill, snk, ans, rfl⟩ := hframe
    rw [codeStep_of_found hp hc hv, ht, andThen_ok]
    exact advance_ok hroom
  · obtain ⟨acc, fill, snk, ans, rfl⟩ := hframe
    exact ⟨acc, fill, snk, ans, rfl⟩

/-- What a stretch of at least one byte is done makes room in the sink for the Code it took. -/
theorem mul_room {M w rest left : Nat} (hw : w ≤ M) (h : rest + 1 ≤ left) : w + rest * M ≤ left * M :=
  calc
    w + rest * M ≤ (rest + 1) * M := by rw [Nat.succ_mul]; omega
    _ ≤ left * M := Nat.mul_le_mul_right M h

/-- One pass of the inner loop: the Code put restores the bytes the cursors move over (R143, R148). -/
theorem Packing.step_code (h : Packing p base all done cs todo s) (hph : s.cphase = .scan) (hlt : s.pos < s.clen) :
    ∃ t done' cs', Machine.step s = .next t ∧ Packing p base all done' cs' todo t ∧ t.cphase = .scan ∧
      t.clen - t.pos < s.clen - s.pos ∧ t.inEof = s.inEof := by
  obtain ⟨hp, rfl, hm, hscript, herr, hwf, hinv, hcodes, hput, hsent, hsplit, hseen, hsource, hsink⟩ := id h
  obtain ⟨hcap, hpos, hws, hwritten, -⟩ := id hinv
  have hleft : 1 ≤ all.length - done.length := by
    rw [hsplit, List.length_append, List.length_append, chunkSlice_length hwritten _ _ (by omega)]
    omega
  obtain ⟨c, t, ht, hv, hstands, hc⟩ := codeStep_ok hp hinv hph hlt (hsink.accepts (by
    have := Nat.le_mul_of_pos_left s.cfg.maxCodeBits hleft
    omega))
  obtain ⟨hroom, -, hoff, -⟩ := id hstands
  obtain ⟨⟨hcfg', hm', herr', hscript'⟩, ⟨hchunk', hclen', heof', hsrc'⟩, hpos', hph'⟩ := hc.fields
  have hstep : compressStep s = .ok t := by rw [compressStep_of_scan hph, scanStep_of_lt hlt, ht]
  obtain ⟨hwf', hinv', hgrows⟩ := h.kept hstep (hm'.trans hm)
  have hrestores := codeRestoresChunk s c done ⟨hlt, hcap, hws, hwritten⟩ hv hstands hseen
  have hslice := chunkSlice_congr (s := s) hchunk'
  have hbefore := hseen.length_le
  rw [chunkSlice_length hwritten _ _ (by omega)] at hbefore
  have hcut : s.clen - s.pos = (c.len + 1) + (t.clen - t.pos) := by omega
  have hsplit' : all = applyToOutput c done ++ (chunkSlice t t.pos (t.clen - t.pos) ++ todo) := by
    rw [hrestores, hslice, hpos', hsplit, hcut, chunkSlice_add hwritten _ _ _ (by omega), List.append_assoc, List.append_assoc,
      hpos']
  have hlen := congrArg List.length hsplit'
  have hwidth := encodeCode_length s.cfg c ▸ codeWidth_le s.cfg c
  rw [List.length_append, applyToOutput_length hv (by omega)] at hlen
  refine ⟨t, _, _, h.step hstep, ⟨hp, hcfg', hm'.trans hm, hscript'.trans hscript, herr'.trans herr, hwf', hinv',
    hcodes.snoc hv (by omega), ?_, hsent.trans hgrows, hsplit', ?_, ?_, hsink.of_put hc.bits ?_⟩, hph', by omega, heof'⟩
  · rw [hc.bits.put, hput, encodeCodes_snoc, List.append_assoc]
  · rw [hpos', hslice, chunkSlice_add hwritten 0 _ _ (by omega), Nat.zero_add, hrestores]
    exact suffix_append_right _ hseen
  · rwa [heof', hsrc']
  · refine mul_room hwidth ?_
    rw [applyToOutput_length hv (by omega)]
    omega

/-- The inner loop runs to the end of the chunk (R143). -/
theorem Packing.scan_chunk (h : Packing p base all done cs todo s) (hph : s.cphase = .scan) :
    ∃ t done' cs', Reaches s t ∧ Packing p base all done' cs' todo t ∧ t.cphase = .scan ∧ t.clen ≤ t.pos ∧ t.inEof = s.inEof := by
  induction hn : s.clen - s.pos using Nat.strong_induction_on generalizing s done cs with
  | _ n ih =>
    rcases Nat.lt_or_ge s.pos s.clen with hlt | hle
    · obtain ⟨t, done₁, cs₁, hstep, ht, hph₁, hless, heof⟩ := h.step_code hph hlt
      obtain ⟨u, done₂, cs₂, hrun, hu, hph₂, hend, heof₂⟩ := ih _ (hn ▸ hless) ht hph₁ rfl
      exact ⟨u, done₂, cs₂, .head hstep hrun, hu, hph₂, hend, heof₂.trans heof⟩
    · exact ⟨s, done, cs, .refl, h, hph, hle, rfl⟩

/-- At the end of the chunk what is done and what is still in the source make up the whole. -/
theorem Packing.split_of_le (h : Packing p base all done cs todo s) (hle : s.clen ≤ s.pos) : all = done ++ todo := by
  rw [h.split, Nat.sub_eq_zero_of_le hle, chunkSlice, List.nil_append]

/-- With the end mark taken, the end of the chunk is the end of the whole. -/
theorem Packing.done_eq (h : Packing p base all done cs todo s) (hle : s.clen ≤ s.pos) (heof : s.inEof = true) :
    done = all ∧ todo = [] := by
  rcases h.source with ⟨-, rfl⟩ | ⟨hfalse, -⟩
  · exact ⟨by simpa using (h.split_of_le hle).symm, rfl⟩
  · simp [heof] at hfalse

/-- The test at the end of the chunk leads to the flush when the end mark has been taken (R140). -/
theorem Packing.step_flush (h : Packing p base all done cs todo s) (hph : s.cphase = .scan) (hle : s.clen ≤ s.pos)
    (heof : s.inEof = true) : ∃ t, Machine.step s = .next t ∧ Packing p base all all cs [] t ∧ t.cphase = .flush := by
  obtain ⟨rfl, rfl⟩ := h.done_eq hle heof
  have hstep : compressStep s = .ok { s with cphase := .flush } := by
    rw [compressStep_of_scan hph, scanStep_of_le hle, if_pos heof]
  have hslice (i n : Nat) : chunkSlice { s with cphase := .flush } i n = chunkSlice s i n :=
    chunkSlice_congr (s := s) (t := { s with cphase := .flush }) rfl i n
  obtain ⟨hnext, hpack⟩ := h.of_chunkOnly hstep ⟨_, _, _, _, _, _, _, _, rfl⟩ (by rw [hslice]; exact h.split)
    (by rw [hslice]; exact h.seen) h.source
  exact ⟨_, hnext, hpack, rfl⟩

/-- Otherwise it leads to the next chunk (R140, R141). -/
theorem Packing.step_next (h : Packing p base all done cs todo s) (hph : s.cphase = .scan) (hle : s.clen ≤ s.pos)
    (heof : s.inEof = false) : ∃ t, Machine.step s = .next t ∧ Packing p base all done cs todo t ∧ t.cphase = .load ∧
      t.clen = 0 ∧ t.inEof = false := by
  have hstep : compressStep s = .ok { s with clen := 0, pos := 0, wstart := 0, cphase := .load } := by
    rw [compressStep_of_scan hph, scanStep_of_le hle, if_neg (by simp [heof])]
  obtain ⟨hnext, hpack⟩ := h.of_chunkOnly hstep ⟨_, _, _, _, _, _, _, _, rfl⟩ (h.split_of_le hle) List.nil_suffix h.source
  exact ⟨_, hnext, hpack, rfl, rfl, heof⟩

/-! ### Loading a chunk -/

/-- LOAD_CHUNK of an empty chunk takes what the source still has and the end mark, or as many bytes as fit (R141, R142). -/
theorem loadStep_ok (hcap : 0 < s.cfg.chunkCap) (hclen : s.clen = 0) (heof : s.inEof = false)
    (hsrc : s.src = todo.map .byte ++ [.eof]) : ∃ bs todo' eof src, todo = bs ++ todo' ∧
      loadStep s = .ok (chunkBegun { loaded bs src s with inEof := eof }) ∧
      (eof = true ∧ todo' = [] ∨ eof = false ∧ src = todo'.map .byte ++ [.eof] ∧ 0 < bs.length) := by
  rcases Nat.lt_or_ge todo.length s.cfg.chunkCap with hlt | hge
  · have hfill := fillChunk_full_or_eof heof hsrc (.inr ⟨by omega, rfl⟩)
    refine ⟨todo, [], true, [], by simp, ?_, .inl ⟨rfl, rfl⟩⟩
    rw [loadStep_of_filled hfill]
    simp [hclen, hlt, loaded]
  · have hlen : (todo.take s.cfg.chunkCap).length = s.cfg.chunkCap := by simpa using hge
    have hcut : s.src = (todo.take s.cfg.chunkCap).map .byte ++ ((todo.drop s.cfg.chunkCap).map .byte ++ [.eof]) := by
      rw [← List.append_assoc, ← List.map_append, List.take_append_drop, hsrc]
    have hfill := fillChunk_full_or_eof heof hcut (.inl (by omega))
    refine ⟨_, _, false, _, (List.take_append_drop s.cfg.chunkCap todo).symm, ?_, .inr ⟨rfl, rfl, by omega⟩⟩
    rw [loadStep_of_filled hfill, hlen]
    simp only [hclen, Nat.zero_add, Nat.lt_irrefl, decide_false, if_false]
    rfl

/-- LOAD_CHUNK at the beginning of a chunk; the inner loop follows, or the flush when nothing came (R140 to R142). -/
theorem Packing.step_load (h : Packing p base all done cs todo s) (hph : s.cphase = .load) (hclen : s.clen = 0)
    (heof : s.inEof = false) : ∃ t todo', Machine.step s = .next t ∧ Packing p base all done cs todo' t ∧
      (t.cphase = .flush ∧ t.inEof = true ∧ t.clen ≤ t.pos ∨
        t.cphase = .scan ∧ (t.inEof = false → todo'.length < todo.length)) := by
  obtain ⟨-, -, -, -, hcap, -⟩ := id (h.cfg ▸ h.legal : s.cfg.Legal)
  obtain ⟨-, hpos, -⟩ := h.inv
  have hp0 : s.pos = 0 := by omega
  have hsrc : s.src = todo.map .byte ++ [.eof] := by
    rcases h.source with ⟨htrue, -⟩ | ⟨-, hsrc⟩
    · simp [heof] at htrue
    · exact hsrc
  obtain ⟨bs, todo', eof, src, rfl, hload, hsource⟩ := loadStep_ok hcap hclen heof hsrc
  have hstep := (compressStep_of_load hph).trans hload
  obtain ⟨t, ht⟩ : ∃ t, t = chunkBegun { loaded bs src s with inEof := eof } := ⟨_, rfl⟩
  have hclen' : t.clen = bs.length := by rw [ht]; exact (congrArg (· + bs.length) hclen).trans (Nat.zero_add _)
  have hpos' : t.pos = 0 := by rw [ht, chunkBegun]; exact ite_eq_right_iff.mpr fun _ => hp0
  have hbytes : chunkSlice t 0 bs.length = bs := chunkSlice_of_get fun k hk => by
    rw [ht]; exact hclen ▸ memGet_memSetFrom s.chunk s.clen hk
  have heof' : t.inEof = eof := by rw [ht]; rfl
  have hsource' : t.inEof = true ∧ todo' = [] ∨ t.inEof = false ∧ t.src = todo'.map .byte ++ [.eof] := by
    rcases hsource with ⟨heq, htodo⟩ | ⟨heq, hsrc', -⟩
    · exact .inl ⟨heof'.trans heq, htodo⟩
    · exact .inr ⟨heof'.trans heq, by rw [ht]; exact hsrc'⟩
  rw [← ht] at hload
  obtain ⟨hnext, hpack⟩ := h.of_chunkOnly ((compressStep_of_load hph).trans hload) (ht ▸ ⟨_, _, _, _, _, _, _, _, rfl⟩)
    (todo' := todo') (by rw [hpos', hclen', Nat.sub_zero, hbytes]; exact h.split_of_le (by omega))
    (by rw [hpos']; exact List.nil_suffix) hsource'
  refine ⟨t, todo', hnext, hpack, ?_⟩
  rcases Nat.eq_zero_or_pos bs.length with h0 | hsome
  · refine .inl ⟨by rw [ht]; simp [chunkBegun, loaded, hclen, h0], ?_, by omega⟩
    rcases hsource with ⟨heq, -⟩ | ⟨-, -, hsome⟩
    · exact heof'.trans heq
    · omega
  · refine .inr ⟨by rw [ht]; simp [chunkBegun, loaded, hclen, hsome.ne'], fun _ => ?_⟩
    rw [List.length_append]
    omega

/-- The outer loop runs to the flush (R140). -/
theorem Packing.reaches_flush (h : Packing p base all done cs todo s) (hph : s.cphase = .load) (hclen : s.clen = 0)
    (heof : s.inEof = false) : ∃ t cs', Reaches s t ∧ Packing p base all all cs' [] t ∧ t.cphase = .flush := by
  induction hn : todo.length using Nat.strong_induction_on generalizing s done cs todo with
  | _ n ih =>
    obtain ⟨t, todo₁, hstep, ht, ⟨hflush, hend, hle⟩ | ⟨hscan, hless⟩⟩ := h.step_load hph hclen heof
    · obtain ⟨rfl, rfl⟩ := ht.done_eq hle hend
      exact ⟨t, cs, .single hstep, ht, hflush⟩
    · obtain ⟨u, done₂, cs₂, hrun, hu, hph₂, hle, heof₂⟩ := ht.scan_chunk hscan
      have hsu : Reaches s u := .head hstep hrun
      cases hend : t.inEof with
      | true =>
        obtain ⟨v, hv, hpack, hflush⟩ := hu.step_flush hph₂ hle (heof₂.trans hend)
        exact ⟨v, cs₂, hsu.tail hv, hpack, hflush⟩
      | false =>
        obtain ⟨v, hv, hpack, hload, hclen', heof'⟩ := hu.step_next hph₂ hle (heof₂.trans hend)
        obtain ⟨w, cs₃, hrun', hw⟩ := ih _ (hn ▸ hless hend) hpack hload hclen' heof' rfl
        exact ⟨w, cs₃, (hsu.tail hv).trans hrun', hw⟩

/-- FLUSH_BITS and completion: the bytes sent are the bits of the Codes, and fewer than 8 zero bits (R146). -/
theorem Packing.finish (h : Packing p base all all cs [] s) (hph : s.cphase = .flush) :
    ∃ t sent pad, Machine.step s = .next t ∧ Completed base sent t ∧ streamBits sent = encodeCodes p cs ++ pad ∧
      pad.length ≤ 7 ∧ ∀ x ∈ pad, x = false := by
  obtain ⟨-, -, -, -, hacc, hphase⟩ := h.inv
  have h7 : s.fill ≤ 7 := by simpa only [CPhaseInv, hph] using hphase
  obtain ⟨t, ht, hbits⟩ := flushBits_ok h7 hacc (h.sink.accepts (by omega))
  have hkeep := flushBits_keeps s
  rw [Res.Keeps, ht, meets_ok] at hkeep
  obtain ⟨⟨⟨-, -, -, -, herr⟩, -, -, -, -, -, hsnk⟩, -⟩ := hkeep
  obtain ⟨sent, hsent⟩ := h.sent.trans hsnk
  refine ⟨complete { t with cphase := .load }, sent, List.replicate ((8 - s.fill) % 8) false,
    h.step (by rw [compressStep_of_flush hph, finishCompress, ht, andThen_ok]), ⟨rfl, rfl, herr.trans h.err, hsent.symm⟩, ?_, ?_,
    fun _ => List.eq_of_mem_replicate⟩
  · rw [← hsent, streamBits_append, h.put, List.append_assoc] at hbits
    exact List.append_cancel_left hbits
  · rw [List.length_replicate]
    omega

end

/-! ### From START to completion -/

/-- The write of CTRL that starts an operation, on an idle block with legal parameters (60_exceptions.md R205). -/
theorem step_start {s : State} {v : Byte} {init : State → State} (hv : ∀ t, writeReg .ctrl v t = startWith init t)
    (hp : s.cfg.Legal) (hm : s.mode = .idle) (hscript : s.script = [.host (.write .ctrl v)]) :
    step s = .next (init { s with script := [] }) := by
  rw [step_eq_hostTurn hscript, hostTurn, hv]
  exact (startWith_of_legal (s := { s with script := [] }) init hp).trans (by rw [if_pos hm])

theorem writeReg_startCompress (s : State) : writeReg .ctrl 0x01#8 s = startWith initCompress s := by
  simp [writeReg, decodeCtrl_compress, exec_startCompress]

theorem writeReg_startDecompress (s : State) : writeReg .ctrl 0x03#8 s = startWith initDecompress s := by
  simp [writeReg, decodeCtrl_decompress, exec_startDecompress]

/-- What the bytes sent are to a decoder: the bits of Codes that restore `all`, and fewer than 8 zero bits (R53, R54). -/
def Compressed (p : Params) (all sent : List Byte) : Prop :=
  ∃ cs pad, Restores p all [] cs ∧ streamBits sent = encodeCodes p cs ++ pad ∧ pad.length ≤ 7 ∧ ∀ x ∈ pad, x = false

/-- A compression begins with everything still in the source (R36). -/
theorem packing_initCompress {s : State} {all : List Byte} {n : Nat} (hp : s.cfg.Legal)
    (hsrc : s.src = all.map .byte ++ [.eof]) (hans : s.snkAns = List.replicate n .ok)
    (hn : all.length * s.cfg.maxCodeBits ≤ n) : Packing s.cfg s.snk all [] [] all (initCompress { s with script := [] }) := by
  refine ⟨hp, rfl, rfl, rfl, rfl, nil_wf, by simp [CompInv, CPhaseInv], .nil, by simp [putSoFar, encodeCodes], List.prefix_rfl, rfl,
    List.nil_suffix, .inr ⟨rfl, hsrc⟩, n, hans, ?_⟩
  rw [initCompress_fill, List.length_nil, Nat.sub_zero]
  omega

/-- COMPRESS sends the bits of Codes that restore what it has read (R178). -/
theorem compress_run {s : State} {all : List Byte} {n : Nat} (hp : s.cfg.Legal) (hm : s.mode = .idle)
    (hscript : s.script = [.host (.write .ctrl 0x01#8)]) (hsrc : s.src = all.map .byte ++ [.eof])
    (hans : s.snkAns = List.replicate n .ok) (hn : all.length * s.cfg.maxCodeBits ≤ n) :
    ∃ t sent, Reaches s t ∧ Completed s.snk sent t ∧ Compressed s.cfg all sent := by
  obtain ⟨t, cs, hrun, ht, hflush⟩ := (packing_initCompress hp hsrc hans hn).reaches_flush rfl rfl rfl
  obtain ⟨u, sent, pad, hstep, hdone, hbits, hpad⟩ := ht.finish hflush
  exact ⟨u, sent, .head (step_start writeReg_startCompress hp hm hscript) (hrun.tail hstep), hdone, cs, pad, ht.codes, hbits, hpad⟩

/-- A decompression begins with the empty output (R36). -/
theorem decoding_initDecompress {s : State} {all sent : List Byte} {cs : List Code} {pad : List Bool} {m : Nat}
    (hp : s.cfg.Legal) (hsrc : s.src = sent.map .byte ++ [.eof]) (hans : s.snkAns = List.replicate m .ok)
    (hm : all.length ≤ m) (hcodes : Restores s.cfg all [] cs) (hbits : streamBits sent = encodeCodes s.cfg cs ++ pad) :
    Decoding s.cfg s.snk all [] [] cs pad (initDecompress { s with script := [] }) := by
  obtain ⟨-, hw, -, -, -, hring, hbatch⟩ := id hp
  have hready : ApplyReady (initDecompress { s with script := [] }) := ⟨hp, by simp only [initDecompress_wp, initDecompress_cfg]; omega, le_rfl, by simp⟩
  refine ⟨⟨rfl, rfl, rfl, Nat.zero_le _, ⟨hready, rfl, ?_, List.nil_suffix⟩, .inl (Nat.zero_le _), m, hans, ?_⟩, rfl, rfl,
    ⟨rfl, Nat.zero_le _, by simp⟩, hbatch, ⟨?_, ?_⟩, hcodes⟩
  · exact congrArg (s.snk ++ ·) rfl
  · exact (Nat.add_comm _ _).trans_le (Nat.add_le_add_right hm _)
  · simpa [unreadBits, hsrc, leadingBytes_bytes, bitsOf, leadingBytes] using hbits
  · simp [hsrc, afterBytes_bytes, afterBytes]

/-- DECOMPRESS sends what the Codes restore. -/
theorem decompress_run {s : State} {all sent : List Byte} {m : Nat} (hp : s.cfg.Legal) (hidle : s.mode = .idle)
    (hscript : s.script = [.host (.write .ctrl 0x03#8)]) (hsrc : s.src = sent.map .byte ++ [.eof])
    (hans : s.snkAns = List.replicate m .ok) (hm : all.length ≤ m) (hsent : Compressed s.cfg all sent) :
    ∃ t, Reaches s t ∧ Completed s.snk all t := by
  obtain ⟨cs, pad, hcodes, hbits, hpad⟩ := hsent
  obtain ⟨t, hrun, hdone⟩ := (decoding_initDecompress hp hsrc hans hm hcodes hbits).complete hpad
  exact ⟨t, .head (step_start writeReg_startDecompress hp hidle hscript) hrun, hdone⟩

/-! ### The format depends on WINDOW_SIZE and LOOKAHEAD_SIZE only -/

section
variable {p q : Params} (hw : q.windowSize = p.windowSize) (hl : q.lookaheadSize = p.lookaheadSize)
include hw hl

theorem encodeCode_of_sizes : encodeCode q = encodeCode p := by
  funext c
  simp only [encodeCode, Params.lenBits, Params.offBits, hw, hl]

theorem Restores.of_sizes {all out : List Byte} {cs : List Code} (h : Restores p all out cs) : Restores q all out cs := by
  induction h with
  | nil => exact .nil
  | cons hv hoff _ ih =>
    refine .cons ?_ hoff ih
    rwa [Code.Valid, hw, Params.maxMatch, hl]

theorem Compressed.of_sizes {all sent : List Byte} (h : Compressed p all sent) : Compressed q all sent := by
  obtain ⟨cs, pad, hcodes, hbits, hpad⟩ := h
  exact ⟨cs, pad, hcodes.of_sizes hw hl, by rwa [encodeCodes, encodeCode_of_sizes hw hl], hpad⟩

end

/-- Settles O60: the bytes COMPRESS sends are the bits of Codes that restore S and fewer than 8 zero bits; DECOMPRESS decodes those
Codes, finds the end of the stream clean and sends what they restore. -/
theorem roundTrip : Obligations.RoundTrip := by
  intro S s n hp hm hscript hsrc hans hn
  obtain ⟨t, sent, hrun, ⟨hidle, hdone, herr, hsnk⟩, hsent⟩ := compress_run hp hm hscript hsrc hans hn
  obtain ⟨k, hk⟩ := hrun.run
  refine ⟨k, t, sent, hk, hidle, hdone, herr, hsnk, ?_⟩
  intro d m hp' hw hl hm' hscript' hsrc' hans' hroom
  obtain ⟨u, hrun', ⟨hidle', hdone', herr', hsnk'⟩⟩ :=
    decompress_run hp' hm' hscript' hsrc' hans' hroom (hsent.of_sizes hw hl)
  obtain ⟨j, hj⟩ := hrun'.run
  exact ⟨j, u, hj, hidle', hdone', herr', hsnk'⟩

end Sys2Proof.Machine
end

section
/-! PROOFS of 60_exceptions.md, the commands and the errors: START, the instruction a step runs, the entry of an error, and which
errors a step can raise (R190, R193 to R197, R205). -/

namespace Sys2Proof.Machine

/-! ### START -/

/-- Settles O36: an idle block with legal parameters answers `initCompress`. -/
theorem startCompress : Obligations.StartCompress := by
  intro s hp hm
  refine ⟨initCompress s, ?_, ?_⟩
  · rw [exec_startCompress, startWith_of_legal initCompress hp, if_pos hm]
  · simp [SameDecompressor]

/-- Settles O37: an idle block with legal parameters answers `initDecompress`. -/
theorem startDecompress : Obligations.StartDecompress := by
  intro s hp hm
  refine ⟨initDecompress s, ?_, ?_⟩
  · rw [exec_startDecompress, startWith_of_legal initDecompress hp, if_pos hm]
  · simp [SameCompressor]

/-- A START while an operation runs leaves the state alone, whichever operation it asks for (R205). -/
theorem startWith_of_running {s : State} (init : State → State) (hp : s.cfg.Legal) (hm : s.mode ≠ .idle) :
    startWith init s = .next s := by
  rw [startWith_of_legal init hp, if_neg hm]

/-- Settles O38: both STARTs are `startWith`. -/
theorem startIgnored : Obligations.StartIgnored := fun _ hp hm =>
  ⟨startWith_of_running initCompress hp hm, startWith_of_running initDecompress hp hm⟩

/-! ### The instruction a step runs -/

/-- A CTRL byte that decodes to an instruction runs it (R205). -/
theorem writeReg_ctrl_of_decode {v : Byte} {i : Instr} (h : decodeCtrl v = some i) (s : State) :
    writeReg .ctrl v s = exec i s := by
  simp [writeReg, h]

theorem turnRes_comp {s : State} (h : s.mode = .comp) : turnRes s = compressStep s := by
  simp only [turnRes, h]

theorem turnRes_decomp {s : State} (h : s.mode = .decomp) : turnRes s = decompressRes s := by
  simp only [turnRes, h]

/-- At the head of the apply phase the block's turn is the meaning of BATCH[i], i moved on before it (43_decompress.md R163). -/
theorem blockTurn_of_code {s : State} {c : Code} (hp : s.cfg.Legal) (hm : s.mode = .decomp) (hph : s.dphase = .apply)
    (hlt : s.aidx < s.bcnt) (hcap : s.aidx < s.cfg.batchCap) (hc : memGet s.batch s.aidx = some c) :
    blockTurn s = execCode c { s with aidx := s.aidx + 1 } := by
  rw [blockTurn_eq hp, turnRes_decomp hm, decompressRes_apply_code hph hlt, batchRead_ok hcap hc, andThen_ok, execCode_eq_codeRes]

/-- A Code with a row in the opcode table means its instruction (R163). -/
theorem execCode_of_instr {c : Code} {i : Instr} (h : Instr.ofCode c = some i) (s : State) : execCode c s = exec i s := by
  simp only [execCode, h]

/-- Settles O47: the host's turn by the CTRL byte it writes, the block's turn by the Code at the head of the apply phase. -/
theorem stepRunsInstr : Obligations.StepRunsInstr := by
  refine fun s i => ⟨fun v rest hs hv => ?_, fun c hp hb hm hph hlt hcap hc hi => ?_⟩
  · rw [step_eq_hostTurn hs]
    exact writeReg_ctrl_of_decode hv _
  · rw [step_eq_blockTurn hb, ← execCode_of_instr hi]
    exact blockTurn_of_code (s := { s with script := s.script.tail }) hp hm hph hlt hcap hc

/-! ### Errors -/

/-- The entry of an error as `Raised` names it: the flags say so, and SNK is as it was (R196, R197). -/
theorem raised_raiseError (e : ErrCode) (s : State) : Raised e s (raiseError e s) := by
  simp [Raised]

/-- Settles O43: the fields of `raiseError`. -/
theorem errorEntry : Obligations.ErrorEntry := fun e s =>
  ⟨raiseError e s, toOutcome_raise e s, raised_raiseError e s, raiseError_src e s, raiseError_cfg e s⟩

/-- No move of the host notes an error: a reset and a START clear ERR, the others leave it (R205, R220). -/
theorem HostMove.err {s t : State} (h : HostMove s t) : t.err = s.err ∨ t.err = .none := by
  cases h with
  | reset | startCompress | startDecompress => exact .inr rfl
  | ignored | read | giveSrc | giveSnk | connect => exact .inl rfl

/-- ERR after the turn of a running pipeline whose operations stay in the frame `K` and raise only errors of `E`: it is as it was,
or the error raised (R196). -/
theorem Res.Meets.err {K : State → State → Prop} {E : ErrCode → Prop} {ok wait : State → Prop} {s t : State} {r : Res State}
    (hframe : r.Meets (fun t => K s t ∨ ∃ u, K s u ∧ t = complete u) (K s) (fun _ => K s) True)
    (hK : ∀ u, K s u → KeepsCommon s u) (herr : r.Meets ok wait (fun e _ => E e) False) (h : r.toOutcome = .next t) :
    t.err = s.err ∨ E t.err := by
  have kept : ∀ u, K s u → u.err = s.err := fun u hu => by
    obtain ⟨⟨-, -, -, -, herr⟩, -⟩ := hK u hu
    exact herr
  refine Res.Meets.toOutcome (P := fun t => t.err = s.err ∨ E t.err) ((hframe.and herr).mono ?_ ?_ ?_ id) h
  · rintro t ⟨hk | ⟨u, hk, rfl⟩, -⟩
    · exact .inl (kept t hk)
    · exact .inl (kept u hk)
  · exact fun t ⟨hk, _⟩ => .inl (kept t hk)
  · exact fun e t ⟨_, he⟩ => .inr he

/-- The errors of the block's turn, by MODE (R190). -/
theorem blockTurn_err {s t : State} (hs : Inv s) (h : blockTurn s = .next t) : t.err = s.err ∨
    (s.mode = .comp ∧ t.err = .ioFailure) ∨
    (s.mode = .decomp ∧ (t.err = .truncatedStream ∨ t.err = .corruptStream ∨ t.err = .ioFailure)) := by
  obtain ⟨hp, -, ⟨hchunk, hring, hbatch⟩, hc, hd⟩ := hs
  cases hm : s.mode with
  | idle =>
    rw [blockTurn_of_idle hm] at h
    cases h
    exact .inl rfl
  | comp =>
    rw [blockTurn_eq hp, turnRes_comp hm] at h
    exact ((compressStep_keeps s).err (fun _ hu => hu.1) (compressStep_inv hp hchunk (hc hm)) h).imp_right
      fun he => .inl ⟨rfl, he⟩
  | decomp =>
    rw [blockTurn_eq hp, turnRes_decomp hm] at h
    exact ((decompressRes_keeps s).err (fun _ hu => hu.1) (decompressRes_inv hp hring hbatch (hd hm)) h).imp_right
      fun he => .inr ⟨rfl, he⟩

/-- Settles O58: the block's turn by the errors its pipeline's operations raise under the invariant, the host's by its moves. -/
theorem errorsByMode : Obligations.ErrorsByMode := by
  intro s t hs h
  rcases step_next h with hturn | ⟨rest, hmove⟩
  · exact (blockTurn_err (s := { s with script := s.script.tail }) hs hturn).imp_right .inr
  · exact hmove.err.imp_right .inl

end Sys2Proof.Machine
end

section
/-! PROOFS of 60_exceptions.md, the stream ports: a turn that waits stands before a port without an answer and, answered, goes on
as the undisturbed turn (70_reset_and_hazards.md R235); a port that answers Fail raises IOFailure (R194, R196, R197). -/

namespace Sys2Proof.Machine

/-! ### The same operation in a state that differs in what it does not read -/

section
variable {α α' β β' : Type}

/-- The answer `r` carried over to other states: what it answers by `g`, a waiting state by `v`, a failing one by `u`. -/
@[simp] def Res.image (g : α → β) (v u : State → State) : Res α → Res β
  | .ok a => .ok (g a)
  | .wait s => .wait (v s)
  | .raise e s => .raise e (u s)
  | .fault f => .fault f
  | .refuse x => .refuse x

/-! Operations put together of parts whose answers are carried over: in sequence, by a test, and parked. -/

theorem andThen_image {g : α → α'} {h : β → β'} {v u : State → State} {r : Res α} {r' : Res α'} {f : α → Res β}
    {f' : α' → Res β'} (hr : r' = r.image g v u) (hf : ∀ a, f' (g a) = (f a).image h v u) :
    r'.andThen f' = (r.andThen f).image h v u := by
  subst hr
  cases r <;> simp [hf]

theorem ite_image {p p' : Prop} {_ : Decidable p} {_ : Decidable p'} {g : α → α'} {v u : State → State} {a b : Res α}
    {a' b' : Res α'} (hp : p' ↔ p) (ht : a' = a.image g v u) (he : b' = b.image g v u) :
    (if p' then a' else b') = (if p then a else b).image g v u := by
  by_cases h : p
  · rw [if_pos h, if_pos (hp.mpr h), ht]
  · rw [if_neg h, if_neg (mt hp.mp h), he]

theorem parkAt_image {g : α → α'} {v v' u : State → State} {r : Res α} {r' : Res α'} {p p' : State → State}
    (hr : r' = r.image g v u) (hp : ∀ s, p' (v s) = v' (p s)) : r'.parkAt p' = (r.parkAt p).image g v' u := by
  subst hr
  cases r <;> simp [hp]

theorem ok_of_image {g : α → α'} {v u : State → State} {r : Res α} {r' : Res α'} {a : α} (hr : r' = r.image g v u)
    (h : r = .ok a) : r' = .ok (g a) := by
  rw [hr, h, Res.image]

/-- A step does not show where the operation it ran failed, but for what the entry of an error keeps (60_exceptions.md R197). -/
theorem toOutcome_image {u : State → State} {r r' : Res State} (hr : r' = r.image id id u)
    (hu : ∀ e s, raiseError e (u s) = raiseError e s) : r'.toOutcome = r.toOutcome := by
  subst hr
  cases r <;> simp [hu]

end

/-- A change of the answers still to come and of the control points: what no access to a buffer reads. -/
structure Shift where
  src : List SrcAnswer → List SrcAnswer := id
  snkAns : List SnkAnswer → List SnkAnswer := id
  cphase : CPhase → CPhase := id
  dphase : DPhase → DPhase := id

/-- The state after the change. -/
def Shift.on (k : Shift) (s : State) : State :=
  { s with src := k.src s.src, snkAns := k.snkAns s.snkAns, cphase := k.cphase s.cphase, dphase := k.dphase s.dphase }

/-- The host has answered more: the shift `State.answered` makes. -/
def Shift.more (xs : List SrcAnswer) (ys : List SnkAnswer) : Shift := { src := (· ++ xs), snkAns := (· ++ ys) }

/-- The control point of the compressor is `x`. -/
def atC (x : CPhase) : Shift := { cphase := fun _ => x }

/-- The control point of the decompressor is `x`. -/
def atD (x : DPhase) : Shift := { dphase := fun _ => x }

theorem raiseError_atC (x : CPhase) (e : ErrCode) (s : State) : raiseError e ((atC x).on s) = raiseError e s := rfl

theorem raiseError_atD (x : DPhase) (e : ErrCode) (s : State) : raiseError e ((atD x).on s) = raiseError e s := rfl

/-! One law of `Shift.on` for each operation on buffers and registers; none of them waits, so `v` is any. -/

section
variable (k : Shift) (v : State → State) (s : State)

@[simp] theorem Shift.on_chunk : (k.on s).chunk = s.chunk := rfl
@[simp] theorem Shift.on_ring : (k.on s).ring = s.ring := rfl
@[simp] theorem Shift.on_batch : (k.on s).batch = s.batch := rfl

theorem chunkRead_on (i : Nat) : chunkRead i (k.on s) = (chunkRead i s).image id v k.on := by
  refine ite_image .rfl ?_ rfl
  rw [Shift.on_chunk]
  cases memGet s.chunk i <;> rfl

theorem ringRead_on (i : Nat) : ringRead i (k.on s) = (ringRead i s).image id v k.on := by
  refine ite_image .rfl ?_ rfl
  rw [Shift.on_ring]
  cases memGet s.ring i <;> rfl

theorem batchRead_on (i : Nat) : batchRead i (k.on s) = (batchRead i s).image id v k.on := by
  refine ite_image .rfl ?_ rfl
  rw [Shift.on_batch]
  cases memGet s.batch i <;> rfl

theorem ringWrite_on (i : Nat) (b : Byte) : ringWrite i b (k.on s) = (ringWrite i b s).image k.on v k.on :=
  ite_image .rfl rfl rfl

theorem batchWrite_on (i : Nat) (c : Code) : batchWrite i c (k.on s) = (batchWrite i c s).image k.on v k.on :=
  ite_image .rfl rfl rfl

theorem setCode_on (c : Code) : setCode c (k.on s) = (setCode c s).image k.on v k.on :=
  ite_image .rfl rfl rfl

theorem actByte_on (a : Act) : actByte a (k.on s) = (actByte a s).image id v k.on := by
  cases a with
  | lit c => rfl
  | copy off => exact andThen_image (g := id) (ite_image .rfl rfl rfl) fun i => ringRead_on k v s i

theorem reseed_on (n j : Nat) : reseed n j (k.on s) = (reseed n j s).image k.on v k.on := by
  induction n generalizing j s with
  | zero => rfl
  | succ n ih =>
    exact andThen_image (ringRead_on k v s _) fun b => andThen_image (ringWrite_on k v s j b) fun t => ih t (j + 1)

theorem matchLenFrom_on (d n l : Nat) : matchLenFrom (k.on s) d n l = (matchLenFrom s d n l).image id v k.on := by
  induction n generalizing l with
  | zero => rfl
  | succ n ih =>
    exact andThen_image (chunkRead_on k v s _) fun a => andThen_image (chunkRead_on k v s _) fun b =>
      ite_image .rfl (ih (l + 1)) rfl

theorem scanFrom_on (n d off len : Nat) : scanFrom (k.on s) n d off len = (scanFrom s n d off len).image id v k.on := by
  induction n generalizing d off len with
  | zero => rfl
  | succ n ih => exact andThen_image (matchLenFrom_on k v s d _ 0) fun l => ite_image .rfl (ih (d + 1) d l) (ih (d + 1) off len)

theorem findLongestMatch_on : findLongestMatch (k.on s) = (findLongestMatch s).image id v k.on :=
  ite_image .rfl (andThen_image (chunkRead_on k v s _) fun _ => rfl) <|
    ite_image .rfl (andThen_image (scanFrom_on k v s _ 1 0 0) fun _ => andThen_image (chunkRead_on k v s _) fun _ => rfl) rfl

end

/-! ### The control point a step begins at: an operation that sets it, parks there or fails does not show it -/

/-- A write to the sink passes the control points by. -/
theorem snkWrite_on {k : Shift} (hk : k.snkAns = id) (b : Byte) (s : State) :
    snkWrite b (k.on s) = (snkWrite b s).image k.on k.on k.on := by
  rcases hans : s.snkAns with _ | ⟨_ | _, ans⟩ <;> simp [snkWrite, hans, Shift.on, hk]

/-- A read of the source passes the control points by. -/
theorem srcRead_on {k : Shift} (hk : k.src = id) (s : State) :
    srcRead (k.on s) = (srcRead s).image (Prod.map id k.on) k.on k.on := by
  rcases hsrc : s.src with _ | ⟨_ | _ | _, src⟩ <;> simp [srcRead, hsrc, Shift.on, hk]

section
variable (x : CPhase) (s : State)

theorem sendFull_atC : sendFull ((atC x).on s) = (sendFull s).image (atC x).on (atC x).on (atC x).on :=
  ite_image .rfl (andThen_image (snkWrite_on rfl s.acc s) fun _ => rfl) rfl

theorem putBit_atC (b : Bool) : putBit b ((atC x).on s) = (putBit b s).image (atC x).on (atC x).on (atC x).on :=
  ite_image .rfl (sendFull_atC x { s with acc := writeBit s.acc (7 - s.fill) b, fill := s.fill + 1 }) rfl

theorem putBits_atC (bits : List Bool) : putBits bits ((atC x).on s) = (putBits bits s).image (atC x).on id (atC x).on := by
  induction bits generalizing s with
  | nil => rfl
  | cons b rest ih => exact andThen_image (parkAt_image (putBit_atC x s b) fun _ => rfl) ih

theorem advance_atC : advance ((atC x).on s) = (advance s).image id id (atC x).on :=
  ite_image .rfl rfl rfl

theorem emitStep_atC (rest : List Bool) : (emitStep rest ((atC x).on s)).toOutcome = (emitStep rest s).toOutcome :=
  toOutcome_image (andThen_image (parkAt_image (sendFull_atC x s) fun _ => rfl) fun t =>
    andThen_image (putBits_atC x t rest) fun u => advance_atC x u) (raiseError_atC x)

end

section
variable (x : DPhase) (s : State)

theorem sendRing_atD (park : Nat → DPhase) (n i : Nat) :
    sendRing park n i ((atD x).on s) = (sendRing park n i s).image (atD x).on id (atD x).on := by
  induction n generalizing i s with
  | zero => rfl
  | succ n ih =>
    exact andThen_image (ringRead_on _ _ s i) fun b =>
      andThen_image (parkAt_image (snkWrite_on rfl b s) fun _ => rfl) fun t => ih t (i + 1)

theorem ringFlushFrom_atD (i : Nat) (acts : List Act) :
    ringFlushFrom i acts ((atD x).on s) = (ringFlushFrom i acts s).image (atD x).on id (atD x).on :=
  andThen_image (sendRing_atD x s _ _ i) fun t => andThen_image (reseed_on _ _ t _ 0) fun _ => rfl

theorem appendByte_atD (b : Byte) (acts : List Act) :
    appendByte b acts ((atD x).on s) = (appendByte b acts s).image (atD x).on id (atD x).on :=
  andThen_image (ringWrite_on _ _ s s.wp b) fun t =>
    ite_image .rfl (ringFlushFrom_atD x { t with wp := t.wp + 1 } t.fbase acts) rfl

theorem runActs_atD (acts : List Act) : runActs acts ((atD x).on s) = (runActs acts s).image id id (atD x).on := by
  induction acts generalizing s with
  | nil => rfl
  | cons a acts ih => exact andThen_image (actByte_on _ _ s a) fun b => andThen_image (appendByte_atD x s b acts) ih

theorem flushStep_atD (i : Nat) (acts : List Act) : (flushStep i acts ((atD x).on s)).toOutcome = (flushStep i acts s).toOutcome :=
  toOutcome_image (andThen_image (ringFlushFrom_atD x s i acts) fun t => runActs_atD x t acts) (raiseError_atD x)

theorem finalStep_atD (i : Nat) : (finalStep i ((atD x).on s)).toOutcome = (finalStep i s).toOutcome :=
  toOutcome_image (andThen_image (sendRing_atD x s _ _ i) fun _ => rfl) (raiseError_atD x)

theorem getBit_atD : getBit ((atD x).on s) = (getBit s).image (Prod.map id (atD x).on) (atD x).on (atD x).on := by
  refine ite_image .rfl (andThen_image (srcRead_on rfl s) ?_) (ite_image .rfl rfl rfl)
  rintro ⟨_ | y, t⟩ <;> rfl

theorem takeCode_atD (n : Nat) (got : List Bool) :
    takeCode n got ((atD x).on s) = (takeCode n got s).image (Prod.map id (atD x).on) id (atD x).on := by
  induction n generalizing got s with
  | zero => rfl
  | succ n ih =>
    unfold takeCode
    rw [show ((atD x).on s).cfg = s.cfg from rfl]
    split
    · rfl
    · refine andThen_image (parkAt_image (getBit_atD x s) fun _ => rfl) ?_
      rintro ⟨_ | b, t⟩
      · rfl
      · exact ih t (got ++ [b])

theorem storeCode_atD (c : Code) : storeCode c ((atD x).on s) = (storeCode c s).image id id (atD x).on := by
  refine andThen_image (setCode_on _ _ s c) fun t => andThen_image (batchWrite_on _ _ t t.bcnt c) fun u => ?_
  exact ite_image .rfl rfl rfl

theorem decodeStep_atD (got : List Bool) : (decodeStep got ((atD x).on s)).toOutcome = (decodeStep got s).toOutcome := by
  refine toOutcome_image (andThen_image (takeCode_atD x s _ got) ?_) (raiseError_atD x)
  rintro ⟨c | _ | _, t⟩
  · exact storeCode_atD x t c
  · rfl
  · rfl

end

/-! ### A turn that waits -/

theorem andThen_eq_wait {α β : Type} {r : Res α} {f : α → Res β} {w : State} (h : r.andThen f = .wait w) :
    r = .wait w ∨ ∃ a, r = .ok a ∧ f a = .wait w := by
  cases r with
  | ok a => exact .inr ⟨a, rfl, h⟩
  | wait s => cases h; exact .inl rfl
  | raise | fault | refuse => cases h

theorem parkAt_eq_wait {α : Type} {r : Res α} {p : State → State} {w : State} (h : r.parkAt p = .wait w) :
    ∃ v, r = .wait v ∧ w = p v := by
  cases r with
  | wait s => cases h; exact ⟨s, rfl, rfl⟩
  | ok | raise | fault | refuse => cases h

section
variable {α : Type} {r : Res α} {ok : α → Prop} {wait : State → Prop} {raise : ErrCode → State → Prop} {stop : Prop}

theorem Res.Meets.of_ok {a : α} (h : r.Meets ok wait raise stop) (hr : r = .ok a) : ok a := by
  rwa [hr, meets_ok] at h

theorem Res.Meets.of_wait {w : State} (h : r.Meets ok wait raise stop) (hr : r = .wait w) : wait w := by
  rwa [hr, meets_wait] at h

end

theorem KeepsCommon.mode {s t : State} (h : KeepsCommon s t) : t.mode = s.mode := by
  obtain ⟨⟨-, hmode, -⟩, -⟩ := h
  exact hmode

/-- The turn blocks in `w` (R235): there the next access is to a port without an answer, and once the host has answered `xs` and
`ys` more, the turn from `w` ends as `r`. -/
structure Blocks (xs : List SrcAnswer) (ys : List SnkAnswer) (w : State) (r : Res State) : Prop where
  port : (WaitsForSource w ∧ w.src = []) ∨ (WaitsForSink w ∧ w.snkAns = [])
  resumes : (turnRes (w.answered xs ys)).toOutcome = r.toOutcome

/-- A turn that blocks in `w`, when the step taken from `w` is known. -/
theorem Blocks.of_turn {xs : List SrcAnswer} {ys : List SnkAnswer} {w : State} {r r' : Res State}
    (port : (WaitsForSource w ∧ w.src = []) ∨ (WaitsForSink w ∧ w.snkAns = [])) (hturn : turnRes (w.answered xs ys) = r')
    (h : r'.toOutcome = r.toOutcome) : Blocks xs ys w r :=
  ⟨port, by rw [hturn, h]⟩

section
variable {xs : List SrcAnswer} {ys : List SnkAnswer} {s t w : State}

/-! ### The ports -/

theorem snkWrite_waits {b : Byte} (h : snkWrite b s = .wait w) : w = s ∧ s.snkAns = [] :=
  ((snkWrite_meets b s).of_wait h).symm

theorem snkWrite_answered {b : Byte} (h : snkWrite b s = .ok t) : snkWrite b (s.answered xs ys) = .ok (t.answered xs ys) := by
  obtain ⟨rest, hs, rfl⟩ := (snkWrite_meets b s).of_ok h
  exact snkWrite_ok (by simp [hs])

/-! ### LOAD_CHUNK -/

/-- LOAD_CHUNK waits behind the bytes the source has given, with room left (42_compress.md R141). -/
theorem fillChunk_waits {n : Nat} (h : fillChunk n s = .wait w) : ∃ bs m,
    s.inEof = false ∧ s.src = bs.map .byte ∧ n = m + 1 + bs.length ∧ w = loaded bs [] s := by
  induction n generalizing s with
  | zero => cases h
  | succ n ih =>
    have heof : s.inEof = false := by
      cases he : s.inEof with
      | false => rfl
      | true => simp [fillChunk, he] at h
    rcases hsrc : s.src with _ | ⟨x | _ | _, rest⟩
    · rw [fillChunk_wait n heof hsrc] at h
      cases h
      exact ⟨[], n, heof, rfl, rfl, by simp [loaded, memSetFrom, ← hsrc]⟩
    · by_cases hc : s.clen < s.cfg.chunkCap
      · rw [fillChunk_byte n heof hsrc hc] at h
        obtain ⟨bs, m, -, hrest, rfl, rfl⟩ := ih h
        obtain rfl : rest = bs.map .byte := hrest
        exact ⟨x :: bs, m, heof, rfl, rfl, by simp [loaded, memSetFrom, Nat.add_assoc, Nat.add_comm 1]⟩
      · simp [fillChunk, heof, srcRead, hsrc, chunkWrite, hc] at h
    · rw [fillChunk_eof n heof hsrc] at h
      cases h
    · simp [fillChunk, heof, srcRead, hsrc] at h

theorem loadStep_blocks (hm : s.mode = .comp) (hph : s.cphase = .load) (h : loadStep s = .wait w) :
    Blocks xs ys w (loadStep (s.answered xs ys)) := by
  rcases andThen_eq_wait h with hfill | ⟨t, -, hrest⟩
  · obtain ⟨bs, m, heof, hsrc, hn, rfl⟩ := fillChunk_waits hfill
    have hroom : s.cfg.chunkCap - (s.clen + bs.length) = m + 1 := by omega
    refine .of_turn (.inl ⟨.inl ⟨hm, hph, ?_, heof⟩, rfl⟩) (Eq.trans (turnRes_comp hm) (compressStep_of_load hph)) ?_
    · simp only [loaded]
      omega
    · have hbytes : fillChunk (m + 1 + bs.length) (s.answered xs ys) = fillChunk (m + 1) ((loaded bs [] s).answered xs ys) :=
        fillChunk_bytes (m + 1) heof (by simp [hsrc, loaded]) (by simp only [answered_clen, answered_cfg]; omega)
      have hload : loadStep ((loaded bs [] s).answered xs ys) = loadStep (s.answered xs ys) := by
        unfold loadStep
        rw [answered_cfg, answered_cfg, answered_clen, answered_clen, hn, hbytes]
        simp only [loaded, hroom]
      rw [hload]
  · split at hrest <;> cases hrest

/-! ### EMIT_CODE and FLUSH_BITS -/

theorem sendFull_waits (h : sendFull s = .wait w) : w = s ∧ s.fill = 8 ∧ s.snkAns = [] := by
  unfold sendFull at h
  split at h
  · rcases andThen_eq_wait h with hw | ⟨t, -, hrest⟩
    · obtain ⟨rfl, hans⟩ := snkWrite_waits hw
      exact ⟨rfl, ‹_›, hans⟩
    · cases hrest
  · cases h

theorem sendFull_answered (h : sendFull s = .ok t) : sendFull (s.answered xs ys) = .ok (t.answered xs ys) := by
  unfold sendFull at h ⊢
  rw [answered_fill]
  split at h
  · rw [if_pos ‹_›]
    obtain ⟨u, hu, hrest⟩ := andThen_eq_ok h
    cases hrest
    rw [answered_acc, snkWrite_answered hu]
    rfl
  · rw [if_neg ‹_›]
    cases h
    rfl

/-- EMIT_CODE going on (R144): it blocks on the full accumulator, or behind it in the bits left. -/
theorem emitStep_blocks {rest : List Bool} (hm : s.mode = .comp)
    (hrest : ∀ {t}, t.mode = .comp → (putBits rest t).andThen advance = .wait w →
      Blocks xs ys w ((putBits rest (t.answered xs ys)).andThen advance))
    (h : emitStep rest s = .wait w) : Blocks xs ys w (emitStep rest (s.answered xs ys)) := by
  rcases andThen_eq_wait h with hw | ⟨t, ht, hput⟩
  · obtain ⟨v, hv, rfl⟩ := parkAt_eq_wait hw
    obtain ⟨rfl, h8, hans⟩ := sendFull_waits hv
    exact .of_turn (.inr ⟨.inl ⟨hm, h8, rest, rfl⟩, hans⟩) (Eq.trans (turnRes_comp hm) (compressStep_of_emit rfl))
      (emitStep_atC (.emit rest) (v.answered xs ys) rest)
  · rw [parkAt_eq_ok] at ht
    obtain ⟨hkeeps, -⟩ : KeepsC s t := (sendFull_keeps s).of_ok ht
    rw [emitStep, sendFull_answered ht, parkAt_ok, andThen_ok]
    exact hrest (hkeeps.mode.trans hm) hput

/-- Behind its first bit, putting the bits of a Code and ADVANCE is EMIT_CODE going on with the others (R100, R144). -/
theorem putBits_cons_advance {b : Bool} (rest : List Bool) (h7 : s.fill ≤ 7) : (putBits (b :: rest) s).andThen advance =
    emitStep rest { s with acc := writeBit s.acc (7 - s.fill) b, fill := s.fill + 1 } := by
  rw [putBits, putBit_of_le b h7, andThen_assoc]
  rfl

theorem advance_ne_wait : advance s ≠ .wait w := by
  unfold advance
  split <;> simp

/-- Putting the bits of a Code and ADVANCE (R144, R145): it blocks where a bit fills the accumulator. -/
theorem putBits_advance_blocks (bits : List Bool) (hm : s.mode = .comp) (h : (putBits bits s).andThen advance = .wait w) :
    Blocks xs ys w ((putBits bits (s.answered xs ys)).andThen advance) := by
  induction bits generalizing s with
  | nil => exact absurd h advance_ne_wait
  | cons b rest ih =>
    have h7 : s.fill ≤ 7 := by
      by_contra h7
      simp [putBits, putBit, h7] at h
    rw [putBits_cons_advance rest h7] at h
    rw [putBits_cons_advance (s := s.answered xs ys) rest h7]
    exact emitStep_blocks (s := { s with acc := _, fill := _ }) hm ih h

theorem codeStep_blocks (hm : s.mode = .comp) (h : codeStep s = .wait w) : Blocks xs ys w (codeStep (s.answered xs ys)) := by
  obtain ⟨c, hc, h⟩ := (andThen_eq_wait h).resolve_left (findLongestMatch_keeps s).of_wait
  obtain ⟨t, ht, h⟩ := (andThen_eq_wait h).resolve_left (setCode_meets c s).of_wait
  obtain ⟨bits, hbits, h⟩ := (andThen_eq_wait h).resolve_left (codeBits_keeps _ c).of_wait
  have hset : setCode c (s.answered xs ys) = .ok (t.answered xs ys) :=
    ok_of_image (g := (Shift.more xs ys).on) (setCode_on (.more xs ys) id s c) ht
  have hfind : findLongestMatch (s.answered xs ys) = .ok c := ok_of_image (findLongestMatch_on (.more xs ys) id s) hc
  have hmode : t.mode = .comp := by
    obtain ⟨-, rfl⟩ := (setCode_meets c s).of_ok ht
    exact hm
  rw [codeStep, hfind, andThen_ok, hset, andThen_ok, answered_cfg, hbits, andThen_ok]
  exact putBits_advance_blocks bits hmode h

theorem flushBits_waits (h : flushBits s = .wait w) : w = s ∧ 0 < s.fill ∧ s.snkAns = [] := by
  unfold flushBits at h
  split at h
  · rcases andThen_eq_wait h with hw | ⟨t, -, hrest⟩
    · obtain ⟨rfl, hans⟩ := snkWrite_waits hw
      exact ⟨rfl, ‹_›, hans⟩
    · cases hrest
  · cases h

theorem finishCompress_blocks (hm : s.mode = .comp) (hph : s.cphase = .flush) (h : finishCompress s = .wait w) :
    Blocks xs ys w (finishCompress (s.answered xs ys)) := by
  rcases andThen_eq_wait h with hflush | ⟨t, -, hrest⟩
  · obtain ⟨rfl, hpos, hans⟩ := flushBits_waits hflush
    exact .of_turn (.inr ⟨.inr (.inl ⟨hm, hpos, hph⟩), hans⟩) (Eq.trans (turnRes_comp hm) (compressStep_of_flush hph)) rfl
  · cases hrest

theorem compressStep_blocks (hm : s.mode = .comp) (h : compressStep s = .wait w) :
    Blocks xs ys w (compressStep (s.answered xs ys)) := by
  cases hph : s.cphase with
  | load =>
    rw [compressStep_of_load hph] at h
    rw [compressStep_of_load (s := s.answered xs ys) hph]
    exact loadStep_blocks hm hph h
  | scan =>
    rw [compressStep_of_scan hph] at h
    rw [compressStep_of_scan (s := s.answered xs ys) hph]
    by_cases hlt : s.pos < s.clen
    · rw [scanStep_of_lt hlt] at h
      rw [scanStep_of_lt (s := s.answered xs ys) hlt]
      exact codeStep_blocks hm h
    · rw [scanStep_of_le (not_lt.mp hlt)] at h
      split at h <;> cases h
  | emit rest =>
    rw [compressStep_of_emit hph] at h
    rw [compressStep_of_emit (s := s.answered xs ys) hph]
    exact emitStep_blocks hm (putBits_advance_blocks rest) h
  | flush =>
    rw [compressStep_of_flush hph] at h
    rw [compressStep_of_flush (s := s.answered xs ys) hph]
    exact finishCompress_blocks hm hph h

/-! ### DECODE_CODE -/

theorem getBit_waits (h : getBit s = .wait w) : w = s ∧ s.fill = 0 ∧ s.src = [] := by
  unfold getBit at h
  split at h
  · rcases andThen_eq_wait h with hw | ⟨⟨o, t⟩, -, hrest⟩
    · obtain ⟨hsrc, rfl⟩ := (srcRead_meets s).of_wait hw
      exact ⟨rfl, ‹_›, hsrc⟩
    · cases o <;> cases hrest
  · split at h <;> cases h

theorem getBit_answered {o : Option Bool} (h : getBit s = .ok (o, t)) :
    getBit (s.answered xs ys) = .ok (o, t.answered xs ys) := by
  rcases Nat.eq_zero_or_pos s.fill with h0 | hpos
  · rcases hsrc : s.src with _ | ⟨x | _ | _, rest⟩
    · simp [getBit, h0, srcRead, hsrc] at h
    · rw [getBit_refill h0 hsrc] at h
      cases h
      exact getBit_refill (s := s.answered xs ys) h0 (by simp [hsrc])
    · rw [getBit_eof h0 hsrc] at h
      cases h
      exact getBit_eof (s := s.answered xs ys) h0 (by simp [hsrc])
    · rw [getBit_fail h0 hsrc] at h
      cases h
  · by_cases h8 : s.fill ≤ 8
    · rw [getBit_of_pos hpos h8] at h
      cases h
      exact getBit_of_pos (s := s.answered xs ys) hpos h8
    · simp [getBit, hpos.ne', h8] at h

theorem getBit_readOnly {o : Option Bool} (h : getBit s = .ok (o, t)) : ReadOnly s t :=
  ((getBit_frame s).of_ok h).1

/-- The bit loop of DECODE_CODE waits behind bits that do not make `got` a whole Code, with the read window empty (R161); with more
answers it goes on from there. -/
theorem takeCode_waits {n : Nat} {got : List Bool} (h : takeCode n got s = .wait w) : ∃ bits m t,
    ReadOnly s t ∧ t.fill = 0 ∧ t.src = [] ∧ (∀ c rest, decodeCode t.cfg (got ++ bits) ≠ .code c rest) ∧
    n = m + bits.length ∧ w = (atD (.decode (got ++ bits))).on t ∧
    ∀ xs ys, takeCode n got (s.answered xs ys) = takeCode m (got ++ bits) (t.answered xs ys) := by
  induction n generalizing got s with
  | zero => cases h
  | succ n ih =>
    unfold takeCode at h
    split at h
    · cases h
    next hcode =>
      rcases andThen_eq_wait h with hw | ⟨⟨o, t⟩, ht, hrest⟩
      · obtain ⟨v, hv, rfl⟩ := parkAt_eq_wait hw
        obtain ⟨rfl, h0, hsrc⟩ := getBit_waits hv
        exact ⟨[], n + 1, v, .refl v, h0, hsrc, by simpa using hcode, rfl, by simp [atD, Shift.on], by simp⟩
      · rw [parkAt_eq_ok] at ht
        have hst := getBit_readOnly ht
        cases o with
        | none => cases hrest
        | some b =>
          obtain ⟨bits, m, u, htu, h0, hsrc, hne, rfl, rfl, hsame⟩ := ih hrest
          refine ⟨b :: bits, m, u, hst.trans htu, h0, hsrc, by simpa using hne, rfl, by simp, fun xs ys => ?_⟩
          rw [takeCode_of_bit (s := s.answered xs ys) hcode (getBit_answered ht), hsame]
          simp

/-- Raising the bound on the bits above the longest Code changes nothing (R86): by then the bits are a whole Code. -/
theorem takeCode_enough {n : Nat} {got : List Bool} (hp : s.cfg.Legal) (hn : s.cfg.maxCodeBits ≤ n + got.length) (k : Nat) :
    takeCode (n + k) got s = takeCode n got s := by
  induction n generalizing got s with
  | zero =>
    obtain ⟨-, hlong⟩ := noIllegalPattern s.cfg got hp
    obtain ⟨c, rest, hc, -⟩ := hlong (by simpa [Params.maxCodeBits, litBits] using hn)
    rw [takeCode_of_code _ hc, takeCode_of_code _ hc]
  | succ n ih =>
    rw [Nat.add_right_comm]
    unfold takeCode
    split
    · rfl
    · cases hget : getBit s with
      | ok r =>
        obtain ⟨o, t⟩ := r
        cases o with
        | none => rfl
        | some b =>
          have hcfg := (getBit_readOnly hget).cfg
          exact ih (by rwa [hcfg]) (by rw [hcfg, List.length_append, List.length_singleton]; omega)
      | _ => rfl

theorem decodeStep_blocks {got : List Bool} (hp : s.cfg.Legal) (hm : s.mode = .decomp) (h : decodeStep got s = .wait w) :
    Blocks xs ys w (decodeStep got (s.answered xs ys)) := by
  rcases andThen_eq_wait h with hw | ⟨⟨d, t⟩, -, hrest⟩
  · obtain ⟨bits, m, t, hst, h0, hsrc, hne, hn, rfl, hsame⟩ := takeCode_waits hw
    have hmode : t.mode = .decomp := by
      obtain ⟨_, _, _, _, rfl⟩ := hst
      exact hm
    have hbound : takeCode (s.cfg.maxCodeBits + 1) (got ++ bits) (t.answered xs ys) =
        takeCode m (got ++ bits) (t.answered xs ys) := by
      rw [hn]
      refine takeCode_enough (s := t.answered xs ys) (hst.cfg ▸ hp) ?_ bits.length
      rw [answered_cfg, hst.cfg, List.length_append]
      omega
    refine .of_turn (.inl ⟨.inr ⟨hmode, h0, _, rfl, hne⟩, hsrc⟩)
      (Eq.trans (turnRes_decomp hmode) (decompressRes_decode rfl)) ?_
    refine (decodeStep_atD _ (t.answered xs ys) _).trans ?_
    unfold decodeStep
    rw [answered_cfg, answered_cfg, hst.cfg, hsame, hbound]
  · cases d with
    | code c _ => exact absurd hrest (storeCode_meets c t).of_wait
    | endOfStream => cases hrest
    | truncated => cases hrest

/-! ### RING_FLUSH and FINAL_FLUSH -/

theorem ringRead_eq_ok {i : Nat} {b : Byte} (h : ringRead i s = .ok b) : i < s.cfg.ringCap ∧ memGet s.ring i = some b := by
  by_cases hi : i < s.cfg.ringCap
  · exact ⟨hi, (ringRead_meets i s).of_ok h⟩
  · simp [ringRead, hi] at h

theorem sendRing_answered {park : Nat → DPhase} {n i : Nat} (h : sendRing park n i s = .ok t) :
    sendRing park n i (s.answered xs ys) = .ok (t.answered xs ys) := by
  induction n generalizing i s with
  | zero =>
    cases h
    rfl
  | succ n ih =>
    obtain ⟨b, hb, h⟩ := andThen_eq_ok h
    obtain ⟨u, hu, h⟩ := andThen_eq_ok h
    rw [parkAt_eq_ok] at hu
    have hread : ringRead i (s.answered xs ys) = .ok b := ok_of_image (ringRead_on (.more xs ys) id s i) hb
    rw [sendRing, hread, andThen_ok, snkWrite_answered hu, parkAt_ok, andThen_ok]
    exact ih h

/-- Sending a stretch of RING waits behind the bytes the sink has taken, before an entry that holds a value (R167, R168); with more
answers it goes on from there. -/
theorem sendRing_waits {park : Nat → DPhase} {n i : Nat} (h : sendRing park n i s = .wait w) : ∃ sent m,
    n = m + 1 + sent.length ∧ i + sent.length < s.cfg.ringCap ∧ (memGet s.ring (i + sent.length)).isSome ∧
    w = (atD (park (i + sent.length))).on (tookBytes sent [] s) ∧
    ∀ xs ys, sendRing park n i (s.answered xs ys) =
      sendRing park (m + 1) (i + sent.length) ((tookBytes sent [] s).answered xs ys) := by
  induction n generalizing i s with
  | zero => cases h
  | succ n ih =>
    obtain ⟨b, hb, h⟩ := (andThen_eq_wait h).resolve_left (ringRead_meets i s).of_wait
    have hread (xs ys) : ringRead i (s.answered xs ys) = .ok b := ok_of_image (ringRead_on (.more xs ys) id s i) hb
    rcases andThen_eq_wait h with hw | ⟨t, ht, h⟩
    · obtain ⟨v, hv, rfl⟩ := parkAt_eq_wait hw
      obtain ⟨rfl, hans⟩ := snkWrite_waits hv
      have hsame : tookBytes [] [] v = v := by simp [tookBytes, ← hans]
      obtain ⟨hi, hget⟩ := ringRead_eq_ok hb
      refine ⟨[], n, rfl, hi, by simp [hget], ?_, ?_⟩
      · rw [hsame]
        rfl
      · simp [hsame]
    · rw [parkAt_eq_ok] at ht
      obtain ⟨ans, -, rfl⟩ : ∃ ans, s.snkAns = .ok :: ans ∧ t = tookBytes [b] ans s := (snkWrite_meets b s).of_ok ht
      obtain ⟨sent, m, rfl, hi, hsome, rfl, hsame⟩ := ih h
      have hi' : i + (b :: sent).length = i + 1 + sent.length := by rw [List.length_cons]; omega
      have htook : tookBytes sent [] (tookBytes [b] ans s) = tookBytes (b :: sent) [] s := by simp [tookBytes]
      rw [htook] at hsame ⊢
      refine ⟨b :: sent, m, rfl, by rwa [hi'], by rwa [hi'], by rw [hi'], fun xs ys => ?_⟩
      rw [sendRing, hread, andThen_ok, snkWrite_answered ht, parkAt_ok, andThen_ok, hi']
      exact hsame xs ys

theorem ringFlushFrom_answered {i : Nat} {acts : List Act} (h : ringFlushFrom i acts s = .ok t) :
    ringFlushFrom i acts (s.answered xs ys) = .ok (t.answered xs ys) := by
  obtain ⟨u, hu, h⟩ := andThen_eq_ok h
  obtain ⟨v, hv, h⟩ := andThen_eq_ok h
  cases h
  have hreseed : reseed u.cfg.windowSize 0 (u.answered xs ys) = .ok (v.answered xs ys) :=
    ok_of_image (g := (Shift.more xs ys).on) (reseed_on (.more xs ys) id u _ 0) hv
  rw [ringFlushFrom, answered_cfg, sendRing_answered hu, andThen_ok, answered_cfg, hreseed, andThen_ok]
  rfl

/-- A ring flush going on (R167): it blocks in the flush, or behind it in the rest of the Code. -/
theorem flushStep_blocks {i : Nat} {acts : List Act} (hm : s.mode = .decomp)
    (hacts : ∀ {t}, t.mode = .decomp → runActs acts t = .wait w → Blocks xs ys w (runActs acts (t.answered xs ys)))
    (h : flushStep i acts s = .wait w) : Blocks xs ys w (flushStep i acts (s.answered xs ys)) := by
  rcases andThen_eq_wait h with hw | ⟨t, ht, hrun⟩
  · rcases andThen_eq_wait hw with hw | ⟨u, -, hrest⟩
    · obtain ⟨sent, m, hn, hi, hsome, rfl, hsame⟩ := sendRing_waits hw
      have hleft : s.cfg.ringCap - (i + sent.length) = m + 1 := by omega
      refine .of_turn (.inr ⟨.inr (.inr (.inl ⟨hm, _, acts, rfl, hi, hsome⟩)), rfl⟩)
        (Eq.trans (turnRes_decomp hm) (decompressRes_ringFlush rfl)) ?_
      refine (flushStep_atD _ ((tookBytes sent [] s).answered xs ys) _ acts).trans ?_
      unfold flushStep ringFlushFrom
      rw [answered_cfg, answered_cfg, hsame]
      simp only [tookBytes, hleft]
    · obtain ⟨v, -, hrest⟩ := (andThen_eq_wait hrest).resolve_left (reseed_frame _ 0 u).of_wait
      cases hrest
  · obtain ⟨hkeeps, -⟩ : KeepsD s t := (ringFlushFrom_keeps i acts s).of_ok ht
    rw [flushStep, ringFlushFrom_answered ht, andThen_ok]
    exact hacts (hkeeps.mode.trans hm) hrun

theorem runActs_blocks (acts : List Act) (hm : s.mode = .decomp) (h : runActs acts s = .wait w) :
    Blocks xs ys w (runActs acts (s.answered xs ys)) := by
  induction acts generalizing s with
  | nil => cases h
  | cons a acts ih =>
    obtain ⟨b, hb, h⟩ := (andThen_eq_wait h).resolve_left (actByte_keeps a s).of_wait
    have hbyte : actByte a (s.answered xs ys) = .ok b := ok_of_image (actByte_on (.more xs ys) id s a) hb
    rw [runActs, hbyte, andThen_ok]
    rcases lt_trichotomy (s.wp + 1) s.cfg.ringCap with hlt | heq | hgt
    · rw [appendByte_of_room b acts hlt, andThen_ok] at h
      rw [appendByte_of_room (s := s.answered xs ys) b acts hlt, andThen_ok]
      exact ih (s := Appended b s) hm h
    · rw [appendByte_of_full b acts heq] at h
      rw [appendByte_of_full (s := s.answered xs ys) b acts heq]
      exact flushStep_blocks (s := Appended b s) hm ih h
    · rw [appendByte_of_outside b acts (by omega)] at h
      cases h

theorem finalStep_blocks {i : Nat} (hm : s.mode = .decomp) (h : finalStep i s = .wait w) :
    Blocks xs ys w (finalStep i (s.answered xs ys)) := by
  rcases andThen_eq_wait h with hw | ⟨t, -, hrest⟩
  · obtain ⟨sent, m, hn, hi, hsome, rfl, hsame⟩ := sendRing_waits hw
    have hleft : s.wp - (i + sent.length) = m + 1 := by omega
    refine .of_turn (.inr ⟨.inr (.inr (.inr ⟨hm, _, rfl, ?_, hi, hsome⟩)), rfl⟩)
      (Eq.trans (turnRes_decomp hm) (decompressRes_final rfl)) ?_
    · change i + sent.length < s.wp
      omega
    · refine (finalStep_atD _ ((tookBytes sent [] s).answered xs ys) _).trans ?_
      unfold finalStep
      rw [answered_wp, answered_wp, hsame]
      simp only [tookBytes, hleft]
  · cases hrest

/-! ### The step of each pipeline, and the turn -/

theorem codeRes_blocks {c : Code} (hm : s.mode = .decomp) (h : codeRes c s = .wait w) :
    Blocks xs ys w (codeRes c (s.answered xs ys)) := by
  unfold codeRes at h ⊢
  split at h
  case isTrue hlen =>
    rw [if_pos hlen]
    exact runActs_blocks _ hm h
  case isFalse hlen =>
    rw [if_neg hlen]
    unfold applyCopy at h ⊢
    split at h
    case isTrue hops =>
      rw [answered_cfg, if_pos hops, answered_wp]
      split at h
      · cases h
      · rw [if_neg ‹_›]
        exact runActs_blocks _ hm h
    case isFalse => cases h

theorem decompressRes_blocks (hp : s.cfg.Legal) (hm : s.mode = .decomp) (h : decompressRes s = .wait w) :
    Blocks xs ys w (decompressRes (s.answered xs ys)) := by
  cases hph : s.dphase with
  | decode got =>
    rw [decompressRes_decode hph] at h
    rw [decompressRes_decode (s := s.answered xs ys) hph]
    exact decodeStep_blocks hp hm h
  | apply =>
    by_cases hlt : s.aidx < s.bcnt
    · rw [decompressRes_apply_code hph hlt] at h
      rw [decompressRes_apply_code (s := s.answered xs ys) hph hlt]
      obtain ⟨c, hc, h⟩ := (andThen_eq_wait h).resolve_left (batchRead_meets s.aidx s).of_wait
      have hread : batchRead s.aidx (s.answered xs ys) = .ok c := ok_of_image (batchRead_on (.more xs ys) id s s.aidx) hc
      rw [answered_aidx, hread, andThen_ok]
      exact codeRes_blocks (s := { s with aidx := s.aidx + 1 }) hm h
    · rw [decompressRes_apply_end hph hlt] at h
      cases h
  | ringFlush i acts =>
    rw [decompressRes_ringFlush hph] at h
    rw [decompressRes_ringFlush (s := s.answered xs ys) hph]
    exact flushStep_blocks hm (runActs_blocks acts) h
  | final i =>
    rw [decompressRes_final hph] at h
    rw [decompressRes_final (s := s.answered xs ys) hph]
    exact finalStep_blocks hm h

/-- A turn that waits stands before a port without an answer and loses nothing (R235). -/
theorem turnRes_blocks (hp : s.cfg.Legal) (h : turnRes s = .wait w) : Blocks xs ys w (turnRes (s.answered xs ys)) := by
  cases hm : s.mode with
  | idle => simp [turnRes, hm] at h
  | comp =>
    rw [turnRes_comp hm] at h
    rw [turnRes_comp (s := s.answered xs ys) hm]
    exact compressStep_blocks hm h
  | decomp =>
    rw [turnRes_decomp hm] at h
    rw [turnRes_decomp (s := s.answered xs ys) hm]
    exact decompressRes_blocks hp hm h

end

/-! ### A port that answers Fail -/

section
variable {s : State}

/-- The loop of LOAD_CHUNK and a source that fails (42_compress.md R141, R194). -/
theorem fillChunk_fail {rest : List SrcAnswer} (n : Nat) (heof : s.inEof = false) (hs : s.src = .fail :: rest) :
    fillChunk (n + 1) s = .raise .ioFailure { s with src := rest } := by
  simp [fillChunk, heof, srcRead, hs]

/-- The bit loop of DECODE_CODE and a source that fails (43_decompress.md R161, R194). -/
theorem takeCode_fail {rest : List SrcAnswer} (n : Nat) {got : List Bool} (h : ∀ c r, decodeCode s.cfg got ≠ .code c r)
    (h0 : s.fill = 0) (hs : s.src = .fail :: rest) : takeCode (n + 1) got s = .raise .ioFailure { s with src := rest } := by
  unfold takeCode
  split
  · exact absurd ‹_› (h _ _)
  · rw [getBit_fail h0 hs, parkAt_raise, andThen_raise]

/-- Sending from RING to a sink that fails (43_decompress.md R167, R168, R194). -/
theorem sendRing_fail {rest : List SnkAnswer} (park : Nat → DPhase) {i n : Nat} (hn : 0 < n) (hi : i < s.cfg.ringCap)
    (hsome : (memGet s.ring i).isSome) (hs : s.snkAns = .fail :: rest) :
    sendRing park n i s = .raise .ioFailure { s with snkAns := rest } := by
  obtain ⟨n, rfl⟩ := Nat.exists_eq_succ_of_ne_zero hn.ne'
  obtain ⟨b, hb⟩ := Option.isSome_iff_exists.mp hsome
  rw [sendRing, ringRead_ok hi hb, andThen_ok, snkWrite_fail hs, parkAt_raise, andThen_raise]

/-- A turn whose first access is to a source that fails (R194). -/
theorem turnRes_source_fail {rest : List SrcAnswer} (h : WaitsForSource s) (hs : s.src = .fail :: rest) :
    turnRes s = .raise .ioFailure { s with src := rest } := by
  rcases h with ⟨hm, hph, hroom, heof⟩ | ⟨hm, h0, got, hph, hne⟩
  · obtain ⟨n, hn⟩ := Nat.exists_eq_add_of_lt hroom
    have hleft : s.cfg.chunkCap - s.clen = n + 1 := by omega
    rw [turnRes_comp hm, compressStep_of_load hph, loadStep, hleft, fillChunk_fail n heof hs, andThen_raise]
  · rw [turnRes_decomp hm, decompressRes_decode hph, decodeStep, takeCode_fail _ hne h0 hs, andThen_raise]

/-- A turn whose first access is to a sink that fails (R194). -/
theorem turnRes_sink_fail {rest : List SnkAnswer} (h : WaitsForSink s) (hs : s.snkAns = .fail :: rest) :
    turnRes s = .raise .ioFailure { s with snkAns := rest } := by
  rcases h with ⟨hm, h8, bits, hph⟩ | ⟨hm, hpos, hph⟩ | ⟨hm, i, acts, hph, hi, hsome⟩ | ⟨hm, i, hph, hlt, hi, hsome⟩
  · rw [turnRes_comp hm, compressStep_of_emit hph, emitStep, sendFull_fail h8 hs, parkAt_raise, andThen_raise]
  · rw [turnRes_comp hm, compressStep_of_flush hph, finishCompress, flushBits_fail hpos hs, andThen_raise]
  · rw [turnRes_decomp hm, decompressRes_ringFlush hph, flushStep, ringFlushFrom,
      sendRing_fail _ (Nat.sub_pos_of_lt hi) hi hsome hs, andThen_raise, andThen_raise]
  · rw [turnRes_decomp hm, decompressRes_final hph, finalStep, sendRing_fail _ (Nat.sub_pos_of_lt hlt) hi hsome hs,
      andThen_raise]

theorem blockTurn_source_fail {rest : List SrcAnswer} (hp : s.cfg.Legal) (h : WaitsForSource s) (hs : s.src = .fail :: rest) :
    ∃ t, blockTurn s = .next t ∧ Raised .ioFailure s t ∧ t.src = rest := by
  rw [blockTurn_eq hp, turnRes_source_fail h hs]
  exact ⟨_, toOutcome_raise _ _, raised_raiseError .ioFailure { s with src := rest }, rfl⟩

theorem blockTurn_sink_fail {rest : List SnkAnswer} (hp : s.cfg.Legal) (h : WaitsForSink s) (hs : s.snkAns = .fail :: rest) :
    ∃ t, blockTurn s = .next t ∧ Raised .ioFailure s t ∧ t.snkAns = rest := by
  rw [blockTurn_eq hp, turnRes_sink_fail h hs]
  exact ⟨_, toOutcome_raise _ _, raised_raiseError .ioFailure { s with snkAns := rest }, rfl⟩

/-- Once the host has answered more, the next turn does what the undisturbed turn would have done (R235). -/
theorem blockTurn_resumes {w : State} (hp : s.cfg.Legal) (h : turnRes s = .wait w) (xs : List SrcAnswer) (ys : List SnkAnswer) :
    w.cfg.Legal ∧ blockTurn (w.answered xs ys) = blockTurn (s.answered xs ys) := by
  have hwait : blockTurn s = .next w := by rw [blockTurn_eq hp, h, toOutcome_wait]
  have hpw : w.cfg.Legal := by
    rw [(blockTurn_frame hwait).1]
    exact hp
  refine ⟨hpw, ?_⟩
  rw [blockTurn_eq (s := w.answered xs ys) hpw, blockTurn_eq (s := s.answered xs ys) hp]
  exact (turnRes_blocks hp h).resumes

end

/-- Settles O54: a Fail that the turn meets first by the equations above; one behind answered accesses is met first from the state
in which the turn would wait, and from there the turn ends in the same way. -/
theorem failedPort : Obligations.FailedPort := by
  refine fun s hp => ⟨fun h rest => blockTurn_source_fail hp h, fun h rest => blockTurn_sink_fail hp h,
    fun w hw => ⟨fun h xs ys hsrc => ?_, fun h xs ys hans => ?_⟩⟩
  · obtain ⟨hpw, hsame⟩ := blockTurn_resumes hp hw (.fail :: xs) ys
    rw [← hsame]
    exact blockTurn_source_fail (s := w.answered (.fail :: xs) ys) hpw h (by simp [hsrc])
  · obtain ⟨hpw, hsame⟩ := blockTurn_resumes hp hw xs (.fail :: ys)
    rw [← hsame]
    exact blockTurn_sink_fail (s := w.answered xs (.fail :: ys)) hpw h (by simp [hans])

end Sys2Proof.Machine
end

section
/-! PROOFS of 70_reset_and_hazards.md: the reset event (R220, R222), and a pipeline at a port without an answer, which stays where it
stands (R235). -/

namespace Sys2Proof.Machine

/-! ### Reset -/

/-- Settles O45: the next state is `resetBlock s`, one law of it for each field. -/
theorem resetEvent : Obligations.ResetEvent := fun s => ⟨resetBlock s, rfl, by simp [clearedCode]⟩

/-! ### An operation whose first access is to a port without an answer -/

section
variable {s : State}

theorem snkWrite_wait (b : Byte) (hs : s.snkAns = []) : snkWrite b s = .wait s := by
  simp [snkWrite, hs]

theorem sendFull_wait (h8 : s.fill = 8) (hs : s.snkAns = []) : sendFull s = .wait s := by
  simp [sendFull, h8, snkWrite_wait _ hs]

theorem flushBits_wait (hpos : 0 < s.fill) (hs : s.snkAns = []) : flushBits s = .wait s := by
  simp [flushBits, hpos, snkWrite_wait _ hs]

theorem getBit_wait (h0 : s.fill = 0) (hs : s.src = []) : getBit s = .wait s := by
  simp [getBit, h0, srcRead, hs]

/-- The bit loop of DECODE_CODE notes the bits taken (43_decompress.md R161). -/
theorem takeCode_wait (n : Nat) {got : List Bool} (h : ∀ c rest, decodeCode s.cfg got ≠ .code c rest) (h0 : s.fill = 0)
    (hs : s.src = []) : takeCode (n + 1) got s = .wait { s with dphase := .decode got } := by
  unfold takeCode
  split
  · exact absurd ‹_› (h _ _)
  · rw [getBit_wait h0 hs, parkAt_wait, andThen_wait]

/-- Sending from RING notes the index it has come to (43_decompress.md R167, R168). -/
theorem sendRing_wait (park : Nat → DPhase) {i n : Nat} (hn : 0 < n) (hi : i < s.cfg.ringCap) (hsome : (memGet s.ring i).isSome)
    (hs : s.snkAns = []) : sendRing park n i s = .wait { s with dphase := park i } := by
  obtain ⟨n, rfl⟩ := Nat.exists_eq_succ_of_ne_zero hn.ne'
  obtain ⟨b, hb⟩ := Option.isSome_iff_exists.mp hsome
  rw [sendRing, ringRead_ok hi hb, andThen_ok, snkWrite_wait b hs, parkAt_wait, andThen_wait]

/-! ### The blocked turn (R235) -/

/-- A compressor that notes the control point it stands at has changed nothing. -/
theorem parked_cphase {p : CPhase} (h : s.cphase = p) : { s with cphase := p } = s := by
  rw [← h]

/-- So has a decompressor. -/
theorem parked_dphase {p : DPhase} (h : s.dphase = p) : { s with dphase := p } = s := by
  rw [← h]

/-- A turn whose first access is to a source without an answer. -/
theorem turnRes_source_wait (h : WaitsForSource s) (hs : s.src = []) : turnRes s = .wait s := by
  rcases h with ⟨hm, hph, hroom, heof⟩ | ⟨hm, h0, got, hph, hne⟩
  · obtain ⟨n, hn⟩ := Nat.exists_eq_add_of_lt hroom
    have hleft : s.cfg.chunkCap - s.clen = n + 1 := by omega
    rw [turnRes_comp hm, compressStep_of_load hph, loadStep, hleft, fillChunk_wait n heof hs, andThen_wait]
  · rw [turnRes_decomp hm, decompressRes_decode hph, decodeStep, takeCode_wait _ hne h0 hs, andThen_wait, parked_dphase hph]

/-- A turn whose first access is to a sink without an answer. -/
theorem turnRes_sink_wait (h : WaitsForSink s) (hs : s.snkAns = []) : turnRes s = .wait s := by
  rcases h with ⟨hm, h8, bits, hph⟩ | ⟨hm, hpos, hph⟩ | ⟨hm, i, acts, hph, hi, hsome⟩ | ⟨hm, i, hph, hlt, hi, hsome⟩
  · rw [turnRes_comp hm, compressStep_of_emit hph, emitStep, sendFull_wait h8 hs, parkAt_wait, andThen_wait, parked_cphase hph]
  · rw [turnRes_comp hm, compressStep_of_flush hph, finishCompress, flushBits_wait hpos hs, andThen_wait]
  · rw [turnRes_decomp hm, decompressRes_ringFlush hph, flushStep, ringFlushFrom,
      sendRing_wait _ (Nat.sub_pos_of_lt hi) hi hsome hs, andThen_wait, andThen_wait, parked_dphase hph]
  · rw [turnRes_decomp hm, decompressRes_final hph, finalStep, sendRing_wait _ (Nat.sub_pos_of_lt hlt) hi hsome hs,
      andThen_wait, parked_dphase hph]

theorem blockTurn_of_wait {w : State} (hp : s.cfg.Legal) (h : turnRes s = .wait w) : blockTurn s = .next w := by
  rw [blockTurn_eq hp, h, toOutcome_wait]

end

/-- Settles O53: a turn whose first access is blocked waits in the state it began in; one blocked later stands before a port
without an answer (`turnRes_blocks`) and goes on as the undisturbed turn (`blockTurn_resumes`). -/
theorem blockedWaits : Obligations.BlockedWaits := fun _ hp =>
  ⟨fun h hs => blockTurn_of_wait hp (turnRes_source_wait h hs), fun h hs => blockTurn_of_wait hp (turnRes_sink_wait h hs),
    fun _ hw => ⟨blockTurn_of_wait hp hw, (turnRes_blocks (xs := []) (ys := []) hp hw).port,
      fun xs ys => (blockTurn_resumes hp hw xs ys).2⟩⟩

end Sys2Proof.Machine
end

section
/-! PROOFS of the stops that no run reaches and of the state they are unreachable from: operands that no Code has (30_encoding.md
R88), and the machine's invariant after reset (70_reset_and_hazards.md R220). -/

namespace Sys2Proof.Machine

/-- COPY whose operands no Code has (30_encoding.md R88). -/
theorem applyCopy_of_not_operands {off n : Nat} (c : Byte) {s : State} (ho : ¬ CopyOperands s.cfg off n) :
    applyCopy off n c s = .refuse .notACode := by
  rw [applyCopy, if_neg ho]

/-- Settles O29: each copy instruction applies its Code, which tests the operands first. -/
theorem operandsOfNoCode : Obligations.OperandsOfNoCode := fun s off c nk hnk ho => by
  rw [exec_copyForm hnk, applyCopy_of_not_operands c ho, toOutcome_refuse]

/-- An instance with legal parameters satisfies the invariant after reset (70_reset_and_hazards.md R220): it is idle, with no flag
set and every buffer empty. -/
theorem resetWith_inv {p : Params} (hp : p.Legal) : Inv (State.resetWith p) :=
  .of_idle (resetWith_mode p) hp (by simp [FlagsInv]) ⟨nil_wf, nil_wf, nil_wf⟩

/-- After reset the host has given no answer (60_exceptions.md R207). -/
theorem resetWith_sourceInv (p : Params) : SourceInv (State.resetWith p) := by
  simp [SourceInv]

/-- Settles O55: the parameters of the reference configuration are legal. -/
theorem invAtReset : Obligations.InvAtReset :=
  have hlegal : Config.reference.Legal := by decide
  ⟨resetWith_inv hlegal, resetWith_sourceInv Config.reference⟩

end Sys2Proof.Machine
end
